-- ==== Sys2Proof/Word.lean ====
section
/-!
DEFINITION. The word types of the machine (00_scope.md R6, R9): every register, CSR and address is an unsigned
32-bit value, the clock and its comparator are 64 bits wide, memory is made of bytes. Register numbers and CSR
numbers are the 5-bit and 12-bit fields of R121 and R128.
-/

namespace Sys2Proof

/-- A register, CSR word, address or instruction word: 32 bits (R6, R9). -/
abbrev Word := BitVec 32

/-- One byte of memory or of the UART's output (R53, R30). -/
abbrev Byte := BitVec 8

/-- The clock and its comparator: 64 bits (R28). -/
abbrev Dword := BitVec 64

/-- A general register's number, 0 to 31 (R21). -/
abbrev RegNum := Fin 32

/-- A CSR's number, 0 to 4095 (R31, R128). -/
abbrev CsrNum := BitVec 12

end Sys2Proof
end

