-- ==== Sys2Proof/Syntax.lean ====
section
/-!
DEFINITION. The instructions: one constructor for each of the 67 rows of 30_encoding.md R132 (spec/opcode_table.json).
Operands are the fields of R121 to R128. An immediate is kept at its natural width, not yet extended (30_encoding.md,
section 2). A field that the decoder does not look at (R131: `rd`, `rs1` of ECALL and the fences, `rs2` of LR.W and
MRET, `fm`, `pred`, `succ`, the immediate of FENCE.I) is an operand too: no meaning reads it, and with it an instruction
and its word determine each other (log 12).
-/

namespace Sys2Proof

/-- The instructions of R132. -/
inductive Instr where
  -- 40_rv32i_compute.md
  | lui (rd : RegNum) (imm : BitVec 20)
  | auipc (rd : RegNum) (imm : BitVec 20)
  | addi (rd rs1 : RegNum) (imm : BitVec 12)
  | slti (rd rs1 : RegNum) (imm : BitVec 12)
  | sltiu (rd rs1 : RegNum) (imm : BitVec 12)
  | xori (rd rs1 : RegNum) (imm : BitVec 12)
  | ori (rd rs1 : RegNum) (imm : BitVec 12)
  | andi (rd rs1 : RegNum) (imm : BitVec 12)
  | slli (rd rs1 : RegNum) (shamt : BitVec 5)
  | srli (rd rs1 : RegNum) (shamt : BitVec 5)
  | srai (rd rs1 : RegNum) (shamt : BitVec 5)
  | add (rd rs1 rs2 : RegNum)
  | sub (rd rs1 rs2 : RegNum)
  | sll (rd rs1 rs2 : RegNum)
  | slt (rd rs1 rs2 : RegNum)
  | sltu (rd rs1 rs2 : RegNum)
  | xor (rd rs1 rs2 : RegNum)
  | srl (rd rs1 rs2 : RegNum)
  | sra (rd rs1 rs2 : RegNum)
  | or (rd rs1 rs2 : RegNum)
  | and (rd rs1 rs2 : RegNum)
  -- 41_rv32i_control.md
  | jal (rd : RegNum) (offset : BitVec 21)
  | jalr (rd rs1 : RegNum) (imm : BitVec 12)
  | beq (rs1 rs2 : RegNum) (offset : BitVec 13)
  | bne (rs1 rs2 : RegNum) (offset : BitVec 13)
  | blt (rs1 rs2 : RegNum) (offset : BitVec 13)
  | bge (rs1 rs2 : RegNum) (offset : BitVec 13)
  | bltu (rs1 rs2 : RegNum) (offset : BitVec 13)
  | bgeu (rs1 rs2 : RegNum) (offset : BitVec 13)
  -- 42_rv32i_loadstore_fence.md
  | lb (rd rs1 : RegNum) (imm : BitVec 12)
  | lh (rd rs1 : RegNum) (imm : BitVec 12)
  | lw (rd rs1 : RegNum) (imm : BitVec 12)
  | lbu (rd rs1 : RegNum) (imm : BitVec 12)
  | lhu (rd rs1 : RegNum) (imm : BitVec 12)
  | sb (rs2 rs1 : RegNum) (imm : BitVec 12)
  | sh (rs2 rs1 : RegNum) (imm : BitVec 12)
  | sw (rs2 rs1 : RegNum) (imm : BitVec 12)
  | fence (fm pred succ : BitVec 4) (rs1 rd : RegNum)
  | fenceI (imm : BitVec 12) (rs1 rd : RegNum)
  -- 43_m_muldiv.md
  | mul (rd rs1 rs2 : RegNum)
  | mulh (rd rs1 rs2 : RegNum)
  | mulhsu (rd rs1 rs2 : RegNum)
  | mulhu (rd rs1 rs2 : RegNum)
  | div (rd rs1 rs2 : RegNum)
  | divu (rd rs1 rs2 : RegNum)
  | rem (rd rs1 rs2 : RegNum)
  | remu (rd rs1 rs2 : RegNum)
  -- 44_a_atomic.md
  | lrW (rd rs1 rs2 : RegNum) (aq rl : Bool)
  | scW (rd rs1 rs2 : RegNum) (aq rl : Bool)
  | amoswapW (rd rs1 rs2 : RegNum) (aq rl : Bool)
  | amoaddW (rd rs1 rs2 : RegNum) (aq rl : Bool)
  | amoxorW (rd rs1 rs2 : RegNum) (aq rl : Bool)
  | amoandW (rd rs1 rs2 : RegNum) (aq rl : Bool)
  | amoorW (rd rs1 rs2 : RegNum) (aq rl : Bool)
  | amominW (rd rs1 rs2 : RegNum) (aq rl : Bool)
  | amomaxW (rd rs1 rs2 : RegNum) (aq rl : Bool)
  | amominuW (rd rs1 rs2 : RegNum) (aq rl : Bool)
  | amomaxuW (rd rs1 rs2 : RegNum) (aq rl : Bool)
  -- 45_zicsr.md
  | csrrw (rd : RegNum) (csr : CsrNum) (rs1 : RegNum)
  | csrrs (rd : RegNum) (csr : CsrNum) (rs1 : RegNum)
  | csrrc (rd : RegNum) (csr : CsrNum) (rs1 : RegNum)
  | csrrwi (rd : RegNum) (csr : CsrNum) (uimm : BitVec 5)
  | csrrsi (rd : RegNum) (csr : CsrNum) (uimm : BitVec 5)
  | csrrci (rd : RegNum) (csr : CsrNum) (uimm : BitVec 5)
  -- 46_system.md
  | ecall (rs1 rd : RegNum)
  | ebreak (rs1 rd : RegNum)
  | mret (rs2 rs1 rd : RegNum)
  deriving DecidableEq, Repr

end Sys2Proof
end

