-- ==== Sys2Proof/WellFormed.lean ====
section
/-!
DEFINITION. Which terms of `Instr` are instructions: the operand shapes that the fields of 30_encoding.md can hold.
Register numbers, CSR numbers, shift amounts and the 12-bit and 20-bit immediates are exact by their types; what is left
to check is that a branch offset and a JAL offset are "a multiple of 2" (R125, R127: bit 0 is 0).
-/

namespace Sys2Proof

/-- R125: a B immediate has bit 0 equal to 0. -/
def branchOffsetOk (offset : BitVec 13) : Bool := !offset.getLsbD 0

/-- R127: a J immediate has bit 0 equal to 0. -/
def jumpOffsetOk (offset : BitVec 21) : Bool := !offset.getLsbD 0

/-- An instruction that some word of R132 spells. -/
def Instr.wellFormed : Instr → Bool
  | .jal _ offset => jumpOffsetOk offset
  | .beq _ _ offset => branchOffsetOk offset
  | .bne _ _ offset => branchOffsetOk offset
  | .blt _ _ offset => branchOffsetOk offset
  | .bge _ _ offset => branchOffsetOk offset
  | .bltu _ _ offset => branchOffsetOk offset
  | .bgeu _ _ offset => branchOffsetOk offset
  | .lui .. | .auipc .. | .addi .. | .slti .. | .sltiu .. | .xori .. | .ori .. | .andi .. | .slli .. | .srli ..
  | .srai .. | .add .. | .sub .. | .sll .. | .slt .. | .sltu .. | .xor .. | .srl .. | .sra .. | .or .. | .and ..
  | .jalr .. | .lb .. | .lh .. | .lw .. | .lbu .. | .lhu .. | .sb .. | .sh .. | .sw .. | .fence .. | .fenceI ..
  | .mul .. | .mulh .. | .mulhsu .. | .mulhu .. | .div .. | .divu .. | .rem .. | .remu ..
  | .lrW .. | .scW .. | .amoswapW .. | .amoaddW .. | .amoxorW .. | .amoandW .. | .amoorW .. | .amominW ..
  | .amomaxW .. | .amominuW .. | .amomaxuW ..
  | .csrrw .. | .csrrs .. | .csrrc .. | .csrrwi .. | .csrrsi .. | .csrrci .. | .ecall .. | .ebreak .. | .mret .. => true

end Sys2Proof
end

