-- ==== Sys2Proof/Decode.lean ====
section
/-!
DEFINITION. The decoder (30_encoding.md R120 to R135), total on any word and any list of bytes, rejecting by name; after
it the encoder, written from the same layouts (R122), and the opcode table of R132 as data.
-/

namespace Sys2Proof

/-! ### Fields (R121, R128) -/

/-- `opcode = instr[6:0]`. -/
def opcodeField (w : Word) : BitVec 7 := w.extractLsb' 0 7
/-- `funct3 = instr[14:12]`. -/
def funct3Field (w : Word) : BitVec 3 := w.extractLsb' 12 3
/-- `funct7 = instr[31:25]`. -/
def funct7Field (w : Word) : BitVec 7 := w.extractLsb' 25 7
/-- `funct5 = instr[31:27]`, the upper five bits of `funct7` in the R-amo layout. -/
def funct5Field (w : Word) : BitVec 5 := w.extractLsb' 27 5
/-- `rd = instr[11:7]`. -/
def rdField (w : Word) : RegNum := (w.extractLsb' 7 5).toFin
/-- `rs1 = instr[19:15]`. -/
def rs1Field (w : Word) : RegNum := (w.extractLsb' 15 5).toFin
/-- `rs2 = instr[24:20]`. -/
def rs2Field (w : Word) : RegNum := (w.extractLsb' 20 5).toFin
/-- `shamt = instr[24:20]`. -/
def shamtField (w : Word) : BitVec 5 := w.extractLsb' 20 5
/-- `uimm = instr[19:15]`. -/
def uimmField (w : Word) : BitVec 5 := w.extractLsb' 15 5
/-- `csr = instr[31:20]`, and `imm12 = instr[31:20]` of the ECALL record. -/
def csrField (w : Word) : CsrNum := w.extractLsb' 20 12
/-- `aq = instr[26]`. -/
def aqField (w : Word) : Bool := w.getLsbD 26
/-- `rl = instr[25]`. -/
def rlField (w : Word) : Bool := w.getLsbD 25
/-- `fm`, `pred`, `succ` of FENCE: `instr[31:28]`, `instr[27:24]`, `instr[23:20]`. -/
def fmField (w : Word) : BitVec 4 := w.extractLsb' 28 4
/-- See `fmField`. -/
def predField (w : Word) : BitVec 4 := w.extractLsb' 24 4
/-- See `fmField`. -/
def succField (w : Word) : BitVec 4 := w.extractLsb' 20 4

/-! ### Immediates at their natural width (R123 to R127) -/

/-- R123: `instr[31:20]`. -/
def immIField (w : Word) : BitVec 12 := w.extractLsb' 20 12
/-- R124: `instr[31:25] ‖ instr[11:7]`. -/
def immSField (w : Word) : BitVec 12 := w.extractLsb' 25 7 ++ w.extractLsb' 7 5
/-- R125: `instr[31] ‖ instr[7] ‖ instr[30:25] ‖ instr[11:8] ‖ 0`. -/
def immBField (w : Word) : BitVec 13 :=
  w.extractLsb' 31 1 ++ w.extractLsb' 7 1 ++ w.extractLsb' 25 6 ++ w.extractLsb' 8 4 ++ 0#1
/-- R126: `instr[31:12]`. -/
def immUField (w : Word) : BitVec 20 := w.extractLsb' 12 20
/-- R127: `instr[31] ‖ instr[19:12] ‖ instr[20] ‖ instr[30:21] ‖ 0`. -/
def immJField (w : Word) : BitVec 21 :=
  w.extractLsb' 31 1 ++ w.extractLsb' 12 8 ++ w.extractLsb' 20 1 ++ w.extractLsb' 21 10 ++ 0#1

/-! ### The decoder (R129 to R133) -/

/-- LOAD, `opcode = 0x03`: selected by `funct3`. -/
def decodeLoad (w : Word) : Option Instr :=
  match funct3Field w with
  | 0#3 => some (.lb (rdField w) (rs1Field w) (immIField w))
  | 1#3 => some (.lh (rdField w) (rs1Field w) (immIField w))
  | 2#3 => some (.lw (rdField w) (rs1Field w) (immIField w))
  | 4#3 => some (.lbu (rdField w) (rs1Field w) (immIField w))
  | 5#3 => some (.lhu (rdField w) (rs1Field w) (immIField w))
  | _ => none

/-- MISC-MEM, `opcode = 0x0F`: selected by `funct3`; every other field ignored (R209, R210). -/
def decodeMiscMem (w : Word) : Option Instr :=
  match funct3Field w with
  | 0#3 => some (.fence (fmField w) (predField w) (succField w) (rs1Field w) (rdField w))
  | 1#3 => some (.fenceI (immIField w) (rs1Field w) (rdField w))
  | _ => none

/-- OP-IMM, `opcode = 0x13`: selected by `funct3`, and by `funct7` for the shifts. -/
def decodeOpImm (w : Word) : Option Instr :=
  match funct3Field w with
  | 0#3 => some (.addi (rdField w) (rs1Field w) (immIField w))
  | 1#3 => if funct7Field w = 0x00#7 then some (.slli (rdField w) (rs1Field w) (shamtField w)) else none
  | 2#3 => some (.slti (rdField w) (rs1Field w) (immIField w))
  | 3#3 => some (.sltiu (rdField w) (rs1Field w) (immIField w))
  | 4#3 => some (.xori (rdField w) (rs1Field w) (immIField w))
  | 5#3 =>
    if funct7Field w = 0x00#7 then some (.srli (rdField w) (rs1Field w) (shamtField w))
    else if funct7Field w = 0x20#7 then some (.srai (rdField w) (rs1Field w) (shamtField w))
    else none
  | 6#3 => some (.ori (rdField w) (rs1Field w) (immIField w))
  | _ => some (.andi (rdField w) (rs1Field w) (immIField w))

/-- STORE, `opcode = 0x23`: selected by `funct3`. -/
def decodeStore (w : Word) : Option Instr :=
  match funct3Field w with
  | 0#3 => some (.sb (rs2Field w) (rs1Field w) (immSField w))
  | 1#3 => some (.sh (rs2Field w) (rs1Field w) (immSField w))
  | 2#3 => some (.sw (rs2Field w) (rs1Field w) (immSField w))
  | _ => none

/-- AMO, `opcode = 0x2F`: `funct3 = 2` and `funct7[6:2]`; `aq` and `rl` select nothing (R129, R240). -/
def decodeAmo (w : Word) : Option Instr :=
  if funct3Field w = 2#3 then
    match funct5Field w with
    | 0b00010#5 => some (.lrW (rdField w) (rs1Field w) (rs2Field w) (aqField w) (rlField w))
    | 0b00011#5 => some (.scW (rdField w) (rs1Field w) (rs2Field w) (aqField w) (rlField w))
    | 0b00001#5 => some (.amoswapW (rdField w) (rs1Field w) (rs2Field w) (aqField w) (rlField w))
    | 0b00000#5 => some (.amoaddW (rdField w) (rs1Field w) (rs2Field w) (aqField w) (rlField w))
    | 0b00100#5 => some (.amoxorW (rdField w) (rs1Field w) (rs2Field w) (aqField w) (rlField w))
    | 0b01100#5 => some (.amoandW (rdField w) (rs1Field w) (rs2Field w) (aqField w) (rlField w))
    | 0b01000#5 => some (.amoorW (rdField w) (rs1Field w) (rs2Field w) (aqField w) (rlField w))
    | 0b10000#5 => some (.amominW (rdField w) (rs1Field w) (rs2Field w) (aqField w) (rlField w))
    | 0b10100#5 => some (.amomaxW (rdField w) (rs1Field w) (rs2Field w) (aqField w) (rlField w))
    | 0b11000#5 => some (.amominuW (rdField w) (rs1Field w) (rs2Field w) (aqField w) (rlField w))
    | 0b11100#5 => some (.amomaxuW (rdField w) (rs1Field w) (rs2Field w) (aqField w) (rlField w))
    | _ => none
  else none

/-- OP with `funct7 = 0x00`. -/
def decodeOpBase (w : Word) : Instr :=
  match funct3Field w with
  | 0#3 => .add (rdField w) (rs1Field w) (rs2Field w)
  | 1#3 => .sll (rdField w) (rs1Field w) (rs2Field w)
  | 2#3 => .slt (rdField w) (rs1Field w) (rs2Field w)
  | 3#3 => .sltu (rdField w) (rs1Field w) (rs2Field w)
  | 4#3 => .xor (rdField w) (rs1Field w) (rs2Field w)
  | 5#3 => .srl (rdField w) (rs1Field w) (rs2Field w)
  | 6#3 => .or (rdField w) (rs1Field w) (rs2Field w)
  | _ => .and (rdField w) (rs1Field w) (rs2Field w)

/-- OP with `funct7 = 0x01`: the M extension, in the order of R220. -/
def decodeOpM (w : Word) : Instr :=
  match funct3Field w with
  | 0#3 => .mul (rdField w) (rs1Field w) (rs2Field w)
  | 1#3 => .mulh (rdField w) (rs1Field w) (rs2Field w)
  | 2#3 => .mulhsu (rdField w) (rs1Field w) (rs2Field w)
  | 3#3 => .mulhu (rdField w) (rs1Field w) (rs2Field w)
  | 4#3 => .div (rdField w) (rs1Field w) (rs2Field w)
  | 5#3 => .divu (rdField w) (rs1Field w) (rs2Field w)
  | 6#3 => .rem (rdField w) (rs1Field w) (rs2Field w)
  | _ => .remu (rdField w) (rs1Field w) (rs2Field w)

/-- OP with `funct7 = 0x20`: SUB and SRA only. -/
def decodeOpAlt (w : Word) : Option Instr :=
  match funct3Field w with
  | 0#3 => some (.sub (rdField w) (rs1Field w) (rs2Field w))
  | 5#3 => some (.sra (rdField w) (rs1Field w) (rs2Field w))
  | _ => none

/-- OP, `opcode = 0x33`: `funct3` and `funct7`. -/
def decodeOp (w : Word) : Option Instr :=
  match funct7Field w with
  | 0x00#7 => some (decodeOpBase w)
  | 0x01#7 => some (decodeOpM w)
  | 0x20#7 => decodeOpAlt w
  | _ => none

/-- BRANCH, `opcode = 0x63`: selected by `funct3`. -/
def decodeBranch (w : Word) : Option Instr :=
  match funct3Field w with
  | 0#3 => some (.beq (rs1Field w) (rs2Field w) (immBField w))
  | 1#3 => some (.bne (rs1Field w) (rs2Field w) (immBField w))
  | 4#3 => some (.blt (rs1Field w) (rs2Field w) (immBField w))
  | 5#3 => some (.bge (rs1Field w) (rs2Field w) (immBField w))
  | 6#3 => some (.bltu (rs1Field w) (rs2Field w) (immBField w))
  | 7#3 => some (.bgeu (rs1Field w) (rs2Field w) (immBField w))
  | _ => none

/-- SYSTEM with `funct3 = 0`: the ECALL record (`funct7 = 0x00`, refined by `imm12`, R280) and MRET (`funct7 = 0x18`).
The ECALL record with `imm12` in 2..31 is illegal (R135, R280); the exception is that of a decoder miss. -/
def decodeSystem0 (w : Word) : Option Instr :=
  if csrField w = 0x000#12 then some (.ecall (rs1Field w) (rdField w))
  else if csrField w = 0x001#12 then some (.ebreak (rs1Field w) (rdField w))
  else if funct7Field w = 0x18#7 then some (.mret (rs2Field w) (rs1Field w) (rdField w))
  else none

/-- SYSTEM, `opcode = 0x73`. -/
def decodeSystem (w : Word) : Option Instr :=
  match funct3Field w with
  | 0#3 => decodeSystem0 w
  | 1#3 => some (.csrrw (rdField w) (csrField w) (rs1Field w))
  | 2#3 => some (.csrrs (rdField w) (csrField w) (rs1Field w))
  | 3#3 => some (.csrrc (rdField w) (csrField w) (rs1Field w))
  | 5#3 => some (.csrrwi (rdField w) (csrField w) (uimmField w))
  | 6#3 => some (.csrrsi (rdField w) (csrField w) (uimmField w))
  | 7#3 => some (.csrrci (rdField w) (csrField w) (uimmField w))
  | _ => none

/-- R129: the pure function from an instruction word to an instruction, or a miss (`UnknownInstruction`). -/
def decodeWord (w : Word) : Option Instr :=
  match opcodeField w with
  | 0x03#7 => decodeLoad w
  | 0x0F#7 => decodeMiscMem w
  | 0x13#7 => decodeOpImm w
  | 0x17#7 => some (.auipc (rdField w) (immUField w))
  | 0x23#7 => decodeStore w
  | 0x2F#7 => decodeAmo w
  | 0x33#7 => decodeOp w
  | 0x37#7 => some (.lui (rdField w) (immUField w))
  | 0x63#7 => decodeBranch w
  | 0x67#7 => if funct3Field w = 0#3 then some (.jalr (rdField w) (rs1Field w) (immIField w)) else none
  | 0x6F#7 => some (.jal (rdField w) (immJField w))
  | 0x73#7 => decodeSystem w
  | _ => none

/-- Why bytes are no instruction. -/
inductive DecodeReject where
  /-- Fewer than the four bytes of an instruction word (R120). -/
  | truncated
  /-- The word matches no row of R132: D0's `UnknownInstruction` (R129, R133). -/
  | unknownInstruction (w : Word)
  deriving DecidableEq, Repr

/-- What the decoder finds at the head of a list of bytes. -/
inductive Decoded where
  /-- An instruction, and the bytes after it. -/
  | instr (i : Instr) (rest : List Byte)
  | reject (why : DecodeReject)
  deriving DecidableEq, Repr

/-- R83, R120: an instruction word is little-endian, the byte at the lowest address first. -/
def wordOfBytes (b0 b1 b2 b3 : Byte) : Word := b3 ++ b2 ++ b1 ++ b0

/-- The decoder on bytes: one 32-bit word, the lowest address first. -/
def decode : List Byte → Decoded
  | b0 :: b1 :: b2 :: b3 :: rest =>
    match decodeWord (wordOfBytes b0 b1 b2 b3) with
    | some i => .instr i rest
    | none => .reject (.unknownInstruction (wordOfBytes b0 b1 b2 b3))
  | _ => .reject .truncated

/-- The bytes of a word as the hardware stores it, the lowest address first (R83). -/
def bytesOfWord (w : Word) : List Byte :=
  [w.extractLsb' 0 8, w.extractLsb' 8 8, w.extractLsb' 16 8, w.extractLsb' 24 8]

/-- The word whose bits are `w`, of which the table gives `nbits`; every bit above is 0. -/
def tableWord (nbits w : Nat) : Word := BitVec.ofNat 32 (w % 2 ^ nbits)

/-- The instruction the decoder reads from a word of the opcode table. -/
def decodeTableWord (nbits w : Nat) : Option Instr :=
  match decode (bytesOfWord (tableWord nbits w)) with
  | .instr i _ => some i
  | .reject _ => none

/-! ### The encoder (R122) -/

/-- A register number as its 5-bit field. -/
def regBits (r : RegNum) : BitVec 5 := BitVec.ofFin r
/-- A flag as its 1-bit field. -/
def flagBit (b : Bool) : BitVec 1 := BitVec.ofBool b

/-- R format: `funct7 ‖ rs2 ‖ rs1 ‖ funct3 ‖ rd ‖ opcode`. -/
def encR (funct7 : BitVec 7) (rs2 rs1 : RegNum) (funct3 : BitVec 3) (rd : RegNum) (opcode : BitVec 7) : Word :=
  funct7 ++ regBits rs2 ++ regBits rs1 ++ funct3 ++ regBits rd ++ opcode
/-- I format: `imm[11:0] ‖ rs1 ‖ funct3 ‖ rd ‖ opcode`. -/
def encI (imm : BitVec 12) (rs1 : RegNum) (funct3 : BitVec 3) (rd : RegNum) (opcode : BitVec 7) : Word :=
  imm ++ regBits rs1 ++ funct3 ++ regBits rd ++ opcode
/-- I-shift layout: `funct7 ‖ shamt ‖ rs1 ‖ funct3 ‖ rd ‖ opcode`. -/
def encShift (funct7 : BitVec 7) (shamt : BitVec 5) (rs1 : RegNum) (funct3 : BitVec 3) (rd : RegNum) : Word :=
  funct7 ++ shamt ++ regBits rs1 ++ funct3 ++ regBits rd ++ 0x13#7
/-- S format: `imm[11:5] ‖ rs2 ‖ rs1 ‖ funct3 ‖ imm[4:0] ‖ opcode`. -/
def encS (imm : BitVec 12) (rs2 rs1 : RegNum) (funct3 : BitVec 3) : Word :=
  imm.extractLsb' 5 7 ++ regBits rs2 ++ regBits rs1 ++ funct3 ++ imm.extractLsb' 0 5 ++ 0x23#7
/-- B format: `imm[12] ‖ imm[10:5] ‖ rs2 ‖ rs1 ‖ funct3 ‖ imm[4:1] ‖ imm[11] ‖ opcode`. -/
def encB (imm : BitVec 13) (rs2 rs1 : RegNum) (funct3 : BitVec 3) : Word :=
  imm.extractLsb' 12 1 ++ imm.extractLsb' 5 6 ++ regBits rs2 ++ regBits rs1 ++ funct3 ++ imm.extractLsb' 1 4
    ++ imm.extractLsb' 11 1 ++ 0x63#7
/-- U format: `imm[31:12] ‖ rd ‖ opcode`. -/
def encU (imm : BitVec 20) (rd : RegNum) (opcode : BitVec 7) : Word := imm ++ regBits rd ++ opcode
/-- J format: `imm[20] ‖ imm[10:1] ‖ imm[11] ‖ imm[19:12] ‖ rd ‖ opcode`. -/
def encJ (imm : BitVec 21) (rd : RegNum) : Word :=
  imm.extractLsb' 20 1 ++ imm.extractLsb' 1 10 ++ imm.extractLsb' 11 1 ++ imm.extractLsb' 12 8 ++ regBits rd ++ 0x6F#7
/-- R-amo layout: `funct5 ‖ aq ‖ rl ‖ rs2 ‖ rs1 ‖ 2 ‖ rd ‖ 0x2F`. -/
def encAmo (funct5 : BitVec 5) (aq rl : Bool) (rs2 rs1 rd : RegNum) : Word :=
  funct5 ++ flagBit aq ++ flagBit rl ++ regBits rs2 ++ regBits rs1 ++ 2#3 ++ regBits rd ++ 0x2F#7
/-- I-csr layout with a register source. -/
def encCsr (csr : CsrNum) (rs1 : RegNum) (funct3 : BitVec 3) (rd : RegNum) : Word := encI csr rs1 funct3 rd 0x73#7
/-- I-csr layout with the 5-bit immediate in the `rs1` field. -/
def encCsrImm (csr : CsrNum) (uimm : BitVec 5) (funct3 : BitVec 3) (rd : RegNum) : Word :=
  csr ++ uimm ++ funct3 ++ regBits rd ++ 0x73#7

/-- The word of an instruction. -/
def encode : Instr → Word
  | .lui rd imm => encU imm rd 0x37#7
  | .auipc rd imm => encU imm rd 0x17#7
  | .addi rd rs1 imm => encI imm rs1 0#3 rd 0x13#7
  | .slti rd rs1 imm => encI imm rs1 2#3 rd 0x13#7
  | .sltiu rd rs1 imm => encI imm rs1 3#3 rd 0x13#7
  | .xori rd rs1 imm => encI imm rs1 4#3 rd 0x13#7
  | .ori rd rs1 imm => encI imm rs1 6#3 rd 0x13#7
  | .andi rd rs1 imm => encI imm rs1 7#3 rd 0x13#7
  | .slli rd rs1 shamt => encShift 0x00#7 shamt rs1 1#3 rd
  | .srli rd rs1 shamt => encShift 0x00#7 shamt rs1 5#3 rd
  | .srai rd rs1 shamt => encShift 0x20#7 shamt rs1 5#3 rd
  | .add rd rs1 rs2 => encR 0x00#7 rs2 rs1 0#3 rd 0x33#7
  | .sub rd rs1 rs2 => encR 0x20#7 rs2 rs1 0#3 rd 0x33#7
  | .sll rd rs1 rs2 => encR 0x00#7 rs2 rs1 1#3 rd 0x33#7
  | .slt rd rs1 rs2 => encR 0x00#7 rs2 rs1 2#3 rd 0x33#7
  | .sltu rd rs1 rs2 => encR 0x00#7 rs2 rs1 3#3 rd 0x33#7
  | .xor rd rs1 rs2 => encR 0x00#7 rs2 rs1 4#3 rd 0x33#7
  | .srl rd rs1 rs2 => encR 0x00#7 rs2 rs1 5#3 rd 0x33#7
  | .sra rd rs1 rs2 => encR 0x20#7 rs2 rs1 5#3 rd 0x33#7
  | .or rd rs1 rs2 => encR 0x00#7 rs2 rs1 6#3 rd 0x33#7
  | .and rd rs1 rs2 => encR 0x00#7 rs2 rs1 7#3 rd 0x33#7
  | .jal rd offset => encJ offset rd
  | .jalr rd rs1 imm => encI imm rs1 0#3 rd 0x67#7
  | .beq rs1 rs2 offset => encB offset rs2 rs1 0#3
  | .bne rs1 rs2 offset => encB offset rs2 rs1 1#3
  | .blt rs1 rs2 offset => encB offset rs2 rs1 4#3
  | .bge rs1 rs2 offset => encB offset rs2 rs1 5#3
  | .bltu rs1 rs2 offset => encB offset rs2 rs1 6#3
  | .bgeu rs1 rs2 offset => encB offset rs2 rs1 7#3
  | .lb rd rs1 imm => encI imm rs1 0#3 rd 0x03#7
  | .lh rd rs1 imm => encI imm rs1 1#3 rd 0x03#7
  | .lw rd rs1 imm => encI imm rs1 2#3 rd 0x03#7
  | .lbu rd rs1 imm => encI imm rs1 4#3 rd 0x03#7
  | .lhu rd rs1 imm => encI imm rs1 5#3 rd 0x03#7
  | .sb rs2 rs1 imm => encS imm rs2 rs1 0#3
  | .sh rs2 rs1 imm => encS imm rs2 rs1 1#3
  | .sw rs2 rs1 imm => encS imm rs2 rs1 2#3
  | .fence fm pred succ rs1 rd => fm ++ pred ++ succ ++ regBits rs1 ++ 0#3 ++ regBits rd ++ 0x0F#7
  | .fenceI imm rs1 rd => encI imm rs1 1#3 rd 0x0F#7
  | .mul rd rs1 rs2 => encR 0x01#7 rs2 rs1 0#3 rd 0x33#7
  | .mulh rd rs1 rs2 => encR 0x01#7 rs2 rs1 1#3 rd 0x33#7
  | .mulhsu rd rs1 rs2 => encR 0x01#7 rs2 rs1 2#3 rd 0x33#7
  | .mulhu rd rs1 rs2 => encR 0x01#7 rs2 rs1 3#3 rd 0x33#7
  | .div rd rs1 rs2 => encR 0x01#7 rs2 rs1 4#3 rd 0x33#7
  | .divu rd rs1 rs2 => encR 0x01#7 rs2 rs1 5#3 rd 0x33#7
  | .rem rd rs1 rs2 => encR 0x01#7 rs2 rs1 6#3 rd 0x33#7
  | .remu rd rs1 rs2 => encR 0x01#7 rs2 rs1 7#3 rd 0x33#7
  | .lrW rd rs1 rs2 aq rl => encAmo 0b00010#5 aq rl rs2 rs1 rd
  | .scW rd rs1 rs2 aq rl => encAmo 0b00011#5 aq rl rs2 rs1 rd
  | .amoswapW rd rs1 rs2 aq rl => encAmo 0b00001#5 aq rl rs2 rs1 rd
  | .amoaddW rd rs1 rs2 aq rl => encAmo 0b00000#5 aq rl rs2 rs1 rd
  | .amoxorW rd rs1 rs2 aq rl => encAmo 0b00100#5 aq rl rs2 rs1 rd
  | .amoandW rd rs1 rs2 aq rl => encAmo 0b01100#5 aq rl rs2 rs1 rd
  | .amoorW rd rs1 rs2 aq rl => encAmo 0b01000#5 aq rl rs2 rs1 rd
  | .amominW rd rs1 rs2 aq rl => encAmo 0b10000#5 aq rl rs2 rs1 rd
  | .amomaxW rd rs1 rs2 aq rl => encAmo 0b10100#5 aq rl rs2 rs1 rd
  | .amominuW rd rs1 rs2 aq rl => encAmo 0b11000#5 aq rl rs2 rs1 rd
  | .amomaxuW rd rs1 rs2 aq rl => encAmo 0b11100#5 aq rl rs2 rs1 rd
  | .csrrw rd csr rs1 => encCsr csr rs1 1#3 rd
  | .csrrs rd csr rs1 => encCsr csr rs1 2#3 rd
  | .csrrc rd csr rs1 => encCsr csr rs1 3#3 rd
  | .csrrwi rd csr uimm => encCsrImm csr uimm 5#3 rd
  | .csrrsi rd csr uimm => encCsrImm csr uimm 6#3 rd
  | .csrrci rd csr uimm => encCsrImm csr uimm 7#3 rd
  | .ecall rs1 rd => encI 0x000#12 rs1 0#3 rd 0x73#7
  | .ebreak rs1 rd => encI 0x001#12 rs1 0#3 rd 0x73#7
  | .mret rs2 rs1 rd => encR 0x18#7 rs2 rs1 0#3 rd 0x73#7

/-! ### The opcode table (R132) -/

/-- One row of R132: a word `w` is the instruction of the row iff `w & mask == match`. -/
structure OpcodeRow where
  mnemonic : String
  pattern : Word
  mask : Word
  deriving DecidableEq, Repr

/-- Whether a word matches a row. -/
def OpcodeRow.matchesWord (r : OpcodeRow) (w : Word) : Bool := w &&& r.mask == r.pattern

/-- RV32I computational rows (40_rv32i_compute.md). -/
def opcodeRowsCompute : List OpcodeRow := [
  ⟨"LUI", 0x00000037#32, 0x0000007F#32⟩,
  ⟨"AUIPC", 0x00000017#32, 0x0000007F#32⟩,
  ⟨"ADDI", 0x00000013#32, 0x0000707F#32⟩,
  ⟨"SLTI", 0x00002013#32, 0x0000707F#32⟩,
  ⟨"SLTIU", 0x00003013#32, 0x0000707F#32⟩,
  ⟨"XORI", 0x00004013#32, 0x0000707F#32⟩,
  ⟨"ORI", 0x00006013#32, 0x0000707F#32⟩,
  ⟨"ANDI", 0x00007013#32, 0x0000707F#32⟩,
  ⟨"SLLI", 0x00001013#32, 0xFE00707F#32⟩,
  ⟨"SRLI", 0x00005013#32, 0xFE00707F#32⟩,
  ⟨"SRAI", 0x40005013#32, 0xFE00707F#32⟩,
  ⟨"ADD", 0x00000033#32, 0xFE00707F#32⟩,
  ⟨"SUB", 0x40000033#32, 0xFE00707F#32⟩,
  ⟨"SLL", 0x00001033#32, 0xFE00707F#32⟩,
  ⟨"SLT", 0x00002033#32, 0xFE00707F#32⟩,
  ⟨"SLTU", 0x00003033#32, 0xFE00707F#32⟩,
  ⟨"XOR", 0x00004033#32, 0xFE00707F#32⟩,
  ⟨"SRL", 0x00005033#32, 0xFE00707F#32⟩,
  ⟨"SRA", 0x40005033#32, 0xFE00707F#32⟩,
  ⟨"OR", 0x00006033#32, 0xFE00707F#32⟩,
  ⟨"AND", 0x00007033#32, 0xFE00707F#32⟩]

/-- RV32I control rows (41_rv32i_control.md). -/
def opcodeRowsControl : List OpcodeRow := [
  ⟨"JAL", 0x0000006F#32, 0x0000007F#32⟩,
  ⟨"JALR", 0x00000067#32, 0x0000707F#32⟩,
  ⟨"BEQ", 0x00000063#32, 0x0000707F#32⟩,
  ⟨"BNE", 0x00001063#32, 0x0000707F#32⟩,
  ⟨"BLT", 0x00004063#32, 0x0000707F#32⟩,
  ⟨"BGE", 0x00005063#32, 0x0000707F#32⟩,
  ⟨"BLTU", 0x00006063#32, 0x0000707F#32⟩,
  ⟨"BGEU", 0x00007063#32, 0x0000707F#32⟩]

/-- RV32I load, store and fence rows (42_rv32i_loadstore_fence.md). -/
def opcodeRowsMemory : List OpcodeRow := [
  ⟨"LB", 0x00000003#32, 0x0000707F#32⟩,
  ⟨"LH", 0x00001003#32, 0x0000707F#32⟩,
  ⟨"LW", 0x00002003#32, 0x0000707F#32⟩,
  ⟨"LBU", 0x00004003#32, 0x0000707F#32⟩,
  ⟨"LHU", 0x00005003#32, 0x0000707F#32⟩,
  ⟨"SB", 0x00000023#32, 0x0000707F#32⟩,
  ⟨"SH", 0x00001023#32, 0x0000707F#32⟩,
  ⟨"SW", 0x00002023#32, 0x0000707F#32⟩,
  ⟨"FENCE", 0x0000000F#32, 0x0000707F#32⟩,
  ⟨"FENCE.I", 0x0000100F#32, 0x0000707F#32⟩]

/-- M extension rows (43_m_muldiv.md). -/
def opcodeRowsMulDiv : List OpcodeRow := [
  ⟨"MUL", 0x02000033#32, 0xFE00707F#32⟩,
  ⟨"MULH", 0x02001033#32, 0xFE00707F#32⟩,
  ⟨"MULHSU", 0x02002033#32, 0xFE00707F#32⟩,
  ⟨"MULHU", 0x02003033#32, 0xFE00707F#32⟩,
  ⟨"DIV", 0x02004033#32, 0xFE00707F#32⟩,
  ⟨"DIVU", 0x02005033#32, 0xFE00707F#32⟩,
  ⟨"REM", 0x02006033#32, 0xFE00707F#32⟩,
  ⟨"REMU", 0x02007033#32, 0xFE00707F#32⟩]

/-- A extension rows (44_a_atomic.md). -/
def opcodeRowsAtomic : List OpcodeRow := [
  ⟨"LR.W", 0x1000202F#32, 0xF800707F#32⟩,
  ⟨"SC.W", 0x1800202F#32, 0xF800707F#32⟩,
  ⟨"AMOSWAP.W", 0x0800202F#32, 0xF800707F#32⟩,
  ⟨"AMOADD.W", 0x0000202F#32, 0xF800707F#32⟩,
  ⟨"AMOXOR.W", 0x2000202F#32, 0xF800707F#32⟩,
  ⟨"AMOAND.W", 0x6000202F#32, 0xF800707F#32⟩,
  ⟨"AMOOR.W", 0x4000202F#32, 0xF800707F#32⟩,
  ⟨"AMOMIN.W", 0x8000202F#32, 0xF800707F#32⟩,
  ⟨"AMOMAX.W", 0xA000202F#32, 0xF800707F#32⟩,
  ⟨"AMOMINU.W", 0xC000202F#32, 0xF800707F#32⟩,
  ⟨"AMOMAXU.W", 0xE000202F#32, 0xF800707F#32⟩]

/-- Zicsr and SYSTEM rows (45_zicsr.md, 46_system.md). -/
def opcodeRowsSystem : List OpcodeRow := [
  ⟨"ECALL", 0x00000073#32, 0xFFF0707F#32⟩,
  ⟨"EBREAK", 0x00100073#32, 0xFFF0707F#32⟩,
  ⟨"MRET", 0x30000073#32, 0xFE00707F#32⟩,
  ⟨"CSRRW", 0x00001073#32, 0x0000707F#32⟩,
  ⟨"CSRRS", 0x00002073#32, 0x0000707F#32⟩,
  ⟨"CSRRC", 0x00003073#32, 0x0000707F#32⟩,
  ⟨"CSRRWI", 0x00005073#32, 0x0000707F#32⟩,
  ⟨"CSRRSI", 0x00006073#32, 0x0000707F#32⟩,
  ⟨"CSRRCI", 0x00007073#32, 0x0000707F#32⟩]

/-- The 67 rows of R132. -/
def opcodeTable : List OpcodeRow :=
  opcodeRowsCompute ++ opcodeRowsControl ++ opcodeRowsMemory ++ opcodeRowsMulDiv ++ opcodeRowsAtomic ++ opcodeRowsSystem

/-- The mnemonic of the row an instruction belongs to, as the table spells it. -/
def Instr.mnemonic : Instr → String
  | .lui .. => "LUI"
  | .auipc .. => "AUIPC"
  | .addi .. => "ADDI"
  | .slti .. => "SLTI"
  | .sltiu .. => "SLTIU"
  | .xori .. => "XORI"
  | .ori .. => "ORI"
  | .andi .. => "ANDI"
  | .slli .. => "SLLI"
  | .srli .. => "SRLI"
  | .srai .. => "SRAI"
  | .add .. => "ADD"
  | .sub .. => "SUB"
  | .sll .. => "SLL"
  | .slt .. => "SLT"
  | .sltu .. => "SLTU"
  | .xor .. => "XOR"
  | .srl .. => "SRL"
  | .sra .. => "SRA"
  | .or .. => "OR"
  | .and .. => "AND"
  | .jal .. => "JAL"
  | .jalr .. => "JALR"
  | .beq .. => "BEQ"
  | .bne .. => "BNE"
  | .blt .. => "BLT"
  | .bge .. => "BGE"
  | .bltu .. => "BLTU"
  | .bgeu .. => "BGEU"
  | .lb .. => "LB"
  | .lh .. => "LH"
  | .lw .. => "LW"
  | .lbu .. => "LBU"
  | .lhu .. => "LHU"
  | .sb .. => "SB"
  | .sh .. => "SH"
  | .sw .. => "SW"
  | .fence .. => "FENCE"
  | .fenceI .. => "FENCE.I"
  | .mul .. => "MUL"
  | .mulh .. => "MULH"
  | .mulhsu .. => "MULHSU"
  | .mulhu .. => "MULHU"
  | .div .. => "DIV"
  | .divu .. => "DIVU"
  | .rem .. => "REM"
  | .remu .. => "REMU"
  | .lrW .. => "LR.W"
  | .scW .. => "SC.W"
  | .amoswapW .. => "AMOSWAP.W"
  | .amoaddW .. => "AMOADD.W"
  | .amoxorW .. => "AMOXOR.W"
  | .amoandW .. => "AMOAND.W"
  | .amoorW .. => "AMOOR.W"
  | .amominW .. => "AMOMIN.W"
  | .amomaxW .. => "AMOMAX.W"
  | .amominuW .. => "AMOMINU.W"
  | .amomaxuW .. => "AMOMAXU.W"
  | .ecall .. => "ECALL"
  | .ebreak .. => "EBREAK"
  | .mret .. => "MRET"
  | .csrrw .. => "CSRRW"
  | .csrrs .. => "CSRRS"
  | .csrrc .. => "CSRRC"
  | .csrrwi .. => "CSRRWI"
  | .csrrsi .. => "CSRRSI"
  | .csrrci .. => "CSRRCI"

end Sys2Proof
end

