-- ==== Sys2Proof/Config.lean ====
section
/-!
DEFINITION. The parameters of the machine (00_scope.md R7): "values fixed at reset, constant afterwards". A value of
`Config` is one choice of them; it is data of the state, so that every statement about a state is a statement about
every choice of the parameters. `RAM_INIT` is the memory the state starts with and `mtime(t)` is the state's clock.
-/

namespace Sys2Proof

/-- `UNMAPPED_MMIO` (R7, R345): what an access to a device address that no device claims does. -/
inductive UnmappedMmio where
  /-- The default: "read 0, write ignored", no exception (R345, D3). -/
  | readZeroWriteIgnored
  /-- The cautious alternative of R345 and U8: the access is refused by name. -/
  | refuse
  deriving DecidableEq, Repr

/-- The parameters of R7. -/
structure Config where
  /-- `PAGE_OFFSET`: the lowest RAM address; everything below it is the MMIO region. -/
  pageOffset : Word
  /-- `mem_size`: the number of RAM bytes. -/
  memSize : Nat
  /-- `DTB_ADDR`: the value placed in `x[11]` at reset. -/
  dtbAddr : Word
  /-- `MTIMECMP_RESET`: the reset value of `mtimecmp`. -/
  mtimecmpReset : Dword
  /-- `IRQ_ENTRY_ENDS_CYCLE`: whether a cycle that takes an interrupt at step 3 ends there. -/
  irqEntryEndsCycle : Bool
  /-- `COUNT_TRAPPED_CYCLES`: whether a cycle that ends in a synchronous exception still advances the counters. -/
  countTrappedCycles : Bool
  /-- `UNMAPPED_MMIO`. -/
  unmappedMmio : UnmappedMmio
  deriving DecidableEq, Repr

namespace Config

/-- `END = PAGE_OFFSET + mem_size` (R80), an integer: it may be `2^32`. -/
def ramEnd (c : Config) : Nat := c.pageOffset.toNat + c.memSize

/-- R7's constraint: `PAGE_OFFSET + mem_size <= 2^32` and `mem_size >= 4` (decision D13). -/
def wf (c : Config) : Bool := decide (c.ramEnd ≤ 2 ^ 32) && decide (4 ≤ c.memSize)

end Config

end Sys2Proof
end

