-- ==== Sys2Proof/Machine/ResetValues.lean ====
section
/-!
DEFINITION. The values of the reset state that are numbers: the CSR file at reset (10_state.md R60), the parameters of
00_scope.md R7 at their defaults, and what an unlisted byte of memory reads as. `State.reset` calls them.
-/

namespace Sys2Proof.Machine

/-- What a byte of RAM that nothing has written reads as in a state whose memory does not list it. The spec leaves RAM at
reset to the parameter `RAM_INIT` (R7, R60, D12) and assumes no value. DESIGN CHOICE, unsafe (log 3): a memory that lists
nothing is the `RAM_INIT` of zeros; any other `RAM_INIT` is a memory that lists its non-zero bytes. -/
def ramUnlisted : Byte := 0x00#8

/-- What a CSR that the file does not list reads as: "All other CSRs zero" (R60, R31). -/
def csrUnlisted : Word := 0x00000000#32

/-- `PAGE_OFFSET`'s default (R7, R80). -/
def defaultPageOffset : Word := 0x80000000#32

/-- `mem_size` of `State.reset`. R7 gives no default (N2). DESIGN CHOICE, unsafe (log 2): the value every vector and
program of 95_test_vectors.md uses. -/
def defaultMemSize : Nat := 0x2000

/-- `DTB_ADDR`'s default: "0 when none" (R7, D39). -/
def defaultDtbAddr : Word := 0x00000000#32

/-- `MTIMECMP_RESET`'s default (R7, D10). -/
def defaultMtimecmpReset : Dword := 0#64

/-- The parameters at the defaults of R7. -/
def defaultConfig : Config where
  pageOffset := defaultPageOffset
  memSize := defaultMemSize
  dtbAddr := defaultDtbAddr
  mtimecmpReset := defaultMtimecmpReset
  irqEntryEndsCycle := false
  countTrappedCycles := false
  unmappedMmio := .readZeroWriteIgnored

/-- The CSR file at reset (R60): `mstatus = 0x00001888`, `misa = 0x40401101`, every other CSR 0 (unlisted). -/
def resetCsrs : List (Nat × Word) := [(0x300, 0x00001888#32), (0x301, 0x40401101#32)]

/-- The general registers at reset (R60, R371): all 0, then `x[10] = 0` and `x[11] = DTB_ADDR`. The zeros of `x[1..9]` and
`x[12..31]` are the spec's decision D9 (log 6). -/
def resetRegs (c : Config) : Vector Word 32 := (Vector.replicate 32 0x00000000#32).set 11 c.dtbAddr

/-- The clock sample that `State.reset` starts from. DESIGN CHOICE, unsafe (log 5): the input's start value is not given
(N23). -/
def resetMtime : Dword := 0#64

end Sys2Proof.Machine
end

