-- ==== Sys2Proof/Machine/State.lean ====
section
/-!
DEFINITION. The state of the machine as plain data: the whole of 10_state.md R20, the clock input (R28) as the list of
its samples, and the parameters (00_scope.md R7). Then the reasons a step can stop, and the state after reset (R60, R371).
-/

namespace Sys2Proof.Machine

/-- The privilege level (R26), "one of {User=0, Supervisor=1, Hypervisor=2, Machine=3}". Only Machine is ever entered. -/
inductive Priv where
  | user
  | supervisor
  | hypervisor
  | machine
  deriving DecidableEq, Repr

/-- Why a machine has halted for good (R29). -/
inductive HaltReason where
  /-- Write of `0x5555` to SYSCON (R346). -/
  | poweroff
  /-- Write of `0x7777` to SYSCON (R346). -/
  | reboot
  /-- Read or fetch at address 0 (R84). -/
  | nullRead
  /-- Trap entry while `mtvec.MODE` is not 0 (R313). -/
  | unhandledTrapVectorMode
  deriving DecidableEq, Repr

/-- `run` (R29). -/
inductive RunState where
  | running
  | halted (reason : HaltReason)
  deriving DecidableEq, Repr

/-- The clock input (R28, R335): the latest sample of `mtime`, and the samples still to come, oldest first. When no sample
is left the input holds its value. The clock is an input of the machine and no instruction writes it (log 4). -/
structure Clock where
  mtime : Dword
  future : List Dword
  deriving DecidableEq, Repr

/-- The state (R20). `mem` lists the bytes of RAM by address and `csrs` the CSR storage by number; both are read through
`Machine/Ops.lean`, an unlisted entry reading as `ramUnlisted` and `csrUnlisted`. `cfg` holds the parameters, constant
after reset (log 1). -/
structure State where
  /-- `x[0..31]` (R21). -/
  regs : Vector Word 32
  /-- `pc` (R24). -/
  pc : Word
  /-- `priv` (R26). -/
  priv : Priv
  /-- `csr[0..4095]` (R31). -/
  csrs : List (Nat × Word)
  /-- `reservation` (R27). -/
  reservation : Bool
  /-- `mtimecmp` (R28). -/
  mtimecmp : Dword
  /-- `ram` (R53). -/
  mem : List Host.Cell
  /-- `run` (R29). -/
  run : RunState
  /-- `uart_out` (R30), the first byte written first. -/
  uartOut : List Byte
  /-- The clock input (R28). -/
  clock : Clock
  /-- The parameters (R7). -/
  cfg : Config
  deriving DecidableEq, Repr

/-- Why the machine stops with a fault. -/
inductive Fault where
  /-- Raised by `step` on a state whose `run` is `halted`: "a halted machine takes no further cycle" (R29). Safe: nothing
  is said about execution after a halt. -/
  | halted (reason : HaltReason)
  deriving DecidableEq, Repr

/-- Why an instruction has no meaning in the model. -/
inductive Refusal where
  /-- Raised by an arm of `exec` whose instruction has no meaning yet; no arm of this model is one. Safe. -/
  | notModelled (mnemonic : String)
  /-- Raised by a bus access to a device address that no row of R86/R87 claims, only when the parameter `UNMAPPED_MMIO` is
  `refuse` (R345, U8). Safe: the default reads 0 and ignores writes. -/
  | unmappedMmio (addr : Word)
  deriving DecidableEq, Repr

/-- The state after reset for one choice of the parameters, of the RAM image `RAM_INIT` and of the clock input (R371). -/
def State.resetWith (c : Config) (ramInit : List Host.Cell) (clock : Clock) : State where
  regs := resetRegs c
  pc := c.pageOffset
  priv := .machine
  csrs := resetCsrs
  reservation := false
  mtimecmp := c.mtimecmpReset
  mem := ramInit
  run := .running
  uartOut := []
  clock := clock
  cfg := c

/-- The machine right after reset, the parameters at R7's defaults, memory with nothing listed, the clock at its start. -/
def State.reset : State := State.resetWith defaultConfig [] { mtime := resetMtime, future := [] }

end Sys2Proof.Machine
end

