-- ==== Sys2Proof/Machine/Flags.lean ====
section
/-!
DEFINITION. The hardware has no condition codes, status flags or predicate registers (10_state.md R55). What other
machines keep as flags is here the comparison that a branch or a set instruction makes (R172, R183 to R188) and the
arithmetic on the bits of `mstatus`, `mie` and `mip` (R35, R37, R38, R313, R284, R320).
-/

namespace Sys2Proof.Machine

/-! ### Comparisons (R172: explicit two's-complement reinterpretation) -/

/-- `signed(a) < signed(b)`. -/
def lessSigned (a b : Word) : Bool := decide (a.toInt < b.toInt)

/-- `a < b`, unsigned. -/
def lessUnsigned (a b : Word) : Bool := decide (a.toNat < b.toNat)

/-- The result of a set instruction: "1 if ... else 0". -/
def boolWord (b : Bool) : Word := if b then 0x00000001#32 else 0x00000000#32

/-! ### Bits of `mstatus`, `mie`, `mip` -/

/-- `priv` as its 2-bit number (R26). -/
def Priv.bits : Priv → BitVec 2
  | .user => 0#2
  | .supervisor => 1#2
  | .hypervisor => 2#2
  | .machine => 3#2

/-- `mstatus.MIE`, bit 3 (R35). -/
def mieBit (mstatus : Word) : Bool := mstatus.getLsbD 3

/-- `mstatus.MPIE`, bit 7 (R35). -/
def mpieBit (mstatus : Word) : Bool := mstatus.getLsbD 7

/-- A word that is bit `n` alone when `b`, else 0. -/
def bitAt (n : Nat) (b : Bool) : Word := if b then 1#32 <<< n else 0#32

/-- What a CSR write stores in `mstatus` (R35): "forces `MPP = 11`; clears TVM, TW, MPRV, SUM, MXR, FS, VS, XS, SD". -/
def mstatusWritten (v : Word) : Word := (v &&& 0x7FC019FF#32) ||| 0x00001800#32

/-- What a CSR write stores in `mie` and `mip` (R37, R38): bits 9, 5 and 1 cleared. -/
def interruptBitsWritten (v : Word) : Word := v &&& 0xFFFFFDDD#32

/-- R313 step 3: `m[12:11] <- priv`, `m[7] <- m[3]`, `m[3] <- 0`; all other bits unchanged. -/
def mstatusOnTrap (p : Priv) (m : Word) : Word :=
  (m &&& 0xFFFFE777#32) ||| (p.bits.setWidth 32 <<< 11) ||| bitAt 7 (mieBit m)

/-- R284: `(m & 0xFFFFFFF7) | 0x00001880 | ((m & 0x80) >> 4)`. -/
def mstatusOnMret (m : Word) : Word := (m &&& 0xFFFFFFF7#32) ||| 0x00001880#32 ||| ((m &&& 0x80#32) >>> 4)

/-- The interrupts of R311 that can be taken. -/
inductive Interrupt where
  /-- MEI, bit 11. -/
  | external
  /-- MSI, bit 3. -/
  | software
  /-- MTI, bit 7. -/
  | timer
  deriving DecidableEq, Repr

/-- The `mcause` of an interrupt (R311): bit 31 set, the code in the low bits. -/
def Interrupt.cause : Interrupt → Word
  | .external => 0x8000000B#32
  | .software => 0x80000003#32
  | .timer => 0x80000007#32

/-- R320: the highest-priority interrupt among the bits pending and enabled, MEI > MSI > MTI. -/
def selectInterrupt (p : Word) : Option Interrupt :=
  if p.getLsbD 11 then some .external
  else if p.getLsbD 3 then some .software
  else if p.getLsbD 7 then some .timer
  else none

end Sys2Proof.Machine
end

