-- ==== Sys2Proof/Machine/Operands.lean ====
section
/-!
DEFINITION. The operand forms: immediates taken to 32 bits (30_encoding.md R123 to R128), the one addressing mode
(42_rv32i_loadstore_fence.md R200), shift amounts (R128, D37), jump and branch targets (R181, R182, R189), the widths of
a bus access (R91) and what a load makes of the value read (R201 to R205).
-/

namespace Sys2Proof.Machine

/-- `immI`, `immS`: sign-extended from 12 bits (R123, R124). -/
def imm12 (imm : BitVec 12) : Word := imm.signExtend 32

/-- `immB`: sign-extended from 13 bits (R125). -/
def imm13 (offset : BitVec 13) : Word := offset.signExtend 32

/-- `immU = instr[31:12] ‖ 0x000` (R126). -/
def immU (imm : BitVec 20) : Word := imm ++ 0x000#12

/-- `immJ`: sign-extended from 21 bits (R127). -/
def imm21 (offset : BitVec 21) : Word := offset.signExtend 32

/-- `zext(uimm)` (R128). -/
def zextUimm (uimm : BitVec 5) : Word := uimm.setWidth 32

/-- The shift amount of a register shift: `x[rs2][4:0]` (R164, D37). -/
def shiftAmount (v : Word) : Nat := v.toNat % 32

/-- The effective address: base register plus sign-extended immediate, wrapping (R200). -/
def effectiveAddress (base : Word) (imm : BitVec 12) : Word := base + imm12 imm

/-- JAL's target: `(pc + immJ) mod 2^32` (R181). -/
def jalTarget (pc : Word) (offset : BitVec 21) : Word := pc + imm21 offset

/-- JALR's target: `((t + immI) mod 2^32) & 0xFFFFFFFE` (R182). -/
def jalrTarget (base : Word) (imm : BitVec 12) : Word := (base + imm12 imm) &&& 0xFFFFFFFE#32

/-- A branch's target: `(pc + immB) mod 2^32` (R189). -/
def branchTarget (pc : Word) (offset : BitVec 13) : Word := pc + imm13 offset

/-- Whether an address is a multiple of 4: `a[1:0] = 0` (R89, R90, R180). -/
def aligned4 (a : Word) : Bool := a.extractLsb' 0 2 == 0#2

/-- The widths of a bus access (R91): 8, 16 and 32 bits. -/
inductive Width where
  | byte
  | half
  | word
  deriving DecidableEq, Repr

/-- The number of bytes. -/
def Width.bytes : Width → Nat
  | .byte => 1
  | .half => 2
  | .word => 4

/-- The low `8n` bits of a value, zero-extended to 32 bits (R86, R87, D4). -/
def Width.truncate : Width → Word → Word
  | .byte, v => v &&& 0x000000FF#32
  | .half, v => v &&& 0x0000FFFF#32
  | .word, v => v

/-- `sext_8` of a value read with one byte (R10, R201). -/
def sext8 (v : Word) : Word := (v.setWidth 8).signExtend 32

/-- `sext_16` of a value read with two bytes (R10, R202). -/
def sext16 (v : Word) : Word := (v.setWidth 16).signExtend 32

/-- `zext_8` (R10, R204). -/
def zext8 (v : Word) : Word := (v.setWidth 8).setWidth 32

/-- `zext_16` (R10, R205). -/
def zext16 (v : Word) : Word := (v.setWidth 16).setWidth 32

end Sys2Proof.Machine
end

