-- ==== Sys2Proof/Machine/Sparse.lean ====
section
/-!
DEFINITION. Sparse tables: a list of (key, value) pairs that holds the entries of a table which differ from what an
unlisted key reads as. Memory (keys are addresses) and the CSR file (keys are CSR numbers) are such tables. The canonical
form (`Sparse.wf`: keys strictly rising, no entry equal to the unlisted value) makes equal tables equal data.
-/

namespace Sys2Proof.Machine.Sparse

/-- What the table reads at a key; `unlisted` where it lists nothing. -/
def get {α : Type} (unlisted : α) : List (Nat × α) → Nat → α
  | [], _ => unlisted
  | (k, v) :: rest, a => if a = k then v else get unlisted rest a

/-- The table without its entry at a key. -/
def erase {α : Type} : List (Nat × α) → Nat → List (Nat × α)
  | [], _ => []
  | (k, v) :: rest, a => if a = k then erase rest a else (k, v) :: erase rest a

/-- The table with an entry put in front of the first greater key. -/
def insert {α : Type} : List (Nat × α) → Nat → α → List (Nat × α)
  | [], a, v => [(a, v)]
  | (k, w) :: rest, a, v => if a < k then (a, v) :: (k, w) :: rest else (k, w) :: insert rest a v

/-- Writing one key: writing the unlisted value removes the entry. -/
def put {α : Type} [DecidableEq α] (unlisted : α) (t : List (Nat × α)) (a : Nat) (v : α) : List (Nat × α) :=
  if v = unlisted then erase t a else insert (erase t a) a v

/-- The canonical form from a least key on. -/
def wfFrom {α : Type} [DecidableEq α] (unlisted : α) : Nat → List (Nat × α) → Bool
  | _, [] => true
  | least, (k, v) :: rest => decide (least ≤ k) && decide (v ≠ unlisted) && wfFrom unlisted (k + 1) rest

/-- The canonical form: keys strictly rising, no entry equal to what an unlisted key reads as. -/
def wf {α : Type} [DecidableEq α] (unlisted : α) (t : List (Nat × α)) : Bool := wfFrom unlisted 0 t

/-- Whether every key of the table lies in `[lo, hi)`. -/
def within {α : Type} (lo hi : Nat) : List (Nat × α) → Bool
  | [] => true
  | (k, _) :: rest => decide (lo ≤ k) && decide (k < hi) && within lo hi rest

end Sys2Proof.Machine.Sparse
end

