-- ==== Sys2Proof/Machine/Ops.lean ====
section
/-!
DEFINITION. The named operations that the meanings share: registers (10_state.md R21, R22), raw CSR storage (R31), RAM
(20_memory.md R53, R83), the clock (R28), taking an exception and the trap entry (60_exceptions.md R309, R312, R313),
interrupts (R320), the trap return's place beside it (46_system.md R284), the counter step (R308) and how a handler ends
(R306).
-/

namespace Sys2Proof.Machine

/-- The canonical form of memory: addresses strictly rising, no entry equal to what an unlisted address reads as. -/
def Memory.wf (m : List Host.Cell) : Bool := Sparse.wf ramUnlisted m

/-! ### Registers -/

namespace State

/-- `x[i]`: `x[0]` reads 0 (R21). -/
def x (s : State) (r : RegNum) : Word := if r = 0 then 0x00000000#32 else s.regs[r.val]

/-- `x[i] <- v`: discarded for `i = 0` (R22). -/
def setX (s : State) (r : RegNum) (v : Word) : State := if r = 0 then s else { s with regs := s.regs.set r.val v }

/-- `pc <- t`. -/
def setPc (s : State) (t : Word) : State := { s with pc := t }

/-- `pc <- pc + 4`, modulo `2^32` (R25). -/
def advancePc (s : State) : State := s.setPc (s.pc + 4#32)

/-! ### Raw CSR storage (R31) -/

/-- `csr[a]`, the raw word. -/
def csr (s : State) (a : Nat) : Word := Sparse.get csrUnlisted s.csrs a

/-- `csr[a] <- v`, raw. -/
def setCsr (s : State) (a : Nat) (v : Word) : State := { s with csrs := Sparse.put csrUnlisted s.csrs a v }

/-! ### RAM -/

/-- The byte of RAM at an address. -/
def byte (s : State) (a : Nat) : Byte := Sparse.get ramUnlisted s.mem a

/-- Writing one byte of RAM. -/
def setByte (s : State) (a : Nat) (v : Byte) : State := { s with mem := Sparse.put ramUnlisted s.mem a v }

/-- Reading `n` consecutive bytes of RAM, little-endian, zero-extended (R83, R84). -/
def ramRead (s : State) (w : Width) (a : Nat) : Word :=
  match w with
  | .byte => (s.byte a).setWidth 32
  | .half => (s.byte (a + 1) ++ s.byte a).setWidth 32
  | .word => s.byte (a + 3) ++ s.byte (a + 2) ++ s.byte (a + 1) ++ s.byte a

/-- Writing the low `n` bytes of a value to consecutive bytes of RAM, little-endian (R83, R85). -/
def ramWrite (s : State) (w : Width) (a : Nat) (v : Word) : State :=
  match w with
  | .byte => s.setByte a (v.extractLsb' 0 8)
  | .half => (s.setByte a (v.extractLsb' 0 8)).setByte (a + 1) (v.extractLsb' 8 8)
  | .word =>
    (((s.setByte a (v.extractLsb' 0 8)).setByte (a + 1) (v.extractLsb' 8 8)).setByte (a + 2) (v.extractLsb' 16 8)).setByte
      (a + 3) (v.extractLsb' 24 8)

/-! ### The other fields -/

/-- `Halt(reason)` (R29). -/
def halt (s : State) (why : HaltReason) : State := { s with run := .halted why }

/-- `reservation <- b` (R27). -/
def setReservation (s : State) (b : Bool) : State := { s with reservation := b }

/-- Appending a byte to `uart_out` (R30, R340). -/
def uartPut (s : State) (b : Byte) : State := { s with uartOut := s.uartOut ++ [b] }

/-- `mtimecmp <- t`. -/
def setMtimecmp (s : State) (t : Dword) : State := { s with mtimecmp := t }

/-- `priv <- p`. -/
def setPriv (s : State) (p : Priv) : State := { s with priv := p }

end State

/-- The later of two clock values: "a later read never returns a smaller value than an earlier one" (R28, D32). -/
def laterOf (a b : Dword) : Dword := if a ≤ b then b else a

/-- One sample of the clock input: the next of the list, held from falling; the input holds its value when the list is
empty. -/
def Clock.sample (c : Clock) : Clock :=
  match c.future with
  | [] => c
  | t :: rest => { mtime := laterOf c.mtime t, future := rest }

/-- Sampling `mtime` at the point of use (R28, R335); `clock.mtime` is then the sample. -/
def State.sampleClock (s : State) : State := { s with clock := s.clock.sample }

/-! ### Exceptions -/

/-- The synchronous exceptions, all of them (R310). -/
inductive Exception where
  | instructionAddressMisaligned
  | illegalInstruction
  | breakpoint
  | loadAccessFault
  | storeAccessFault
  | machineModeEnvCall
  deriving DecidableEq, Repr

/-- The `mcause` of an exception (R310); bit 31 is 0. -/
def Exception.code : Exception → Word
  | .instructionAddressMisaligned => 0#32
  | .illegalInstruction => 2#32
  | .breakpoint => 3#32
  | .loadAccessFault => 5#32
  | .storeAccessFault => 7#32
  | .machineModeEnvCall => 11#32

/-- `mtvec.MODE = 0`, "direct" (R41): a trap can be entered. -/
def State.mtvecDirect (s : State) : Bool := (s.csr 0x305).extractLsb' 0 2 == 0#2

/-- Steps 1 to 4 of the trap entry (R313): `mcause`, `mtval`, `mstatus`, `mepc`, all raw. -/
def trapSave (cause tval : Word) (s : State) : State :=
  (((s.setCsr 0x342 cause).setCsr 0x343 tval).setCsr 0x300 (mstatusOnTrap s.priv (s.csr 0x300))).setCsr 0x341 s.pc

/-- `Trap(cause, tval)` (R313), the same for exceptions and interrupts: what is saved, then `pc <- mtvec`, or the halt
when `mtvec.MODE` is not 0. `priv` stays Machine. -/
def trap (cause tval : Word) (s : State) : State :=
  if s.mtvecDirect then (trapSave cause tval s).setPc (s.csr 0x305)
  else (trapSave cause tval s).halt .unhandledTrapVectorMode

/-- The trap return (R284): `priv <- 3`, `MIE <- MPIE`, `MPIE <- 1`, `MPP <- 0b11`, `pc <- mepc`; raw, no re-check. -/
def trapReturn (s : State) : State :=
  ((s.setPriv .machine).setCsr 0x300 (mstatusOnMret (s.csr 0x300))).setPc (s.csr 0x341)

/-! ### The counter step -/

/-- Step 8 of the cycle (R308): `mcycle` counts, with carry into `mcycleh` on zero; `minstret`, `minstreth` are copies. -/
def counterStep (s : State) : State :=
  let low := s.csr 0xB00 + 1#32
  let high := if low = 0#32 then s.csr 0xB80 + 1#32 else s.csr 0xB80
  (((s.setCsr 0xB00 low).setCsr 0xB80 high).setCsr 0xB02 low).setCsr 0xB82 high

/-! ### Interrupts -/

/-- What `CheckInterrupts()` answers (R320): nothing taken; an interrupt taken; or the halt of a trap entry whose
`mtvec.MODE` is not 0. -/
inductive InterruptCheck where
  | notTaken
  | taken (s : State)
  | halted (s : State)
  deriving DecidableEq, Repr

/-- The interrupt that `CheckInterrupts()` selects (R320): none while `mip = 0`, outside Machine mode or with `MIE = 0`. -/
def pendingInterrupt (s : State) : Option Interrupt :=
  if s.csr 0x344 = 0#32 ∨ s.priv ≠ .machine ∨ mieBit (s.csr 0x300) = false then none
  else selectInterrupt (s.csr 0x344 &&& s.csr 0x304)

/-- `CheckInterrupts()` (R320). -/
def checkInterrupts (s : State) : InterruptCheck :=
  match pendingInterrupt s with
  | none => .notTaken
  | some i => if s.mtvecDirect then .taken (trap i.cause 0#32 s) else .halted (trap i.cause 0#32 s)

/-! ### How an operation ends -/

/-- The end of a bus access, a CSR setter or a handler (R306: a handler "either completes or raises exactly one exception
or halts"). A raise carries no state: the raising instruction has written nothing (R13, R312, D20). -/
inductive Eff (α : Type) where
  | ok (a : α) (s : State)
  | raise (e : Exception) (tval : Word)
  | halt (s : State)
  | refuse (r : Refusal)
  deriving Repr

/-- Going on after an operation that completed. -/
def Eff.andThen {α β : Type} (e : Eff α) (k : α → State → Eff β) : Eff β :=
  match e with
  | .ok a s => k a s
  | .raise x tval => .raise x tval
  | .halt s => .halt s
  | .refuse r => .refuse r

/-- The outcome of the machine. -/
abbrev Out := Host.Outcome State Fault Refusal

/-- `raise E(tval)` and the end of the cycle (R309, R312): the trap entry from the state as it was before the raising
instruction. The counters do not advance unless `COUNT_TRAPPED_CYCLES` (R308, D23); a halting entry completes no cycle. -/
def raiseException (e : Exception) (tval : Word) (s : State) : Out :=
  if s.cfg.countTrappedCycles && s.mtvecDirect then .next (counterStep (trap e.code tval s))
  else .next (trap e.code tval s)

/-- The end of a cycle whose handler completed (R307, R308): `x[0]` is 0 by `setX`, the counters advance. -/
def retire (s : State) : Out := .next (counterStep s)

/-- Steps 6 to 8 of the cycle (R306 to R309) from a handler's end; `s` is the state the handler started from. -/
def finish (s : State) (e : Eff Unit) : Out :=
  match e with
  | .ok _ t => retire t
  | .raise x tval => raiseException x tval s
  | .halt t => .next t
  | .refuse r => .refused r

/-- The end shared by every instruction that writes one register and goes on (R150): `x[rd] <- v`, `pc <- pc + 4`. -/
def writeResult (rd : RegNum) (v : Word) (s : State) : Out := retire ((s.setX rd v).advancePc)

end Sys2Proof.Machine
end

