-- ==== Sys2Proof/Machine/Bus.lean ====
section
/-!
DEFINITION. The memory bus (20_memory.md R80 to R87) and the devices behind it (60_exceptions.md R340 to R346).
-/

namespace Sys2Proof.Machine

/-- The device registers (R86, R87). -/
inductive DeviceReg where
  | uartData
  | uartLsr
  | msip
  | mtimecmpLow
  | mtimecmpHigh
  | mtimeLow
  | mtimeHigh
  | syscon
  deriving DecidableEq, Repr

/-- The device decoder: the exact starting address; the width takes no part (R86, D4). -/
def deviceAt (addr : Word) : Option DeviceReg :=
  if addr = 0x10000000#32 then some .uartData
  else if addr = 0x10000005#32 then some .uartLsr
  else if addr = 0x11000000#32 then some .msip
  else if addr = 0x11004000#32 then some .mtimecmpLow
  else if addr = 0x11004004#32 then some .mtimecmpHigh
  else if addr = 0x1100BFF8#32 then some .mtimeLow
  else if addr = 0x1100BFFC#32 then some .mtimeHigh
  else if addr = 0x11100000#32 then some .syscon
  else none

/-- A read that no row of R86 claims: 0, or the parameter's refusal (R345). -/
def unmappedRead (addr : Word) (s : State) : Eff Word :=
  match s.cfg.unmappedMmio with
  | .readZeroWriteIgnored => .ok 0#32 s
  | .refuse => .refuse (.unmappedMmio addr)

/-- A write that no row of R87 claims: ignored, or the parameter's refusal (R345). -/
def unmappedWrite (addr : Word) (s : State) : Eff Unit :=
  match s.cfg.unmappedMmio with
  | .readZeroWriteIgnored => .ok () s
  | .refuse => .refuse (.unmappedMmio addr)

/-- `DevRead(addr, n)` before truncation (R86). A read of `mtime` samples the clock (R342); no device read changes state.
A SYSCON read is unclaimed (R346: "unclaimed direction"). -/
def devRead (addr : Word) (s : State) : Eff Word :=
  match deviceAt addr with
  | some .uartData => .ok 0#32 s
  | some .uartLsr => .ok 0x60#32 s
  | some .msip => .ok 0#32 s
  | some .mtimecmpLow => .ok (s.mtimecmp.extractLsb' 0 32) s
  | some .mtimecmpHigh => .ok (s.mtimecmp.extractLsb' 32 32) s
  | some .mtimeLow => .ok (s.sampleClock.clock.mtime.extractLsb' 0 32) s.sampleClock
  | some .mtimeHigh => .ok (s.sampleClock.clock.mtime.extractLsb' 32 32) s.sampleClock
  | some .syscon => unmappedRead addr s
  | none => unmappedRead addr s

/-- `MtipClearTest()` (R343): `mip.MTIP` is cleared, raw, when the whole comparator is above `mtime` as sampled here. -/
def mtipClearTest (s : State) : State :=
  if s.sampleClock.clock.mtime < s.sampleClock.mtimecmp then
    s.sampleClock.setCsr 0x344 (s.sampleClock.csr 0x344 &&& 0xFFFFFF7F#32)
  else s.sampleClock

/-- A write of SYSCON (R346). -/
def sysconWrite (v : Word) (s : State) : Eff Unit :=
  if v = 0x5555#32 then .halt (s.halt .poweroff)
  else if v = 0x7777#32 then .halt (s.halt .reboot)
  else .ok () s

/-- `DevWrite(addr, n, v)`, `v` already reduced to `8n` bits and zero-extended (R87). Writes of the LSR and of `mtime` are
unclaimed. -/
def devWrite (addr v : Word) (s : State) : Eff Unit :=
  match deviceAt addr with
  | some .uartData => .ok () (s.uartPut (v.extractLsb' 0 8))
  | some .uartLsr => unmappedWrite addr s
  | some .msip => .ok () s
  | some .mtimecmpLow => .ok () (mtipClearTest (s.setMtimecmp (s.mtimecmp.extractLsb' 32 32 ++ v)))
  | some .mtimecmpHigh => .ok () (mtipClearTest (s.setMtimecmp (v ++ s.mtimecmp.extractLsb' 0 32)))
  | some .mtimeLow => unmappedWrite addr s
  | some .mtimeHigh => unmappedWrite addr s
  | some .syscon => sysconWrite v s
  | none => unmappedWrite addr s

/-- R81: an access of `n` bytes at `addr` faults when `addr + n > END`, as integers. -/
def outOfRange (w : Width) (addr : Word) (s : State) : Bool := decide (s.cfg.ramEnd < addr.toNat + w.bytes)

/-- R82: an access is a RAM access when its starting address is at or above `PAGE_OFFSET`. -/
def inRam (addr : Word) (s : State) : Bool := decide (s.cfg.pageOffset ≤ addr)

/-- `MemRead(addr, n)` (R84): an unsigned `8n`-bit value, the tests in D0's order. -/
def memRead (w : Width) (addr : Word) (s : State) : Eff Word :=
  if outOfRange w addr s then .raise .loadAccessFault addr
  else if addr = 0#32 then .halt (s.halt .nullRead)
  else if inRam addr s then .ok (s.ramRead w addr.toNat) s
  else (devRead addr s).andThen fun v t => .ok (w.truncate v) t

/-- `MemWrite(addr, n, v)` (R85): the low `8n` bits of `v`. -/
def memWrite (w : Width) (addr v : Word) (s : State) : Eff Unit :=
  if outOfRange w addr s then .raise .storeAccessFault addr
  else if inRam addr s then .ok () (s.ramWrite w addr.toNat v)
  else devWrite addr (w.truncate v) s

end Sys2Proof.Machine
end

