-- ==== Sys2Proof/Machine/Cycle.lean ====
section
/-!
DEFINITION. The front of the cycle (60_exceptions.md R300, steps 1 to 5): the alignment test of `pc`, the timer check, the
interrupt evaluation, the fetch and the decode. `Step.lean` calls it and then `exec`.
-/

namespace Sys2Proof.Machine

/-- What steps 1 to 5 end in: an instruction to execute, or the end of the cycle. -/
inductive Front where
  | run (i : Instr) (s : State)
  | ended (o : Out)
  deriving Repr

/-- Step 2 (R302): when `mtime >= mtimecmp`, `mip.MTIP` is set, raw; else `mip` is left alone. -/
def timerCheck (s : State) : State :=
  if s.sampleClock.mtimecmp ≤ s.sampleClock.clock.mtime then
    s.sampleClock.setCsr 0x344 (s.sampleClock.csr 0x344 ||| 0x00000080#32)
  else s.sampleClock

/-- Step 5 (R305): the word fetched is decoded; a miss raises IllegalInstruction with the word in `mtval`. -/
def decodeStep (w : Word) (s : State) : Front :=
  match decode (bytesOfWord w) with
  | .instr i _ => .run i s
  | .reject _ => .ended (raiseException .illegalInstruction w s)

/-- Step 4 (R304): `MemRead(pc, 4)`; any bus fault raises LoadAccessFault with `mtval = pc`. -/
def fetchDecode (s : State) : Front :=
  match memRead .word s.pc s with
  | .ok w t => decodeStep w t
  | .raise e tval => .ended (raiseException e tval s)
  | .halt t => .ended (.next t)
  | .refuse r => .ended (.refused r)

/-- Step 3 (R303): the interrupt evaluation. A cycle that took one goes on to step 4 at the new `pc`, or ends here after
the counter step when `IRQ_ENTRY_ENDS_CYCLE` (D22). -/
def interruptStep (s : State) : Front :=
  match checkInterrupts s with
  | .notTaken => fetchDecode s
  | .taken t => if t.cfg.irqEntryEndsCycle then .ended (retire t) else fetchDecode t
  | .halted t => .ended (.next t)

/-- Steps 1 to 5 (R300): a misaligned `pc` raises before the timer check and the interrupts (R301). -/
def cycleFront (s : State) : Front :=
  if aligned4 s.pc then interruptStep (timerCheck s)
  else .ended (raiseException .instructionAddressMisaligned s.pc s)

/-- Where the next cycle fetches: `pc`, or `mtvec` when it takes an interrupt first. -/
def fetchAddress (s : State) : Word :=
  match checkInterrupts (timerCheck s) with
  | .taken t => t.pc
  | _ => s.pc

end Sys2Proof.Machine
end

