-- ==== Sys2Proof/Machine/Atomic.lean ====
section
/-!
DEFINITION. The A extension (44_a_atomic.md): LR.W, SC.W and the nine AMOs. The address is `x[rs1]`, tested first: a
misaligned one raises InstructionAddressMisaligned (R240, C5). `aq` and `rl` change nothing (R240), so no meaning takes
them.
-/

namespace Sys2Proof.Machine

/-- The alignment test that comes first in all eleven (R240); when it fires nothing else happens. -/
def atomicAt (addr : Word) (s : State) (e : Eff Unit) : Out :=
  finish s (if aligned4 addr then e else .raise .instructionAddressMisaligned addr)

/-- The rule common to the nine AMOs (R243): read, write `op(t, src)`, then `x[rd] <- t`; sources read first (D21). -/
def amo (op : Word → Word → Word) (rd rs1 rs2 : RegNum) (s : State) : Out :=
  atomicAt (s.x rs1) s <|
    (memRead .word (s.x rs1) s).andThen fun t s1 =>
      (memWrite .word (s.x rs1) (op t (s.x rs2)) s1).andThen fun _ s2 => .ok () ((s2.setX rd t).advancePc)

/-- R241: the word is loaded and the reservation set, only when the read succeeded (D31). -/
def execLrW (rd rs1 : RegNum) (s : State) : Out :=
  atomicAt (s.x rs1) s <|
    (memRead .word (s.x rs1) s).andThen fun t s1 => .ok () (((s1.setX rd t).setReservation true).advancePc)

/-- R242: with the reservation held, store, `x[rd] <- 0` and clear it; else `x[rd] <- 1` and no memory access. -/
def execScW (rd rs1 rs2 : RegNum) (s : State) : Out :=
  atomicAt (s.x rs1) s <|
    if s.reservation then
      (memWrite .word (s.x rs1) (s.x rs2) s).andThen fun _ t =>
        .ok () (((t.setX rd 0x00000000#32).setReservation false).advancePc)
    else .ok () ((s.setX rd 0x00000001#32).advancePc)

/-- R249: `t if signed(t) <= signed(src) else src`. -/
def amoMin (t src : Word) : Word := if t.toInt ≤ src.toInt then t else src

/-- R250: `t if signed(t) >= signed(src) else src`. -/
def amoMax (t src : Word) : Word := if src.toInt ≤ t.toInt then t else src

/-- R251: unsigned. -/
def amoMinu (t src : Word) : Word := if t.toNat ≤ src.toNat then t else src

/-- R252: unsigned. -/
def amoMaxu (t src : Word) : Word := if src.toNat ≤ t.toNat then t else src

/-- R244: `op(t, src) = src`. -/
def execAmoswapW (rd rs1 rs2 : RegNum) (s : State) : Out := amo (fun _ src => src) rd rs1 rs2 s

/-- R245: wrapping. -/
def execAmoaddW (rd rs1 rs2 : RegNum) (s : State) : Out := amo (fun t src => t + src) rd rs1 rs2 s

/-- R246. -/
def execAmoxorW (rd rs1 rs2 : RegNum) (s : State) : Out := amo (fun t src => t ^^^ src) rd rs1 rs2 s

/-- R247. -/
def execAmoandW (rd rs1 rs2 : RegNum) (s : State) : Out := amo (fun t src => t &&& src) rd rs1 rs2 s

/-- R248. -/
def execAmoorW (rd rs1 rs2 : RegNum) (s : State) : Out := amo (fun t src => t ||| src) rd rs1 rs2 s

/-- R249. -/
def execAmominW (rd rs1 rs2 : RegNum) (s : State) : Out := amo amoMin rd rs1 rs2 s

/-- R250. -/
def execAmomaxW (rd rs1 rs2 : RegNum) (s : State) : Out := amo amoMax rd rs1 rs2 s

/-- R251. -/
def execAmominuW (rd rs1 rs2 : RegNum) (s : State) : Out := amo amoMinu rd rs1 rs2 s

/-- R252. -/
def execAmomaxuW (rd rs1 rs2 : RegNum) (s : State) : Out := amo amoMaxu rd rs1 rs2 s

end Sys2Proof.Machine
end

