-- ==== Sys2Proof/Machine/Compute.lean ====
section
/-!
DEFINITION. RV32I computational instructions (40_rv32i_compute.md): each computes one word from its operands and ends by
`writeResult` (R150): `x[rd]` written, `pc + 4`, no exception, no memory access.
-/

namespace Sys2Proof.Machine

/-- R151: `x[rd] <- immU`. -/
def execLui (rd : RegNum) (imm : BitVec 20) (s : State) : Out := writeResult rd (immU imm) s

/-- R152: `x[rd] <- (pc + immU) mod 2^32`, `pc` the address of the AUIPC itself. -/
def execAuipc (rd : RegNum) (imm : BitVec 20) (s : State) : Out := writeResult rd (s.pc + immU imm) s

/-- R153: `(x[rs1] + immI) mod 2^32`. -/
def execAddi (rd rs1 : RegNum) (imm : BitVec 12) (s : State) : Out := writeResult rd (s.x rs1 + imm12 imm) s

/-- R154: 1 if `signed(x[rs1]) < signed(immI)`, else 0. -/
def execSlti (rd rs1 : RegNum) (imm : BitVec 12) (s : State) : Out := writeResult rd (boolWord (lessSigned (s.x rs1) (imm12 imm))) s

/-- R155: the immediate sign-extended first, then an unsigned comparison. -/
def execSltiu (rd rs1 : RegNum) (imm : BitVec 12) (s : State) : Out := writeResult rd (boolWord (lessUnsigned (s.x rs1) (imm12 imm))) s

/-- R156. -/
def execXori (rd rs1 : RegNum) (imm : BitVec 12) (s : State) : Out := writeResult rd (s.x rs1 ^^^ imm12 imm) s

/-- R157. -/
def execOri (rd rs1 : RegNum) (imm : BitVec 12) (s : State) : Out := writeResult rd (s.x rs1 ||| imm12 imm) s

/-- R158. -/
def execAndi (rd rs1 : RegNum) (imm : BitVec 12) (s : State) : Out := writeResult rd (s.x rs1 &&& imm12 imm) s

/-- R159. -/
def execSlli (rd rs1 : RegNum) (shamt : BitVec 5) (s : State) : Out := writeResult rd (s.x rs1 <<< shamt.toNat) s

/-- R160: zeros enter from the left. -/
def execSrli (rd rs1 : RegNum) (shamt : BitVec 5) (s : State) : Out := writeResult rd (s.x rs1 >>> shamt.toNat) s

/-- R161: copies of bit 31 enter from the left. -/
def execSrai (rd rs1 : RegNum) (shamt : BitVec 5) (s : State) : Out := writeResult rd ((s.x rs1).sshiftRight shamt.toNat) s

/-- R162: wrapping. -/
def execAdd (rd rs1 rs2 : RegNum) (s : State) : Out := writeResult rd (s.x rs1 + s.x rs2) s

/-- R163: wrapping. -/
def execSub (rd rs1 rs2 : RegNum) (s : State) : Out := writeResult rd (s.x rs1 - s.x rs2) s

/-- R164: by `x[rs2][4:0]`. -/
def execSll (rd rs1 rs2 : RegNum) (s : State) : Out := writeResult rd (s.x rs1 <<< shiftAmount (s.x rs2)) s

/-- R165. -/
def execSlt (rd rs1 rs2 : RegNum) (s : State) : Out := writeResult rd (boolWord (lessSigned (s.x rs1) (s.x rs2))) s

/-- R166. -/
def execSltu (rd rs1 rs2 : RegNum) (s : State) : Out := writeResult rd (boolWord (lessUnsigned (s.x rs1) (s.x rs2))) s

/-- R167. -/
def execXor (rd rs1 rs2 : RegNum) (s : State) : Out := writeResult rd (s.x rs1 ^^^ s.x rs2) s

/-- R168: by `x[rs2][4:0]`. -/
def execSrl (rd rs1 rs2 : RegNum) (s : State) : Out := writeResult rd (s.x rs1 >>> shiftAmount (s.x rs2)) s

/-- R169: by `x[rs2][4:0]`. -/
def execSra (rd rs1 rs2 : RegNum) (s : State) : Out := writeResult rd ((s.x rs1).sshiftRight (shiftAmount (s.x rs2))) s

/-- R170. -/
def execOr (rd rs1 rs2 : RegNum) (s : State) : Out := writeResult rd (s.x rs1 ||| s.x rs2) s

/-- R171. -/
def execAnd (rd rs1 rs2 : RegNum) (s : State) : Out := writeResult rd (s.x rs1 &&& s.x rs2) s

end Sys2Proof.Machine
end

