-- ==== Sys2Proof/Machine/Control.lean ====
section
/-!
DEFINITION. RV32I control transfer (41_rv32i_control.md). A target that is not a multiple of 4 is refused at the
transferring instruction, before anything is written (R180).
-/

namespace Sys2Proof.Machine

/-- R181: the alignment test, then the link `pc + 4` and the jump. -/
def execJal (rd : RegNum) (offset : BitVec 21) (s : State) : Out :=
  if aligned4 (jalTarget s.pc offset) then retire ((s.setX rd (s.pc + 4#32)).setPc (jalTarget s.pc offset))
  else raiseException .instructionAddressMisaligned (jalTarget s.pc offset) s

/-- R182: bit 0 of the target is cleared before the alignment test; `x[rs1]` is read before `rd` is written. -/
def execJalr (rd rs1 : RegNum) (imm : BitVec 12) (s : State) : Out :=
  if aligned4 (jalrTarget (s.x rs1) imm) then retire ((s.setX rd (s.pc + 4#32)).setPc (jalrTarget (s.x rs1) imm))
  else raiseException .instructionAddressMisaligned (jalrTarget (s.x rs1) imm) s

/-- The rule common to the six branches (R189): the target is tested only when the branch is taken (R180, D19). -/
def branch (taken : Bool) (offset : BitVec 13) (s : State) : Out :=
  if taken then
    if aligned4 (branchTarget s.pc offset) then retire (s.setPc (branchTarget s.pc offset))
    else raiseException .instructionAddressMisaligned (branchTarget s.pc offset) s
  else retire s.advancePc

/-- R183. -/
def execBeq (rs1 rs2 : RegNum) (offset : BitVec 13) (s : State) : Out := branch (s.x rs1 == s.x rs2) offset s

/-- R184. -/
def execBne (rs1 rs2 : RegNum) (offset : BitVec 13) (s : State) : Out := branch (s.x rs1 != s.x rs2) offset s

/-- R185. -/
def execBlt (rs1 rs2 : RegNum) (offset : BitVec 13) (s : State) : Out := branch (lessSigned (s.x rs1) (s.x rs2)) offset s

/-- R186. -/
def execBge (rs1 rs2 : RegNum) (offset : BitVec 13) (s : State) : Out := branch (!lessSigned (s.x rs1) (s.x rs2)) offset s

/-- R187. -/
def execBltu (rs1 rs2 : RegNum) (offset : BitVec 13) (s : State) : Out := branch (lessUnsigned (s.x rs1) (s.x rs2)) offset s

/-- R188. -/
def execBgeu (rs1 rs2 : RegNum) (offset : BitVec 13) (s : State) : Out := branch (!lessUnsigned (s.x rs1) (s.x rs2)) offset s

end Sys2Proof.Machine
end

