-- ==== Sys2Proof/Machine/LoadStore.lean ====
section
/-!
DEFINITION. RV32I loads, stores and fences (42_rv32i_loadstore_fence.md). One addressing mode (R200); no alignment is
required (R88). When the bus raises or halts, `rd` is not written and `pc` is not advanced (R200, D20).
-/

namespace Sys2Proof.Machine

/-- A load (R201 to R205): `x[rd] <- extend(MemRead(addr, n))`, `pc + 4`. -/
def load (w : Width) (extend : Word → Word) (rd rs1 : RegNum) (imm : BitVec 12) (s : State) : Out :=
  finish s ((memRead w (effectiveAddress (s.x rs1) imm) s).andThen fun v t => .ok () ((t.setX rd (extend v)).advancePc))

/-- A store (R206 to R208): `MemWrite(addr, n, x[rs2])`, `pc + 4`. -/
def store (w : Width) (rs2 rs1 : RegNum) (imm : BitVec 12) (s : State) : Out :=
  finish s ((memWrite w (effectiveAddress (s.x rs1) imm) (s.x rs2) s).andThen fun _ t => .ok () t.advancePc)

/-- R201: sign-extended byte. -/
def execLb (rd rs1 : RegNum) (imm : BitVec 12) (s : State) : Out := load .byte sext8 rd rs1 imm s

/-- R202: sign-extended halfword. -/
def execLh (rd rs1 : RegNum) (imm : BitVec 12) (s : State) : Out := load .half sext16 rd rs1 imm s

/-- R203. -/
def execLw (rd rs1 : RegNum) (imm : BitVec 12) (s : State) : Out := load .word id rd rs1 imm s

/-- R204: zero-extended byte. -/
def execLbu (rd rs1 : RegNum) (imm : BitVec 12) (s : State) : Out := load .byte zext8 rd rs1 imm s

/-- R205: zero-extended halfword. -/
def execLhu (rd rs1 : RegNum) (imm : BitVec 12) (s : State) : Out := load .half zext16 rd rs1 imm s

/-- R206. -/
def execSb (rs2 rs1 : RegNum) (imm : BitVec 12) (s : State) : Out := store .byte rs2 rs1 imm s

/-- R207. -/
def execSh (rs2 rs1 : RegNum) (imm : BitVec 12) (s : State) : Out := store .half rs2 rs1 imm s

/-- R208. -/
def execSw (rs2 rs1 : RegNum) (imm : BitVec 12) (s : State) : Out := store .word rs2 rs1 imm s

/-- R209: `pc <- pc + 4`; no register is read or written, every field ignored; it orders nothing (R98). -/
def execFence (s : State) : Out := retire s.advancePc

/-- R210: `pc <- pc + 4`; a store is seen by a later fetch without it (R100). -/
def execFenceI (s : State) : Out := retire s.advancePc

end Sys2Proof.Machine
end

