-- ==== Sys2Proof/Machine/MulDiv.lean ====
section
/-!
DEFINITION. The M extension (43_m_muldiv.md R220 to R228): exact integer arithmetic, narrowed at the end; no exception.
-/

namespace Sys2Proof.Machine

/-- `(p mod 2^64)[63:32]` of an exact product (R222 to R224). -/
def highWord (p : Int) : Word := (BitVec.ofInt 64 p).extractLsb' 32 32

/-- R225's quotient: `0xFFFFFFFF` by zero, `0x80000000` on signed overflow, else rounded toward zero. -/
def divSigned (a b : Word) : Word :=
  if b.toInt = 0 then 0xFFFFFFFF#32
  else if a.toInt = -2147483648 ∧ b.toInt = -1 then 0x80000000#32
  else BitVec.ofInt 32 (a.toInt.tdiv b.toInt)

/-- R226's quotient: `0xFFFFFFFF` by zero, else the floor. -/
def divUnsigned (a b : Word) : Word :=
  if b.toNat = 0 then 0xFFFFFFFF#32 else BitVec.ofNat 32 (a.toNat / b.toNat)

/-- R227's remainder: the dividend by zero, 0 on signed overflow, else `a - b * trunc(a / b)`. -/
def remSigned (a b : Word) : Word :=
  if b.toInt = 0 then a
  else if a.toInt = -2147483648 ∧ b.toInt = -1 then 0x00000000#32
  else BitVec.ofInt 32 (a.toInt - b.toInt * a.toInt.tdiv b.toInt)

/-- R228's remainder: the dividend by zero, else `a mod b`. -/
def remUnsigned (a b : Word) : Word :=
  if b.toNat = 0 then a else BitVec.ofNat 32 (a.toNat % b.toNat)

/-- R221: the low 32 bits of the product. -/
def execMul (rd rs1 rs2 : RegNum) (s : State) : Out := writeResult rd (s.x rs1 * s.x rs2) s

/-- R222: both operands signed. -/
def execMulh (rd rs1 rs2 : RegNum) (s : State) : Out := writeResult rd (highWord ((s.x rs1).toInt * (s.x rs2).toInt)) s

/-- R223: `rs1` signed, `rs2` unsigned. -/
def execMulhsu (rd rs1 rs2 : RegNum) (s : State) : Out := writeResult rd (highWord ((s.x rs1).toInt * ((s.x rs2).toNat : Int))) s

/-- R224: both operands unsigned. -/
def execMulhu (rd rs1 rs2 : RegNum) (s : State) : Out := writeResult rd (highWord (((s.x rs1).toNat : Int) * ((s.x rs2).toNat : Int))) s

/-- R225. -/
def execDiv (rd rs1 rs2 : RegNum) (s : State) : Out := writeResult rd (divSigned (s.x rs1) (s.x rs2)) s

/-- R226. -/
def execDivu (rd rs1 rs2 : RegNum) (s : State) : Out := writeResult rd (divUnsigned (s.x rs1) (s.x rs2)) s

/-- R227. -/
def execRem (rd rs1 rs2 : RegNum) (s : State) : Out := writeResult rd (remSigned (s.x rs1) (s.x rs2)) s

/-- R228. -/
def execRemu (rd rs1 rs2 : RegNum) (s : State) : Out := writeResult rd (remUnsigned (s.x rs1) (s.x rs2)) s

end Sys2Proof.Machine
end

