-- ==== Sys2Proof/Machine/System.lean ====
section
/-!
DEFINITION. ECALL, EBREAK and MRET (46_system.md R281, R282, R284). The words of R285 (WFI, SRET, URET, SFENCE.VMA and the
rest) are no instructions: the decoder rejects them and the cycle raises IllegalInstruction.
-/

namespace Sys2Proof.Machine

/-- R281: `raise MachineModeEnvCall(tval = 0)`; `mepc` is the address of the ECALL. -/
def execEcall (s : State) : Out := raiseException .machineModeEnvCall 0#32 s

/-- R282: `raise Breakpoint(tval = 0)`. -/
def execEbreak (s : State) : Out := raiseException .breakpoint 0#32 s

/-- R284: the trap return; it needs no privilege test. -/
def execMret (s : State) : Out := retire (trapReturn s)

end Sys2Proof.Machine
end

