-- ==== Sys2Proof/Machine/Csr.lean ====
section
/-!
DEFINITION. The CSR file's table (10_state.md R32 to R52): for each of the 4096 numbers its minimum privilege, whether it
is writable, its getter and its setter, and the contract the six CSR instructions share (45_zicsr.md R260 to R263, R270).
-/

namespace Sys2Proof.Machine

/-- A read behaviour (R33, R39, R47). -/
inductive CsrGetter where
  /-- The storage word. -/
  | plain
  /-- Always 0 (`mideleg`, R39). -/
  | zero
  /-- The live counter of another number (R47). -/
  | mirror (a : Nat)
  deriving DecidableEq, Repr

/-- A write behaviour (R33, R35, R37, R38, R39). -/
inductive CsrSetter where
  /-- The storage word is written. -/
  | plain
  /-- Nothing changes. -/
  | noOp
  /-- `mstatusWritten` of the value is stored, then interrupts are checked again (`mstatus`, R35). -/
  | mstatus
  /-- `interruptBitsWritten` of the value is stored, then interrupts are checked again (`mie`, `mip`; R37, R38). -/
  | interruptBits
  /-- Nothing is stored; interrupts are checked again (`mideleg`, R39). -/
  | recheckOnly
  deriving DecidableEq, Repr

/-- Minimum privilege of a number: `a[9:8]` (R34, R49). -/
def csrMinPriv (a : CsrNum) : BitVec 2 := a.extractLsb' 8 2

/-- Whether the entry permits writes: false for every number with `a[11:10] = 0b11` (R49, R263; `mvendorid`, `marchid`,
`mhartid` are such numbers). -/
def csrWritable (a : CsrNum) : Bool := a.extractLsb' 10 2 != 0b11#2

/-- The getter of a number (R34, R39, R47). -/
def csrGetter (a : CsrNum) : CsrGetter :=
  if a = 0x303#12 then .zero
  else if a = 0xC00#12 then .mirror 0xB00
  else if a = 0xC02#12 then .mirror 0xB02
  else if a = 0xC80#12 then .mirror 0xB80
  else if a = 0xC82#12 then .mirror 0xB82
  else .plain

/-- `pmpcfg0`-`pmpcfg3` (`0x3A0`-`0x3A3`) and `pmpaddr0`-`pmpaddr15` (`0x3B0`-`0x3BF`) (R48). -/
def isPmp (a : CsrNum) : Bool := a.extractLsb' 2 10 == 0x0E8#10 || a.extractLsb' 4 8 == 0x3B#8

/-- The counters and their user copies (R45, R46, R47). -/
def isCounter (a : CsrNum) : Bool :=
  a == 0xB00#12 || a == 0xB02#12 || a == 0xB80#12 || a == 0xB82#12 ||
  a == 0xC00#12 || a == 0xC02#12 || a == 0xC80#12 || a == 0xC82#12

/-- `mvendorid`, `marchid`, `mhartid` (R40). -/
def isIdentification (a : CsrNum) : Bool := a == 0xF11#12 || a == 0xF12#12 || a == 0xF14#12

/-- The setter of a number (R34 to R49). -/
def csrSetter (a : CsrNum) : CsrSetter :=
  if a = 0x300#12 then .mstatus
  else if a = 0x304#12 then .interruptBits
  else if a = 0x344#12 then .interruptBits
  else if a = 0x303#12 then .recheckOnly
  else if a = 0x301#12 ∨ isPmp a ∨ isCounter a ∨ isIdentification a then .noOp
  else .plain

/-- `CsrGet(a)`: no getter has a side effect (R51). -/
def csrGet (a : CsrNum) (s : State) : Word :=
  match csrGetter a with
  | .plain => s.csr a.toNat
  | .zero => 0#32
  | .mirror b => s.csr b

/-- The re-check at the end of a setter: `CheckInterrupts()` (R320, R321). -/
def recheck (s : State) : Eff Unit :=
  match checkInterrupts s with
  | .notTaken => .ok () s
  | .taken t => .ok () t
  | .halted t => .halt t

/-- `CsrSet(a, v)` (R33, R35 to R49, R271). -/
def csrSet (a : CsrNum) (v : Word) (s : State) : Eff Unit :=
  match csrSetter a with
  | .plain => .ok () (s.setCsr a.toNat v)
  | .noOp => .ok () s
  | .mstatus => recheck (s.setCsr a.toNat (mstatusWritten v))
  | .interruptBits => recheck (s.setCsr a.toNat (interruptBitsWritten v))
  | .recheckOnly => recheck s

/-- Step 4 of R260: the setter runs only when the entry permits writes and a write is requested (R263). -/
def csrWriteStep (a : CsrNum) (new : Word) (requested : Bool) (s : State) : Eff Unit :=
  if csrWritable a && requested then csrSet a new s else .ok () s

/-- The five steps of R260, after the privilege test: read, advance `pc`, write, then `x[rd] <- old`. -/
def csrExchange (rd : RegNum) (a : CsrNum) (new : Word → Word) (requested : Bool) (s : State) : Eff Unit :=
  (csrWriteStep a (new (csrGet a s)) requested s.advancePc).andThen fun _ t => .ok () (t.setX rd (csrGet a s))

/-- The contract of the six CSR instructions (R260, R261). `w` is the instruction word; `new` makes the value to write from
the old one. -/
def csrInstr (w : Word) (rd : RegNum) (a : CsrNum) (new : Word → Word) (requested : Bool) (s : State) : Out :=
  finish s (if s.priv.bits < csrMinPriv a then .raise .illegalInstruction w else csrExchange rd a new requested s)

end Sys2Proof.Machine
end

