-- ==== Sys2Proof/Machine/Zicsr.lean ====
section
/-!
DEFINITION. The six CSR instructions (45_zicsr.md R264 to R269) over the contract of R260. The source is read before `rd`
is written (D21). The instruction word, which a refused access would put in `mtval` (R261), is the encoding of the
instruction itself: a legal word and its instruction determine each other.
-/

namespace Sys2Proof.Machine

/-- R264: writes `x[rs1]`, always. -/
def execCsrrw (rd : RegNum) (csr : CsrNum) (rs1 : RegNum) (s : State) : Out :=
  csrInstr (encode (.csrrw rd csr rs1)) rd csr (fun _ => s.x rs1) (true) s

/-- R265: writes `old | x[rs1]`, requested when the register number is not 0. -/
def execCsrrs (rd : RegNum) (csr : CsrNum) (rs1 : RegNum) (s : State) : Out :=
  csrInstr (encode (.csrrs rd csr rs1)) rd csr (fun old => old ||| s.x rs1) (rs1 != 0) s

/-- R266: writes `old & ~x[rs1]`, requested when the register number is not 0. -/
def execCsrrc (rd : RegNum) (csr : CsrNum) (rs1 : RegNum) (s : State) : Out :=
  csrInstr (encode (.csrrc rd csr rs1)) rd csr (fun old => old &&& ~~~(s.x rs1)) (rs1 != 0) s

/-- R267: writes `zext(uimm)`, always. -/
def execCsrrwi (rd : RegNum) (csr : CsrNum) (uimm : BitVec 5) (s : State) : Out :=
  csrInstr (encode (.csrrwi rd csr uimm)) rd csr (fun _ => zextUimm uimm) (true) s

/-- R268: writes `old | zext(uimm)`, requested when `uimm` is not 0. -/
def execCsrrsi (rd : RegNum) (csr : CsrNum) (uimm : BitVec 5) (s : State) : Out :=
  csrInstr (encode (.csrrsi rd csr uimm)) rd csr (fun old => old ||| zextUimm uimm) (uimm != 0#5) s

/-- R269: writes `old & ~zext(uimm)`, requested when `uimm` is not 0. -/
def execCsrrci (rd : RegNum) (csr : CsrNum) (uimm : BitVec 5) (s : State) : Out :=
  csrInstr (encode (.csrrci rd csr uimm)) rd csr (fun old => old &&& ~~~(zextUimm uimm)) (uimm != 0#5) s

end Sys2Proof.Machine
end

