-- ==== Sys2Proof/Machine/Step.lean ====
section
/-!
DEFINITION. One step of the machine: one cycle (60_exceptions.md R300). A halted machine takes no further cycle (10_state.md
R29).
-/

namespace Sys2Proof.Machine

/-- One cycle. -/
def step (s : State) : Host.Outcome State Fault Refusal :=
  match s.run with
  | .halted why => .fault (.halted why)
  | .running =>
    match cycleFront s with
    | .run i t => exec i t
    | .ended o => o

/-- The state with an instruction word stored where the next cycle fetches (little-endian, R83): the loader's act of
placing a program in RAM (R371, log 13). -/
def State.withFetchWord (s : State) (nbits w : Nat) : State :=
  s.ramWrite .word (fetchAddress s).toNat (tableWord nbits w)

end Sys2Proof.Machine
end

