-- ==== Sys2Proof/Safety.lean ====
section
/-!
DEFINITION. What the statements speak about: where an access goes (20_memory.md R80 to R82), what an instruction changes
and keeps (its frame), what a trap entry does (60_exceptions.md R313), and the invariant that every step keeps.
-/

namespace Sys2Proof.Machine

/-! ### Values -/

/-- `sext_12` by R10: "if bit `w-1` of `imm` is set, OR with `~((1<<w) - 1)`". -/
def signExtended12 (imm : BitVec 12) : Word :=
  if imm.getLsbD 11 then BitVec.ofNat 32 imm.toNat ||| 0xFFFFF000#32 else BitVec.ofNat 32 imm.toNat

/-- The low `8n` bits of a value, `n` the bytes of an access (R86, R87, D4). -/
def lowBytes (w : Width) (v : Nat) : Nat := v % 2 ^ (8 * w.bytes)

/-! ### Where an access goes -/

/-- R81: the access runs past `END`, so it faults. -/
def BeyondEnd (s : State) (w : Width) (addr : Word) : Prop := s.cfg.ramEnd < addr.toNat + w.bytes

/-- R80, R82: the access starts in RAM and ends at or before `END`. -/
def RamAccess (s : State) (w : Width) (addr : Word) : Prop :=
  s.cfg.pageOffset.toNat ≤ addr.toNat ∧ addr.toNat + w.bytes ≤ s.cfg.ramEnd

/-- R80, R82: the access starts below `PAGE_OFFSET` and does not fault: a device access, wherever it ends. -/
def DeviceAccess (s : State) (w : Width) (addr : Word) : Prop :=
  addr.toNat < s.cfg.pageOffset.toNat ∧ addr.toNat + w.bytes ≤ s.cfg.ramEnd

/-- The word of RAM at an address, from its four bytes (R83). -/
def wordAt (s : State) (a : Nat) : Word := wordOfBytes (s.byte a) (s.byte (a + 1)) (s.byte (a + 2)) (s.byte (a + 3))

/-! ### Counters -/

/-- The 64-bit cycle counter `mcycleh ‖ mcycle` (R45). -/
def cycleCount (s : State) : Nat := (s.csr 0xB80).toNat * 2 ^ 32 + (s.csr 0xB00).toNat

/-- `mcycle`, `mcycleh`, `minstret`, `minstreth`: the CSRs the counter step writes (R308). -/
def counterCsrs : List Nat := [0xB00, 0xB80, 0xB02, 0xB82]

/-- The counters of `t` are those of `s` one completed cycle later (R308, R45, R46). -/
structure CountedOnce (s t : State) : Prop where
  cycle : cycleCount t = (cycleCount s + 1) % 2 ^ 64
  instretLow : t.csr 0xB02 = t.csr 0xB00
  instretHigh : t.csr 0xB82 = t.csr 0xB80

/-! ### Frames -/

/-- Every register but those listed reads as before. -/
def RegsKept (except : List RegNum) (s t : State) : Prop := ∀ r, r ∉ except → t.x r = s.x r

/-- Every CSR's storage but that of those listed is as before. -/
def CsrsKept (except : List Nat) (s t : State) : Prop := ∀ a, a ∉ except → t.csr a = s.csr a

/-- Every byte of memory but the `n` bytes from `lo` reads as before. -/
def BytesKept (lo n : Nat) (s t : State) : Prop := ∀ a, ¬ (lo ≤ a ∧ a < lo + n) → t.byte a = s.byte a

/-- All of memory reads as before. -/
def MemoryKept (s t : State) : Prop := ∀ a, t.byte a = s.byte a

/-- The devices and the clock are as before. -/
structure DevicesKept (s t : State) : Prop where
  mtimecmp : t.mtimecmp = s.mtimecmp
  uartOut : t.uartOut = s.uartOut
  clock : t.clock = s.clock

/-- The mode, the run state and the parameters are as before. -/
structure ModeKept (s t : State) : Prop where
  priv : t.priv = s.priv
  run : t.run = s.run
  cfg : t.cfg = s.cfg

/-- The `n` bytes of memory from `lo` hold the low `8n` bits of `v`, the lowest address the least significant byte (R83). -/
def Holds (t : State) (lo n : Nat) (v : Word) : Prop := ∀ k, k < n → t.byte (lo + k) = v.extractLsb' (8 * k) 8

/-- An instruction that wrote `v` to `rd` (nothing when `rd` is `x0`, which reads 0), left `pc` at `target` and the
reservation at `reserved`, and changed nothing else but the counters, which count the cycle. -/
structure CompletesReserving (reserved : Bool) (s t : State) (rd : RegNum) (v target : Word) : Prop where
  result : t.x rd = if rd = 0 then 0#32 else v
  zero : t.x 0 = 0#32
  regs : RegsKept [rd] s t
  pc : t.pc = target
  counted : CountedOnce s t
  csrs : CsrsKept counterCsrs s t
  memory : MemoryKept s t
  reservation : t.reservation = reserved
  devices : DevicesKept s t
  mode : ModeKept s t

/-- The same with the reservation kept: the instructions that write one register. -/
abbrev Completes (s t : State) (rd : RegNum) (v target : Word) : Prop :=
  CompletesReserving s.reservation s t rd v target

/-- An instruction that wrote no register, left `pc` at `target`, and changed nothing else but the counters. -/
structure Advances (s t : State) (target : Word) : Prop where
  regs : RegsKept [] s t
  pc : t.pc = target
  counted : CountedOnce s t
  csrs : CsrsKept counterCsrs s t
  memory : MemoryKept s t
  reservation : t.reservation = s.reservation
  devices : DevicesKept s t
  mode : ModeKept s t

/-- A store that wrote the low `8n` bits of `v` to the `n` bytes of RAM from `lo`, left `pc` at `target`, and changed
nothing else but the counters. -/
structure Stores (s t : State) (lo n : Nat) (v target : Word) : Prop where
  stored : Holds t lo n v
  otherBytes : BytesKept lo n s t
  regs : RegsKept [] s t
  pc : t.pc = target
  counted : CountedOnce s t
  csrs : CsrsKept counterCsrs s t
  reservation : t.reservation = s.reservation
  devices : DevicesKept s t
  mode : ModeKept s t

/-- An atomic that wrote `result` to `rd` and the word `v` to the four bytes of RAM from `lo`, left `pc` at `target` and
the reservation at `reserved`, and changed nothing else but the counters. -/
structure AtomicStores (reserved : Bool) (s t : State) (rd : RegNum) (result : Word) (lo : Nat) (v target : Word) :
    Prop where
  result : t.x rd = if rd = 0 then 0#32 else result
  zero : t.x 0 = 0#32
  regs : RegsKept [rd] s t
  stored : Holds t lo 4 v
  otherBytes : BytesKept lo 4 s t
  pc : t.pc = target
  counted : CountedOnce s t
  csrs : CsrsKept counterCsrs s t
  reservation : t.reservation = reserved
  devices : DevicesKept s t
  mode : ModeKept s t

/-- A CSR instruction that wrote `v` to `rd` and `stored` to the storage of CSR `a`, left `pc` at `target`, and changed
nothing else but the counters. -/
structure CsrWrites (s t : State) (rd : RegNum) (v : Word) (a : Nat) (stored target : Word) : Prop where
  result : t.x rd = if rd = 0 then 0#32 else v
  zero : t.x 0 = 0#32
  regs : RegsKept [rd] s t
  written : t.csr a = stored
  csrs : CsrsKept (a :: counterCsrs) s t
  counted : CountedOnce s t
  pc : t.pc = target
  memory : MemoryKept s t
  reservation : t.reservation = s.reservation
  devices : DevicesKept s t
  mode : ModeKept s t

/-! ### Traps -/

/-- `mtvec.MODE = 0` (R41): the low two bits of `mtvec` are 0. -/
def VectorDirect (s : State) : Prop := (s.csr 0x305).toNat % 4 = 0

/-- `Trap(cause, tval)` from `s` ends in `t` (R313). When the entry halts (`unvectored`), what is said of `t` beside `run` and
`uartOut` rests on the model's choice of what a halted state keeps (log 10). -/
structure TrapEntered (s t : State) (cause tval : Word) : Prop where
  mcause : t.csr 0x342 = cause
  mtval : t.csr 0x343 = tval
  mepc : t.csr 0x341 = s.pc
  mpp : (t.csr 0x300).extractLsb' 11 2 = s.priv.bits
  mpie : (t.csr 0x300).getLsbD 7 = (s.csr 0x300).getLsbD 3
  mie : (t.csr 0x300).getLsbD 3 = false
  mstatusRest : ∀ k, k < 32 → k ≠ 3 → k ≠ 7 → k ≠ 11 → k ≠ 12 → (t.csr 0x300).getLsbD k = (s.csr 0x300).getLsbD k
  vectored : VectorDirect s → t.pc = s.csr 0x305 ∧ t.run = s.run
  unvectored : ¬ VectorDirect s → t.pc = s.pc ∧ t.run = .halted .unhandledTrapVectorMode
  regs : RegsKept [] s t
  csrs : CsrsKept [0x300, 0x341, 0x342, 0x343] s t
  memory : MemoryKept s t
  priv : t.priv = s.priv
  reservation : t.reservation = s.reservation
  devices : DevicesKept s t
  cfg : t.cfg = s.cfg

/-- The end of a cycle that completed (R307, R308): the counters count, nothing else changes. -/
structure CycleEnds (s t : State) : Prop where
  counted : CountedOnce s t
  csrs : CsrsKept counterCsrs s t
  regs : RegsKept [] s t
  pc : t.pc = s.pc
  memory : MemoryKept s t
  reservation : t.reservation = s.reservation
  devices : DevicesKept s t
  mode : ModeKept s t

/-- `raise E(tval)`, `cause` the code of `E`, and the end of the cycle (R309, R312): the trap entry and nothing else, the
counters advancing only under `COUNT_TRAPPED_CYCLES` (R308, D23) and never when the entry halts. -/
def Raises (s t : State) (cause tval : Word) : Prop :=
  ∃ u, TrapEntered s u cause tval ∧
    ((s.cfg.countTrappedCycles = true ∧ VectorDirect s ∧ CycleEnds u t) ∨
     (¬ (s.cfg.countTrappedCycles = true ∧ VectorDirect s) ∧ t = u))

/-- Step 4 of a cycle that begins in `s` fetches at `f.pc` in the state `f` (R300, steps 1 to 3): `pc` is aligned, and either
no interrupt is taken and `f` is the state after the timer check, or one is, the cycle goes on (R303, D22), and `f` is the
state after its trap entry, where `pc` is `mtvec`. -/
def FetchesIn (s f : State) : Prop :=
  s.run = .running ∧ s.pc.toNat % 4 = 0 ∧
    ((pendingInterrupt (timerCheck s) = none ∧ f = timerCheck s) ∨
     (∃ k, pendingInterrupt (timerCheck s) = some k ∧ VectorDirect s ∧ s.cfg.irqEntryEndsCycle = false ∧
       f = trap k.cause 0#32 (timerCheck s)))

/-- The common rule of the branches (R189), of an instruction's meaning, its condition and its offset: not taken, `pc + 4`;
taken, the target, refused when it is not a multiple of 4 (R180). -/
def BranchRule (run : State → Out) (taken : State → Prop) (offset : BitVec 13) : Prop :=
  ∀ (s : State) (target : Word), target = BitVec.ofInt 32 (s.pc.toNat + offset.toInt) →
    (¬ taken s → ∃ t, run s = .next t ∧ Advances s t (s.pc + 4#32)) ∧
    (taken s → target.toNat % 4 = 0 → ∃ t, run s = .next t ∧ Advances s t target) ∧
    (taken s → target.toNat % 4 ≠ 0 → ∃ t, run s = .next t ∧ Raises s t 0#32 target)

/-! ### What an instruction names -/

/-- The register an instruction writes (R150, R181, R182, R201 to R205, R220, R241 to R243, R260). -/
def destination : Instr → Option RegNum
  | .lui rd _ | .auipc rd _ | .addi rd _ _ | .slti rd _ _ | .sltiu rd _ _ | .xori rd _ _ | .ori rd _ _ | .andi rd _ _
  | .slli rd _ _ | .srli rd _ _ | .srai rd _ _ | .add rd _ _ | .sub rd _ _ | .sll rd _ _ | .slt rd _ _ | .sltu rd _ _
  | .xor rd _ _ | .srl rd _ _ | .sra rd _ _ | .or rd _ _ | .and rd _ _ | .jal rd _ | .jalr rd _ _
  | .lb rd _ _ | .lh rd _ _ | .lw rd _ _ | .lbu rd _ _ | .lhu rd _ _
  | .mul rd _ _ | .mulh rd _ _ | .mulhsu rd _ _ | .mulhu rd _ _ | .div rd _ _ | .divu rd _ _ | .rem rd _ _ | .remu rd _ _
  | .lrW rd _ _ _ _ | .scW rd _ _ _ _ | .amoswapW rd _ _ _ _ | .amoaddW rd _ _ _ _ | .amoxorW rd _ _ _ _
  | .amoandW rd _ _ _ _ | .amoorW rd _ _ _ _ | .amominW rd _ _ _ _ | .amomaxW rd _ _ _ _ | .amominuW rd _ _ _ _
  | .amomaxuW rd _ _ _ _
  | .csrrw rd _ _ | .csrrs rd _ _ | .csrrc rd _ _ | .csrrwi rd _ _ | .csrrsi rd _ _ | .csrrci rd _ _ => some rd
  | .beq .. | .bne .. | .blt .. | .bge .. | .bltu .. | .bgeu .. | .sb .. | .sh .. | .sw .. | .fence .. | .fenceI ..
  | .ecall .. | .ebreak .. | .mret .. => none

/-- One of the nine AMOs: its registers and `op(t, src)` (R244 to R252). -/
structure AmoForm where
  rd : RegNum
  rs1 : RegNum
  rs2 : RegNum
  op : Word → Word → Word

/-- The AMO an instruction is. -/
def amoForm : Instr → Option AmoForm
  | .amoswapW rd rs1 rs2 _ _ => some ⟨rd, rs1, rs2, fun _ src => src⟩
  | .amoaddW rd rs1 rs2 _ _ => some ⟨rd, rs1, rs2, fun t src => BitVec.ofNat 32 (t.toNat + src.toNat)⟩
  | .amoxorW rd rs1 rs2 _ _ => some ⟨rd, rs1, rs2, fun t src => t ^^^ src⟩
  | .amoandW rd rs1 rs2 _ _ => some ⟨rd, rs1, rs2, fun t src => t &&& src⟩
  | .amoorW rd rs1 rs2 _ _ => some ⟨rd, rs1, rs2, fun t src => t ||| src⟩
  | .amominW rd rs1 rs2 _ _ => some ⟨rd, rs1, rs2, fun t src => BitVec.ofInt 32 (min t.toInt src.toInt)⟩
  | .amomaxW rd rs1 rs2 _ _ => some ⟨rd, rs1, rs2, fun t src => BitVec.ofInt 32 (max t.toInt src.toInt)⟩
  | .amominuW rd rs1 rs2 _ _ => some ⟨rd, rs1, rs2, fun t src => BitVec.ofNat 32 (min t.toNat src.toNat)⟩
  | .amomaxuW rd rs1 rs2 _ _ => some ⟨rd, rs1, rs2, fun t src => BitVec.ofNat 32 (max t.toNat src.toNat)⟩
  | _ => none

/-- The address of an atomic, `x[rs1]` (R240). -/
def atomicAddress (i : Instr) (s : State) : Option Word :=
  match i with
  | .lrW _ rs1 _ _ _ => some (s.x rs1)
  | .scW _ rs1 _ _ _ => some (s.x rs1)
  | _ => (amoForm i).map fun f => s.x f.rs1

/-- The access an instruction makes with `MemRead` (R91): its width and address. -/
def readAccess (i : Instr) (s : State) : Option (Width × Word) :=
  match i with
  | .lb _ rs1 imm | .lbu _ rs1 imm => some (.byte, effectiveAddress (s.x rs1) imm)
  | .lh _ rs1 imm | .lhu _ rs1 imm => some (.half, effectiveAddress (s.x rs1) imm)
  | .lw _ rs1 imm => some (.word, effectiveAddress (s.x rs1) imm)
  | .lrW _ rs1 _ _ _ => some (.word, s.x rs1)
  | _ => (amoForm i).map fun f => (.word, s.x f.rs1)

/-- The access a store, or an SC.W with the reservation held, makes with `MemWrite` (R91, R242): its width and address. -/
def storeAccess (i : Instr) (s : State) : Option (Width × Word) :=
  match i with
  | .sb _ rs1 imm => some (.byte, effectiveAddress (s.x rs1) imm)
  | .sh _ rs1 imm => some (.half, effectiveAddress (s.x rs1) imm)
  | .sw _ rs1 imm => some (.word, effectiveAddress (s.x rs1) imm)
  | .scW _ rs1 _ _ _ => if s.reservation = true then some (.word, s.x rs1) else none
  | _ => none

/-- The access an instruction makes with `MemWrite`: that of a store, or the second access of an AMO (R243). -/
def writeAccess (i : Instr) (s : State) : Option (Width × Word) :=
  match amoForm i with
  | some f => some (.word, s.x f.rs1)
  | none => storeAccess i s

/-- A CSR instruction in a state: `rd`, the CSR number, the value `new` a write would store, and whether a write is
requested (R263). -/
structure CsrForm where
  rd : RegNum
  number : CsrNum
  new : Word
  requested : Bool

/-- R263's table, for CSRRW, CSRRS, CSRRC, CSRRWI, CSRRSI and CSRRCI. -/
def csrForm (i : Instr) (s : State) : Option CsrForm :=
  match i with
  | .csrrw rd a rs1 => some ⟨rd, a, s.x rs1, true⟩
  | .csrrs rd a rs1 => some ⟨rd, a, csrGet a s ||| s.x rs1, decide (rs1 ≠ 0)⟩
  | .csrrc rd a rs1 => some ⟨rd, a, csrGet a s &&& ~~~(s.x rs1), decide (rs1 ≠ 0)⟩
  | .csrrwi rd a uimm => some ⟨rd, a, BitVec.ofNat 32 uimm.toNat, true⟩
  | .csrrsi rd a uimm => some ⟨rd, a, csrGet a s ||| BitVec.ofNat 32 uimm.toNat, decide (uimm.toNat ≠ 0)⟩
  | .csrrci rd a uimm => some ⟨rd, a, csrGet a s &&& ~~~(BitVec.ofNat 32 uimm.toNat), decide (uimm.toNat ≠ 0)⟩
  | _ => none

/-- The numbers whose storage no CSR instruction changes and whose write re-checks nothing (R271): `misa`, the PMP numbers,
the machine counters, and every number with `a[11:10] = 0b11`. -/
def FixedCsr (a : CsrNum) : Prop :=
  a.toNat = 0x301 ∨ (0x3A0 ≤ a.toNat ∧ a.toNat ≤ 0x3A3) ∨ (0x3B0 ≤ a.toNat ∧ a.toNat ≤ 0x3BF) ∨
    a.toNat ∈ counterCsrs ∨ 0xC00 ≤ a.toNat

/-- `mstatus`, `mideleg`, `mie`, `mip`: the numbers whose write is masked and re-checks the interrupts (R271). -/
def RecheckedCsr (a : CsrNum) : Prop := a.toNat ∈ [0x300, 0x303, 0x304, 0x344]

/-- What the storage of such a number holds after a requested write of `new` (R271). -/
def maskedStore (a : CsrNum) (new : Word) (s : State) : Word :=
  if a.toNat = 0x300 then (new &&& 0x7FC019FF#32) ||| 0x00001800#32
  else if a.toNat = 0x303 then s.csr 0x303
  else new &&& 0xFFFFFDDD#32

/-! ### The invariant of every step -/

/-- What every step keeps and `State.reset` has. -/
structure Inv (s : State) : Prop where
  /-- Memory is in its canonical form. -/
  memoryCanonical : Memory.wf s.mem = true
  /-- Memory lists only RAM bytes, `[PAGE_OFFSET, END)` (R53). -/
  memoryInRam : Sparse.within s.cfg.pageOffset.toNat s.cfg.ramEnd s.mem = true
  /-- The CSR file is in its canonical form. -/
  csrsCanonical : Sparse.wf csrUnlisted s.csrs = true
  /-- The CSR file has 4096 entries (R31). -/
  csrsInRange : Sparse.within 0 4096 s.csrs = true
  /-- "After the cycle returns, `x[0] == 0`" (R22, R307): of the storage itself. -/
  zeroRegister : s.regs[0] = 0#32
  /-- Only Machine mode is used (R26, R330). -/
  machineMode : s.priv = .machine
  /-- `mstatus`: MPP is `0b11`; VS, FS, XS, MPRV, SUM, MXR, TVM, TW, SD are 0 (R35). -/
  mstatusFields : s.csr 0x300 &&& 0x803FFE00#32 = 0x00001800#32
  /-- `misa` is constant (R36). -/
  misaConstant : s.csr 0x301 = 0x40401101#32
  /-- `mideleg` stores 0 (R39). -/
  midelegZero : s.csr 0x303 = 0#32
  /-- SEIE, STIE, SSIE are 0 (R37). -/
  mieFields : s.csr 0x304 &&& 0x00000222#32 = 0#32
  /-- SEIP, STIP, SSIP are 0 (R38). -/
  mipFields : s.csr 0x344 &&& 0x00000222#32 = 0#32
  /-- PMP storage is 0 (R48). -/
  pmpZero : ∀ a : CsrNum, isPmp a = true → s.csr a.toNat = 0#32
  /-- Every number that permits no write stores 0 (R40, R47, R49). -/
  readOnlyZero : ∀ a : CsrNum, csrWritable a = false → s.csr a.toNat = 0#32
  /-- "`minstret` equals `mcycle`" (R46). -/
  instretIsCycle : s.csr 0xB02 = s.csr 0xB00
  /-- `minstreth = mcycleh` (R46). -/
  instrethIsCycleh : s.csr 0xB82 = s.csr 0xB80
  /-- The constraint on the parameters (R7). -/
  parameters : s.cfg.wf = true

/-- What a step may change of the parts that only grow or never change: the parameters (R7), the mode (R26), the UART's
output (R30), the clock (R28). -/
structure Extends (s t : State) : Prop where
  cfg : t.cfg = s.cfg
  mode : s.priv = .machine → t.priv = .machine
  uartOut : ∃ written, t.uartOut = s.uartOut ++ written
  clock : s.clock.mtime ≤ t.clock.mtime

end Sys2Proof.Machine
end

