-- ==== Sys2Proof/Certificates/Slice0/Obligations.lean ====
section
/-!
DEFINITION. The statements for the provers, in the order of spec/: encoding, the cycle, reset, the instruction families,
the devices, the CSR file, traps, and the rules of the whole machine. A docstring says which rule a statement formalises
and what of it is the spec's own decision (D<n>) or the model's choice (log <n>).
-/

open Sys2Proof Sys2Proof.Machine

/-! ### Encoding (30_encoding.md) -/

/-- R121 to R132: every well-formed instruction, with every operand at every value its fields admit, is read back from its
word, from its bytes whatever follows them, and from its table word. -/
def Obligations.EncodeThenDecode : Prop :=
  ∀ (i : Instr) (rest : List Byte), i.wellFormed = true →
    decodeWord (encode i) = some i ∧
    decode (bytesOfWord (encode i) ++ rest) = .instr i rest ∧
    decodeTableWord 32 (encode i).toNat = some i

/-- R131: no bit of a legal word is lost, those the decoder does not look at included (log 12). -/
def Obligations.DecodeThenEncode : Prop :=
  ∀ (w : Word) (i : Instr), decodeWord w = some i → i.wellFormed = true ∧ encode i = w

/-- R132: "a word `w` is the instruction of a row iff `w & mask == match`; no two rows overlap; a word matching no row is
illegal". -/
def Obligations.DecoderIsTheOpcodeTable : Prop :=
  ∀ w : Word,
    (∀ i, decodeWord w = some i → ∀ r ∈ opcodeTable, (r.matchesWord w = true ↔ r.mnemonic = i.mnemonic)) ∧
    (decodeWord w = none ↔ ∀ r ∈ opcodeTable, r.matchesWord w = false)

/-- R133, R135: the families of words that are no instruction. -/
def Obligations.IllegalWordFamilies : Prop :=
  ∀ w : Word,
    (w.toNat % 4 ≠ 3 → decodeWord w = none) ∧
    (opcodeField w ∉ [0x03#7, 0x0F#7, 0x13#7, 0x17#7, 0x23#7, 0x2F#7, 0x33#7, 0x37#7, 0x63#7, 0x67#7, 0x6F#7, 0x73#7] →
      decodeWord w = none) ∧
    (opcodeField w = 0x03#7 → funct3Field w ∈ [3#3, 6#3, 7#3] → decodeWord w = none) ∧
    (opcodeField w = 0x23#7 → 3 ≤ (funct3Field w).toNat → decodeWord w = none) ∧
    (opcodeField w = 0x63#7 → funct3Field w ∈ [2#3, 3#3] → decodeWord w = none) ∧
    (opcodeField w = 0x67#7 → funct3Field w ≠ 0#3 → decodeWord w = none) ∧
    (opcodeField w = 0x0F#7 → 2 ≤ (funct3Field w).toNat → decodeWord w = none) ∧
    (opcodeField w = 0x13#7 → funct3Field w = 1#3 → funct7Field w ≠ 0x00#7 → decodeWord w = none) ∧
    (opcodeField w = 0x13#7 → funct3Field w = 5#3 → funct7Field w ∉ [0x00#7, 0x20#7] → decodeWord w = none) ∧
    (opcodeField w = 0x33#7 → funct7Field w ∉ [0x00#7, 0x01#7, 0x20#7] → decodeWord w = none) ∧
    (opcodeField w = 0x33#7 → funct7Field w = 0x20#7 → funct3Field w ∉ [0#3, 5#3] → decodeWord w = none) ∧
    (opcodeField w = 0x2F#7 → funct3Field w ≠ 2#3 → decodeWord w = none) ∧
    (opcodeField w = 0x2F#7 →
      funct5Field w ∉ [0b00010#5, 0b00011#5, 0b00001#5, 0b00000#5, 0b00100#5, 0b01100#5, 0b01000#5, 0b10000#5, 0b10100#5,
        0b11000#5, 0b11100#5] → decodeWord w = none) ∧
    (opcodeField w = 0x73#7 → funct3Field w = 4#3 → decodeWord w = none) ∧
    (opcodeField w = 0x73#7 → funct3Field w = 0#3 → funct7Field w ∉ [0x00#7, 0x18#7] → decodeWord w = none) ∧
    (opcodeField w = 0x73#7 → funct3Field w = 0#3 → funct7Field w = 0x00#7 → 2 ≤ (csrField w).toNat → decodeWord w = none)

/-- Words of the spec's worked examples, one family each, and the instructions they stand for. -/
def Obligations.SpecWordsDecode : Prop :=
  decodeWord 0xABCDE2B7#32 = some (.lui 5 0xABCDE#20) ∧
  decodeWord 0xFFF08093#32 = some (.addi 1 1 0xFFF#12) ∧
  decodeWord 0x40435293#32 = some (.srai 5 6 4#5) ∧
  decodeWord 0x407302B3#32 = some (.sub 5 6 7) ∧
  decodeWord 0x008000EF#32 = some (.jal 1 8#21) ∧
  decodeWord 0xFE000EE3#32 = some (.beq 0 0 0x1FFC#13) ∧
  decodeWord 0xFFC31283#32 = some (.lh 5 6 0xFFC#12) ∧
  decodeWord 0x007320A3#32 = some (.sw 7 6 1#12) ∧
  decodeWord 0x027322B3#32 = some (.mulhsu 5 6 7) ∧
  decodeWord 0x188323AF#32 = some (.scW 7 6 8 false false) ∧
  decodeWord 0x300462F3#32 = some (.csrrsi 5 0x300#12 8#5) ∧
  decodeWord 0x00100073#32 = some (.ebreak 0 0) ∧
  decodeWord 0x30200073#32 = some (.mret 2 0 0) ∧
  decodeWord 0x10500073#32 = none

/-! ### The cycle (60_exceptions.md, section 1) -/

/-- R300: a cycle of a running machine with an aligned `pc` in RAM and no interrupt to take runs the instruction that the
four bytes at `pc` decode to, after the timer check. -/
def Obligations.StepRunsTheDecodedInstruction : Prop :=
  ∀ (s : State) (i : Instr), s.run = .running → s.pc.toNat % 4 = 0 → s.pc ≠ 0#32 → RamAccess s .word s.pc →
    decode [s.byte s.pc.toNat, s.byte (s.pc.toNat + 1), s.byte (s.pc.toNat + 2), s.byte (s.pc.toNat + 3)] = .instr i [] →
    pendingInterrupt (timerCheck s) = none →
    step s = exec i (timerCheck s)

/-- R303, R320, R322 (D22): an interrupt is taken before the fetch, by the trap entry with its cause and `mtval` 0. The entry
halts the machine when `mtvec.MODE` is not 0 (the halted state: log 10); the cycle ends after it when
`IRQ_ENTRY_ENDS_CYCLE`; else it goes on at `mtvec`, in the state that FetchesIn names: an instruction in RAM there runs, and
FetchFaults, IllegalWordTraps and FetchFollowsTheBus say what every other fetch there does. -/
def Obligations.StepTakesTheInterruptFirst : Prop :=
  ∀ (s u : State) (k : Interrupt), s.run = .running → s.pc.toNat % 4 = 0 → pendingInterrupt (timerCheck s) = some k →
    u = trap k.cause 0#32 (timerCheck s) →
    TrapEntered (timerCheck s) u k.cause 0#32 ∧
      (¬ VectorDirect s → step s = .next u) ∧
      (VectorDirect s → s.cfg.irqEntryEndsCycle = true → ∃ t, step s = .next t ∧ CycleEnds u t) ∧
      (VectorDirect s → s.cfg.irqEntryEndsCycle = false → FetchesIn s u ∧ u.pc = s.csr 0x305 ∧
        ∀ i a, a = (s.csr 0x305).toNat → a ≠ 0 → RamAccess s .word (s.csr 0x305) →
          decode [s.byte a, s.byte (a + 1), s.byte (a + 2), s.byte (a + 3)] = .instr i [] → step s = exec i u)

/-- R311, R320: which interrupt is taken: none outside Machine mode or with MIE = 0; else the first of MEI, MSI, MTI that
is pending in `mip` and enabled in `mie`; and its cause. -/
def Obligations.InterruptPriority : Prop :=
  ∀ (s : State) (enabled : Prop) (both : Nat → Prop),
    (enabled ↔ s.priv = .machine ∧ (s.csr 0x300).getLsbD 3 = true) →
    (∀ k, both k ↔ (s.csr 0x344).getLsbD k = true ∧ (s.csr 0x304).getLsbD k = true) →
    (pendingInterrupt s = some .external ↔ enabled ∧ both 11) ∧
    (pendingInterrupt s = some .software ↔ enabled ∧ ¬ both 11 ∧ both 3) ∧
    (pendingInterrupt s = some .timer ↔ enabled ∧ ¬ both 11 ∧ ¬ both 3 ∧ both 7) ∧
    Interrupt.external.cause = 0x8000000B#32 ∧ Interrupt.software.cause = 0x80000003#32 ∧
    Interrupt.timer.cause = 0x80000007#32

/-- R302, R28: the timer check samples the clock, sets MTIP when the sample has reached the comparator, never clears it, and
changes nothing else; a sample is never below an earlier one (D32). That the samples to come are a list, the next entry the
next sample, and that an exhausted list holds its value, is the model's form of the input (log 4, DESIGN CHOICE). -/
def Obligations.TimerCheckSetsMtip : Prop :=
  ∀ s u : State, u = timerCheck s →
    s.clock.mtime ≤ u.clock.mtime ∧
    (∀ next rest, s.clock.future = next :: rest → s.clock.mtime ≤ next → u.clock.mtime = next ∧ u.clock.future = rest) ∧
    (s.clock.future = [] → u.clock = s.clock) ∧
    ((u.csr 0x344).getLsbD 7 = true ↔ (s.csr 0x344).getLsbD 7 = true ∨ s.mtimecmp.toNat ≤ u.clock.mtime.toNat) ∧
    (∀ k, k ≠ 7 → (u.csr 0x344).getLsbD k = (s.csr 0x344).getLsbD k) ∧
    CsrsKept [0x344] s u ∧ RegsKept [] s u ∧ MemoryKept s u ∧ ModeKept s u ∧
    u.pc = s.pc ∧ u.reservation = s.reservation ∧ u.mtimecmp = s.mtimecmp ∧ u.uartOut = s.uartOut

/-- R301: a misaligned `pc` raises before anything else, and a running machine's `pc` becomes misaligned only by an MRET
that installed a misaligned `mepc`. -/
def Obligations.MisalignedPc : Prop :=
  (∀ s : State, s.run = .running → s.pc.toNat % 4 ≠ 0 → ∃ t, step s = .next t ∧ Raises s t 0#32 s.pc) ∧
  (∀ s t : State, step s = .next t → t.run = .running → t.pc.toNat % 4 ≠ 0 →
    ∃ u rs2 rs1 rd, cycleFront s = .run (.mret rs2 rs1 rd) u ∧ u.csr 0x341 = t.pc)

/-- R304 (D34), R84, R94: a fetch past `END` raises LoadAccessFault with `mtval = pc`; a fetch at 0 halts; a fetch of a device
address that nothing claims reads 0, which is no instruction. The fetch is that of FetchesIn: at `pc` when no interrupt is
taken, at `mtvec` after the entry of one that is, in the state after that entry. -/
def Obligations.FetchFaults : Prop :=
  ∀ s f : State, FetchesIn s f →
    (BeyondEnd f .word f.pc → ∃ t, step s = .next t ∧ Raises f t 5#32 f.pc) ∧
    (¬ BeyondEnd f .word f.pc → f.pc = 0#32 → ∃ t, step s = .next t ∧ t.run = .halted .nullRead) ∧
    (DeviceAccess f .word f.pc → f.pc ≠ 0#32 → deviceAt f.pc = none → f.cfg.unmappedMmio = .readZeroWriteIgnored →
      ∃ t, step s = .next t ∧ Raises f t 2#32 0#32)

/-- R305: a word fetched, from RAM or from a device, with or without an interrupt taken first (FetchesIn), that is no
instruction raises IllegalInstruction (cause 2) with the whole word in `mtval`. -/
def Obligations.IllegalWordTraps : Prop :=
  ∀ s f : State, FetchesIn s f →
    (f.pc ≠ 0#32 → RamAccess f .word f.pc → decodeWord (wordAt f f.pc.toNat) = none →
      ∃ t, step s = .next t ∧ Raises f t 2#32 (wordAt f f.pc.toNat)) ∧
    (∀ w u, memRead .word f.pc f = .ok w u → decodeWord w = none → ∃ t, step s = .next t ∧ Raises u t 2#32 w)

/-- R300, R304, R94 (D34): whatever the bus answers to the fetch (FetchesIn), RAM or device, with or without an interrupt
taken first: the instruction its word decodes to runs (IllegalWordTraps: a word that is none), or the fault is raised, or
the machine halts, or the access is refused (log 11). -/
def Obligations.FetchFollowsTheBus : Prop :=
  ∀ s f : State, FetchesIn s f →
    (∀ u w i, memRead .word f.pc f = .ok w u → decodeWord w = some i → step s = exec i u) ∧
    (∀ e tval, memRead .word f.pc f = .raise e tval → ∃ t, step s = .next t ∧ Raises f t e.code tval) ∧
    (∀ u, memRead .word f.pc f = .halt u → step s = .next u) ∧
    (∀ r, memRead .word f.pc f = .refuse r → step s = .refused r)

/-- R29: "a halted machine takes no further cycle". That `step` answers a fault for it is the model's choice (log 10). -/
def Obligations.HaltedTakesNoCycle : Prop :=
  ∀ (s : State) (why : HaltReason), s.run = .halted why → step s = .fault (.halted why)

/-! ### Reset (10_state.md R60, 70_reset_and_hazards.md R371) -/

/-- R60, R371: the reset state for every choice of the parameters, the RAM image and the clock. The values of D8 to D11 are
the spec's decisions; the memory size, the image of zeros and the clock of `State.reset` are the model's (log 2, 3, 5). -/
def Obligations.ResetStateValues : Prop :=
  (∀ (c : Config) (ram : List Host.Cell) (clock : Clock) (s : State), s = State.resetWith c ram clock →
    s.pc = c.pageOffset ∧ (∀ r, s.x r = if r = 11 then c.dtbAddr else 0#32) ∧ s.priv = .machine ∧
    s.csr 0x300 = 0x00001888#32 ∧ s.csr 0x301 = 0x40401101#32 ∧ (∀ a, a ≠ 0x300 → a ≠ 0x301 → s.csr a = 0#32) ∧
    s.reservation = false ∧ s.mtimecmp = c.mtimecmpReset ∧ s.mem = ram ∧ s.run = .running ∧ s.uartOut = [] ∧
    s.clock = clock ∧ s.cfg = c) ∧
  State.reset = State.resetWith ⟨0x80000000#32, 0x2000, 0#32, 0#64, false, false, .readZeroWriteIgnored⟩ [] ⟨0#64, []⟩

/-- The invariant holds at `State.reset`, and after every reset whose parameters meet R7's constraint and whose RAM image is
a canonical list of RAM bytes. -/
def Obligations.ResetHasInvariant : Prop :=
  Inv State.reset ∧
  ∀ (c : Config) (ram : List Host.Cell) (clock : Clock), c.wf = true → Memory.wf ram = true →
    Sparse.within c.pageOffset.toNat c.ramEnd ram = true → Inv (State.resetWith c ram clock)

/-! ### RV32I computational instructions (40_rv32i_compute.md) -/

/-- R151, R152: LUI writes the immediate in bits 31:12, AUIPC adds it to its own address; with their encodings. -/
def Obligations.UpperImmediates : Prop :=
  (∀ (s : State) (rd : RegNum) (imm : BitVec 20),
    (∃ t, exec (.lui rd imm) s = .next t ∧ Completes s t rd (BitVec.ofNat 32 (imm.toNat * 2 ^ 12)) (s.pc + 4#32)) ∧
    (∃ t, exec (.auipc rd imm) s = .next t ∧
      Completes s t rd (BitVec.ofNat 32 (s.pc.toNat + imm.toNat * 2 ^ 12)) (s.pc + 4#32))) ∧
  (∀ w : Word, opcodeField w = 0x37#7 → decodeWord w = some (.lui (rdField w) (immUField w))) ∧
  (∀ w : Word, opcodeField w = 0x17#7 → decodeWord w = some (.auipc (rdField w) (immUField w)))

/-- R153, R162, R163: ADDI, ADD and SUB wrap modulo `2^32`; with their encodings. -/
def Obligations.WrappingAddSub : Prop :=
  (∀ (s : State) (rd rs1 rs2 : RegNum) (imm : BitVec 12),
    (∃ t, exec (.addi rd rs1 imm) s = .next t ∧
      Completes s t rd (BitVec.ofInt 32 ((s.x rs1).toNat + imm.toInt)) (s.pc + 4#32)) ∧
    (∃ t, exec (.add rd rs1 rs2) s = .next t ∧
      Completes s t rd (BitVec.ofNat 32 ((s.x rs1).toNat + (s.x rs2).toNat)) (s.pc + 4#32)) ∧
    (∃ t, exec (.sub rd rs1 rs2) s = .next t ∧
      Completes s t rd (BitVec.ofInt 32 ((s.x rs1).toNat - (s.x rs2).toNat)) (s.pc + 4#32))) ∧
  (∀ w : Word, opcodeField w = 0x13#7 → funct3Field w = 0#3 →
    decodeWord w = some (.addi (rdField w) (rs1Field w) (immIField w))) ∧
  (∀ w : Word, opcodeField w = 0x33#7 → funct3Field w = 0#3 → funct7Field w = 0x00#7 →
    decodeWord w = some (.add (rdField w) (rs1Field w) (rs2Field w))) ∧
  (∀ w : Word, opcodeField w = 0x33#7 → funct3Field w = 0#3 → funct7Field w = 0x20#7 →
    decodeWord w = some (.sub (rdField w) (rs1Field w) (rs2Field w)))

/-- R159 to R161: SLLI, SRLI, SRAI by `shamt`, SRAI as floor division by a power of two; with their encodings. -/
def Obligations.ImmediateShifts : Prop :=
  (∀ (s : State) (rd rs1 : RegNum) (shamt : BitVec 5),
    (∃ t, exec (.slli rd rs1 shamt) s = .next t ∧
      Completes s t rd (BitVec.ofNat 32 ((s.x rs1).toNat * 2 ^ shamt.toNat)) (s.pc + 4#32)) ∧
    (∃ t, exec (.srli rd rs1 shamt) s = .next t ∧
      Completes s t rd (BitVec.ofNat 32 ((s.x rs1).toNat / 2 ^ shamt.toNat)) (s.pc + 4#32)) ∧
    (∃ t, exec (.srai rd rs1 shamt) s = .next t ∧
      Completes s t rd (BitVec.ofInt 32 ((s.x rs1).toInt / 2 ^ shamt.toNat)) (s.pc + 4#32))) ∧
  (∀ w : Word, opcodeField w = 0x13#7 → funct3Field w = 1#3 →
    decodeWord w = if funct7Field w = 0x00#7 then some (.slli (rdField w) (rs1Field w) (shamtField w)) else none) ∧
  (∀ w : Word, opcodeField w = 0x13#7 → funct3Field w = 5#3 →
    decodeWord w = if funct7Field w = 0x00#7 then some (.srli (rdField w) (rs1Field w) (shamtField w))
      else if funct7Field w = 0x20#7 then some (.srai (rdField w) (rs1Field w) (shamtField w)) else none)

/-- R164, R168, R169 (D37): SLL, SRL, SRA shift by the low five bits of `x[rs2]`. -/
def Obligations.RegisterShifts : Prop :=
  ∀ (s : State) (rd rs1 rs2 : RegNum) (n : Nat), n = (s.x rs2).toNat % 32 →
    (∃ t, exec (.sll rd rs1 rs2) s = .next t ∧
      Completes s t rd (BitVec.ofNat 32 ((s.x rs1).toNat * 2 ^ n)) (s.pc + 4#32)) ∧
    (∃ t, exec (.srl rd rs1 rs2) s = .next t ∧
      Completes s t rd (BitVec.ofNat 32 ((s.x rs1).toNat / 2 ^ n)) (s.pc + 4#32)) ∧
    (∃ t, exec (.sra rd rs1 rs2) s = .next t ∧
      Completes s t rd (BitVec.ofInt 32 ((s.x rs1).toInt / 2 ^ n)) (s.pc + 4#32))

/-- R156 to R158, R167, R170, R171: the bitwise instructions, the immediate sign-extended as R10 says. -/
def Obligations.BitwiseLogic : Prop :=
  ∀ (s : State) (rd rs1 rs2 : RegNum) (imm : BitVec 12),
    (∃ t, exec (.xori rd rs1 imm) s = .next t ∧ Completes s t rd (s.x rs1 ^^^ signExtended12 imm) (s.pc + 4#32)) ∧
    (∃ t, exec (.ori rd rs1 imm) s = .next t ∧ Completes s t rd (s.x rs1 ||| signExtended12 imm) (s.pc + 4#32)) ∧
    (∃ t, exec (.andi rd rs1 imm) s = .next t ∧ Completes s t rd (s.x rs1 &&& signExtended12 imm) (s.pc + 4#32)) ∧
    (∃ t, exec (.xor rd rs1 rs2) s = .next t ∧ Completes s t rd (s.x rs1 ^^^ s.x rs2) (s.pc + 4#32)) ∧
    (∃ t, exec (.or rd rs1 rs2) s = .next t ∧ Completes s t rd (s.x rs1 ||| s.x rs2) (s.pc + 4#32)) ∧
    (∃ t, exec (.and rd rs1 rs2) s = .next t ∧ Completes s t rd (s.x rs1 &&& s.x rs2) (s.pc + 4#32))

/-- R154, R155, R165, R166: SLTI and SLT compare signed, SLTIU and SLTU unsigned, SLTIU after sign extension. -/
def Obligations.SetLessThan : Prop :=
  ∀ (s : State) (rd rs1 rs2 : RegNum) (imm : BitVec 12),
    (∃ t, exec (.slti rd rs1 imm) s = .next t ∧
      Completes s t rd (if (s.x rs1).toInt < imm.toInt then 1#32 else 0#32) (s.pc + 4#32)) ∧
    (∃ t, exec (.sltiu rd rs1 imm) s = .next t ∧
      Completes s t rd (if (s.x rs1).toNat < (signExtended12 imm).toNat then 1#32 else 0#32) (s.pc + 4#32)) ∧
    (∃ t, exec (.slt rd rs1 rs2) s = .next t ∧
      Completes s t rd (if (s.x rs1).toInt < (s.x rs2).toInt then 1#32 else 0#32) (s.pc + 4#32)) ∧
    (∃ t, exec (.sltu rd rs1 rs2) s = .next t ∧
      Completes s t rd (if (s.x rs1).toNat < (s.x rs2).toNat then 1#32 else 0#32) (s.pc + 4#32))

/-! ### The M extension (43_m_muldiv.md) -/

/-- R221 to R224: the low word of the product, and the high word of the 64-bit product with the operands widened as the
mnemonic says. -/
def Obligations.MultiplyResults : Prop :=
  ∀ (s : State) (rd rs1 rs2 : RegNum) (a b : Word), a = s.x rs1 → b = s.x rs2 →
    (∃ t, exec (.mul rd rs1 rs2) s = .next t ∧ Completes s t rd (BitVec.ofNat 32 (a.toNat * b.toNat)) (s.pc + 4#32)) ∧
    (∃ t, exec (.mulh rd rs1 rs2) s = .next t ∧
      Completes s t rd (BitVec.ofInt 32 ((a.toInt * b.toInt) % 2 ^ 64 / 2 ^ 32)) (s.pc + 4#32)) ∧
    (∃ t, exec (.mulhsu rd rs1 rs2) s = .next t ∧
      Completes s t rd (BitVec.ofInt 32 ((a.toInt * b.toNat) % 2 ^ 64 / 2 ^ 32)) (s.pc + 4#32)) ∧
    (∃ t, exec (.mulhu rd rs1 rs2) s = .next t ∧
      Completes s t rd (BitVec.ofNat 32 (a.toNat * b.toNat / 2 ^ 32)) (s.pc + 4#32))

/-- R226, R228: DIVU and REMU, with their results on division by zero, and their encodings. -/
def Obligations.UnsignedDivision : Prop :=
  (∀ (s : State) (rd rs1 rs2 : RegNum) (a b : Word), a = s.x rs1 → b = s.x rs2 →
    (∃ t, exec (.divu rd rs1 rs2) s = .next t ∧
      Completes s t rd (if b.toNat = 0 then 0xFFFFFFFF#32 else BitVec.ofNat 32 (a.toNat / b.toNat)) (s.pc + 4#32)) ∧
    (∃ t, exec (.remu rd rs1 rs2) s = .next t ∧
      Completes s t rd (if b.toNat = 0 then a else BitVec.ofNat 32 (a.toNat % b.toNat)) (s.pc + 4#32))) ∧
  (∀ w : Word, opcodeField w = 0x33#7 → funct7Field w = 0x01#7 → funct3Field w = 5#3 →
    decodeWord w = some (.divu (rdField w) (rs1Field w) (rs2Field w))) ∧
  (∀ w : Word, opcodeField w = 0x33#7 → funct7Field w = 0x01#7 → funct3Field w = 7#3 →
    decodeWord w = some (.remu (rdField w) (rs1Field w) (rs2Field w)))

/-- R225, R227: DIV and REM, rounding toward zero, with their results on division by zero and on overflow. -/
def Obligations.SignedDivision : Prop :=
  ∀ (s : State) (rd rs1 rs2 : RegNum) (a b : Word), a = s.x rs1 → b = s.x rs2 →
    (∃ t, exec (.div rd rs1 rs2) s = .next t ∧
      Completes s t rd (if b = 0#32 then 0xFFFFFFFF#32
        else if a = 0x80000000#32 ∧ b = 0xFFFFFFFF#32 then 0x80000000#32
        else BitVec.ofInt 32 (a.toInt.tdiv b.toInt)) (s.pc + 4#32)) ∧
    (∃ t, exec (.rem rd rs1 rs2) s = .next t ∧
      Completes s t rd (if b = 0#32 then a
        else if a = 0x80000000#32 ∧ b = 0xFFFFFFFF#32 then 0#32
        else BitVec.ofInt 32 (a.toInt.tmod b.toInt)) (s.pc + 4#32))

/-- R229, laws 1 to 4 of the results that R221 to R228 write. -/
def Obligations.MulDivLaws : Prop :=
  ∀ a b : Word,
    (b ≠ 0#32 → ¬ (a = 0x80000000#32 ∧ b = 0xFFFFFFFF#32) →
      (divSigned a b).toInt * b.toInt + (remSigned a b).toInt = a.toInt ∧
      (remSigned a b).toInt.natAbs < b.toInt.natAbs ∧
      ((remSigned a b).toInt = 0 ∨ (0 < (remSigned a b).toInt ↔ 0 < a.toInt))) ∧
    (b ≠ 0#32 → (divUnsigned a b).toNat * b.toNat + (remUnsigned a b).toNat = a.toNat ∧
      (remUnsigned a b).toNat < b.toNat) ∧
    (b = 0#32 ∨ (a = 0x80000000#32 ∧ b = 0xFFFFFFFF#32) → divSigned a b * b + remSigned a b = a) ∧
    (highWord (a.toNat * b.toNat)).toNat * 2 ^ 32 + (a * b).toNat = a.toNat * b.toNat ∧
    (highWord (a.toInt * b.toInt)).toInt * 2 ^ 32 + (a * b).toNat = a.toInt * b.toInt ∧
    (highWord (a.toInt * b.toNat)).toInt * 2 ^ 32 + (a * b).toNat = a.toInt * b.toNat

/-! ### RV32I control transfer (41_rv32i_control.md) -/

/-- R181, R180: JAL links and jumps; a target that is not a multiple of 4 raises at the JAL and writes nothing (D20). -/
def Obligations.JalLinksAndJumps : Prop :=
  ∀ (s : State) (rd : RegNum) (offset : BitVec 21) (target : Word),
    target = BitVec.ofInt 32 (s.pc.toNat + offset.toInt) →
    (target.toNat % 4 = 0 → ∃ t, exec (.jal rd offset) s = .next t ∧ Completes s t rd (s.pc + 4#32) target) ∧
    (target.toNat % 4 ≠ 0 → ∃ t, exec (.jal rd offset) s = .next t ∧ Raises s t 0#32 target)

/-- R182, R180: JALR clears bit 0 of the sum, then tests the alignment, links and jumps, the base read first (D20, D21). -/
def Obligations.JalrLinksAndJumps : Prop :=
  ∀ (s : State) (rd rs1 : RegNum) (imm : BitVec 12) (sum target : Word),
    sum = BitVec.ofInt 32 ((s.x rs1).toNat + imm.toInt) → target = BitVec.ofNat 32 (sum.toNat / 2 * 2) →
    (target.toNat % 4 = 0 → ∃ t, exec (.jalr rd rs1 imm) s = .next t ∧ Completes s t rd (s.pc + 4#32) target) ∧
    (target.toNat % 4 ≠ 0 → ∃ t, exec (.jalr rd rs1 imm) s = .next t ∧ Raises s t 0#32 target)

/-- R183 to R189, R180: the six branches follow the common rule, each with its own condition (D19, D20). -/
def Obligations.BranchesFollowTheirCondition : Prop :=
  ∀ (rs1 rs2 : RegNum) (offset : BitVec 13),
    BranchRule (exec (.beq rs1 rs2 offset)) (fun s => s.x rs1 = s.x rs2) offset ∧
    BranchRule (exec (.bne rs1 rs2 offset)) (fun s => s.x rs1 ≠ s.x rs2) offset ∧
    BranchRule (exec (.blt rs1 rs2 offset)) (fun s => (s.x rs1).toInt < (s.x rs2).toInt) offset ∧
    BranchRule (exec (.bge rs1 rs2 offset)) (fun s => (s.x rs2).toInt ≤ (s.x rs1).toInt) offset ∧
    BranchRule (exec (.bltu rs1 rs2 offset)) (fun s => (s.x rs1).toNat < (s.x rs2).toNat) offset ∧
    BranchRule (exec (.bgeu rs1 rs2 offset)) (fun s => (s.x rs2).toNat ≤ (s.x rs1).toNat) offset

/-! ### Loads, stores and fences (42_rv32i_loadstore_fence.md, 20_memory.md) -/

/-- R201 to R205 with R83, R84, R88: a load from RAM, at any alignment, of the little-endian value extended as its mnemonic
says. -/
def Obligations.RamLoads : Prop :=
  ∀ (s : State) (rd rs1 : RegNum) (imm : BitVec 12) (a : Word) (b0 b1 : Byte),
    a = effectiveAddress (s.x rs1) imm → a ≠ 0#32 → b0 = s.byte a.toNat → b1 = s.byte (a.toNat + 1) →
    (RamAccess s .byte a → ∃ t, exec (.lb rd rs1 imm) s = .next t ∧
      Completes s t rd (BitVec.ofInt 32 b0.toInt) (s.pc + 4#32)) ∧
    (RamAccess s .byte a → ∃ t, exec (.lbu rd rs1 imm) s = .next t ∧
      Completes s t rd (BitVec.ofNat 32 b0.toNat) (s.pc + 4#32)) ∧
    (RamAccess s .half a → ∃ t, exec (.lh rd rs1 imm) s = .next t ∧
      Completes s t rd (BitVec.ofInt 32 (b1.toInt * 2 ^ 8 + b0.toNat)) (s.pc + 4#32)) ∧
    (RamAccess s .half a → ∃ t, exec (.lhu rd rs1 imm) s = .next t ∧
      Completes s t rd (BitVec.ofNat 32 (b1.toNat * 2 ^ 8 + b0.toNat)) (s.pc + 4#32)) ∧
    (RamAccess s .word a → ∃ t, exec (.lw rd rs1 imm) s = .next t ∧
      Completes s t rd (wordAt s a.toNat) (s.pc + 4#32))

/-- R201 to R205, R84, R86: whatever the bus answers to the read of a load, device or RAM: its value extended and written, or
its fault raised, or its halt, or its refusal (log 11). -/
def Obligations.LoadsFollowTheBus : Prop :=
  ∀ (s u : State) (rd rs1 : RegNum) (imm : BitVec 12) (a v : Word), a = effectiveAddress (s.x rs1) imm →
    (memRead .byte a s = .ok v u → ∃ t, exec (.lb rd rs1 imm) s = .next t ∧
      Completes u t rd (BitVec.ofInt 32 (BitVec.ofNat 8 v.toNat).toInt) (s.pc + 4#32)) ∧
    (memRead .half a s = .ok v u → ∃ t, exec (.lh rd rs1 imm) s = .next t ∧
      Completes u t rd (BitVec.ofInt 32 (BitVec.ofNat 16 v.toNat).toInt) (s.pc + 4#32)) ∧
    (memRead .word a s = .ok v u → ∃ t, exec (.lw rd rs1 imm) s = .next t ∧ Completes u t rd v (s.pc + 4#32)) ∧
    (memRead .byte a s = .ok v u → ∃ t, exec (.lbu rd rs1 imm) s = .next t ∧
      Completes u t rd (BitVec.ofNat 32 (v.toNat % 2 ^ 8)) (s.pc + 4#32)) ∧
    (memRead .half a s = .ok v u → ∃ t, exec (.lhu rd rs1 imm) s = .next t ∧
      Completes u t rd (BitVec.ofNat 32 (v.toNat % 2 ^ 16)) (s.pc + 4#32)) ∧
    (∀ i w addr, readAccess i s = some (w, addr) → atomicAddress i s = none →
      (∀ e tval, memRead w addr s = .raise e tval → ∃ t, exec i s = .next t ∧ Raises s t e.code tval) ∧
      (memRead w addr s = .halt u → exec i s = .next u) ∧
      (∀ r, memRead w addr s = .refuse r → exec i s = .refused r))

/-- R81, R84, R314: a load, LR.W or AMO whose (aligned) access runs past `END` raises LoadAccessFault with the address in
`mtval`, an AMO too (D1, D33); one at address 0 within the range halts (D7). -/
def Obligations.ReadFaultsAndNullReads : Prop :=
  ∀ (i : Instr) (s : State) (w : Width) (a : Word), readAccess i s = some (w, a) →
    (∀ b, atomicAddress i s = some b → b.toNat % 4 = 0) →
    (BeyondEnd s w a → ∃ t, exec i s = .next t ∧ Raises s t 5#32 a) ∧
    (¬ BeyondEnd s w a → a = 0#32 → ∃ t, exec i s = .next t ∧ t.run = .halted .nullRead)

/-- R206 to R208 with R83, R85, R88: SB, SH, SW to RAM store the low bytes of `x[rs2]` at the effective address, at any
alignment, and every other byte of memory reads as before; the reservation is kept. -/
def Obligations.RamStores : Prop :=
  ∀ (s : State) (rs2 rs1 : RegNum) (imm : BitVec 12) (a : Word), a = effectiveAddress (s.x rs1) imm →
    (RamAccess s .byte a → ∃ t, exec (.sb rs2 rs1 imm) s = .next t ∧ Stores s t a.toNat 1 (s.x rs2) (s.pc + 4#32)) ∧
    (RamAccess s .half a → ∃ t, exec (.sh rs2 rs1 imm) s = .next t ∧ Stores s t a.toNat 2 (s.x rs2) (s.pc + 4#32)) ∧
    (RamAccess s .word a → ∃ t, exec (.sw rs2 rs1 imm) s = .next t ∧ Stores s t a.toNat 4 (s.x rs2) (s.pc + 4#32))

/-- R206 to R208, R85, R87: whatever the bus answers to the write of a store: it completes, or its fault is raised, or it
halts, or it is refused (log 11). -/
def Obligations.StoresFollowTheBus : Prop :=
  ∀ (s u : State) (rs2 rs1 : RegNum) (imm : BitVec 12) (i : Instr) (w : Width),
    (i, w) ∈ [(Instr.sb rs2 rs1 imm, Width.byte), (Instr.sh rs2 rs1 imm, Width.half), (Instr.sw rs2 rs1 imm, Width.word)] →
    (memWrite w (effectiveAddress (s.x rs1) imm) (s.x rs2) s = .ok () u →
      ∃ t, exec i s = .next t ∧ Advances u t (s.pc + 4#32)) ∧
    (∀ e tval, memWrite w (effectiveAddress (s.x rs1) imm) (s.x rs2) s = .raise e tval →
      ∃ t, exec i s = .next t ∧ Raises s t e.code tval) ∧
    (memWrite w (effectiveAddress (s.x rs1) imm) (s.x rs2) s = .halt u → exec i s = .next u) ∧
    (∀ r, memWrite w (effectiveAddress (s.x rs1) imm) (s.x rs2) s = .refuse r → exec i s = .refused r)

/-- R81, R85, R314: a store, or an SC.W with the reservation held and an aligned address, that runs past `END` raises
StoreAccessFault with the address in `mtval` and stores nothing (D1, D2, D20, D31). -/
def Obligations.StoreFaults : Prop :=
  ∀ (i : Instr) (s : State) (w : Width) (a : Word), storeAccess i s = some (w, a) →
    (∀ b, atomicAddress i s = some b → b.toNat % 4 = 0) → BeyondEnd s w a → ∃ t, exec i s = .next t ∧ Raises s t 7#32 a

/-- R83: "A narrow access to part of a wider stored value sees the corresponding bytes", the constraint of R7 holding. -/
def Obligations.NarrowReadsOfAStoredWord : Prop :=
  ∀ (s u : State) (a v : Word) (w : Width) (k : Nat), s.cfg.wf = true → RamAccess s .word a → k + w.bytes ≤ 4 →
    a + BitVec.ofNat 32 k ≠ 0#32 → memWrite .word a v s = .ok () u →
    memRead w (a + BitVec.ofNat 32 k) u = .ok (BitVec.ofNat 32 (lowBytes w (v.toNat / 2 ^ (8 * k)))) u

/-- R100: a word stored by SW is fetched and run by a later cycle at its address, with no fence in between. -/
def Obligations.StoredWordIsFetched : Prop :=
  ∀ (s t u : State) (rs2 rs1 : RegNum) (imm : BitVec 12) (i : Instr) (a : Word), a = effectiveAddress (s.x rs1) imm →
    RamAccess s .word a → a ≠ 0#32 → a.toNat % 4 = 0 → s.run = .running → exec (.sw rs2 rs1 imm) s = .next t →
    decodeWord (s.x rs2) = some i → u = t.setPc a → pendingInterrupt (timerCheck u) = none →
    step u = exec i (timerCheck u)

/-- R209, R210, R98: FENCE and FENCE.I advance `pc` and change nothing else, whatever their other fields hold; with their
encodings. -/
def Obligations.FencesOnlyAdvancePc : Prop :=
  (∀ (s : State) (fm pred succ : BitVec 4) (imm : BitVec 12) (rs1 rd : RegNum),
    (∃ t, exec (.fence fm pred succ rs1 rd) s = .next t ∧ Advances s t (s.pc + 4#32)) ∧
    (∃ t, exec (.fenceI imm rs1 rd) s = .next t ∧ Advances s t (s.pc + 4#32))) ∧
  (∀ w : Word, opcodeField w = 0x0F#7 → funct3Field w = 0#3 →
    decodeWord w = some (.fence (fmField w) (predField w) (succField w) (rs1Field w) (rdField w))) ∧
  (∀ w : Word, opcodeField w = 0x0F#7 → funct3Field w = 1#3 →
    decodeWord w = some (.fenceI (immIField w) (rs1Field w) (rdField w)))

/-! ### Devices (20_memory.md R86, R87; 60_exceptions.md R340 to R346) -/

/-- R340, R341: a write of the UART appends the low byte of the value to the output and changes nothing else; its read gives
0; its line status reads `0x60`; MSIP reads 0 and ignores writes; offsets 1 to 4, 6 and 7 of the UART are not claimed. -/
def Obligations.UartAndMsip : Prop :=
  ∀ (s : State) (w : Width) (v : Word),
    (DeviceAccess s w 0x10000000#32 → memRead w 0x10000000#32 s = .ok 0#32 s ∧
      memWrite w 0x10000000#32 v s =
        .ok () { s with uartOut := s.uartOut ++ [BitVec.ofNat 8 (v.toNat % 2 ^ 8)] }) ∧
    (DeviceAccess s w 0x10000005#32 → memRead w 0x10000005#32 s = .ok 0x60#32 s) ∧
    (DeviceAccess s w 0x11000000#32 → memRead w 0x11000000#32 s = .ok 0#32 s ∧ memWrite w 0x11000000#32 v s = .ok () s) ∧
    (∀ a ∈ [0x10000001#32, 0x10000002#32, 0x10000003#32, 0x10000004#32, 0x10000006#32, 0x10000007#32], deviceAt a = none)

/-- R342 to R344 (D4, D5): a read of a half of `mtime` gives that half of the clock as sampled by the read; `mtimecmp` reads as
stored; a write of one of its halves replaces that half and clears MTIP when the whole comparator is above the clock as
sampled by the write, and changes nothing else. -/
def Obligations.ClintTimerRegisters : Prop :=
  ∀ (s : State) (w : Width) (v : Word) (now : Nat), now = s.clock.sample.mtime.toNat →
    (DeviceAccess s w 0x1100BFF8#32 → memRead w 0x1100BFF8#32 s =
      .ok (BitVec.ofNat 32 (lowBytes w (now % 2 ^ 32))) { s with clock := s.clock.sample }) ∧
    (DeviceAccess s w 0x1100BFFC#32 → memRead w 0x1100BFFC#32 s =
      .ok (BitVec.ofNat 32 (lowBytes w (now / 2 ^ 32))) { s with clock := s.clock.sample }) ∧
    (DeviceAccess s w 0x11004000#32 →
      memRead w 0x11004000#32 s = .ok (BitVec.ofNat 32 (lowBytes w (s.mtimecmp.toNat % 2 ^ 32))) s) ∧
    (DeviceAccess s w 0x11004004#32 →
      memRead w 0x11004004#32 s = .ok (BitVec.ofNat 32 (lowBytes w (s.mtimecmp.toNat / 2 ^ 32))) s) ∧
    (∀ a new, (a = 0x11004000#32 ∧ new = s.mtimecmp.toNat / 2 ^ 32 * 2 ^ 32 + lowBytes w v.toNat) ∨
        (a = 0x11004004#32 ∧ new = lowBytes w v.toNat * 2 ^ 32 + s.mtimecmp.toNat % 2 ^ 32) → DeviceAccess s w a →
      ∃ u, memWrite w a v s = .ok () u ∧ u.mtimecmp.toNat = new ∧ u.clock = s.clock.sample ∧
        ((u.csr 0x344).getLsbD 7 = true ↔ (s.csr 0x344).getLsbD 7 = true ∧ ¬ now < new) ∧
        (∀ k, k ≠ 7 → (u.csr 0x344).getLsbD k = (s.csr 0x344).getLsbD k) ∧
        CsrsKept [0x344] s u ∧ RegsKept [] s u ∧ MemoryKept s u ∧ ModeKept s u ∧ u.pc = s.pc ∧
        u.reservation = s.reservation ∧ u.uartOut = s.uartOut)

/-- R346 (D6), R29: a write of `0x5555` to SYSCON halts with Poweroff, of `0x7777` with Reboot, of anything else does
nothing; the value is the one the access width carries (D4). -/
def Obligations.SysconHaltsOnMagicValues : Prop :=
  ∀ (s : State) (w : Width) (v : Word), DeviceAccess s w 0x11100000#32 →
    (lowBytes w v.toNat = 0x5555 → ∃ u, memWrite w 0x11100000#32 v s = .halt u ∧ u.run = .halted .poweroff) ∧
    (lowBytes w v.toNat = 0x7777 → ∃ u, memWrite w 0x11100000#32 v s = .halt u ∧ u.run = .halted .reboot) ∧
    (lowBytes w v.toNat ≠ 0x5555 → lowBytes w v.toNat ≠ 0x7777 → memWrite w 0x11100000#32 v s = .ok () s)

/-- R345 (D3), R86, R87: a read or write of a device address that no row claims in that direction reads 0 or is ignored, and
is refused when the parameter `UNMAPPED_MMIO` says so (log 11). -/
def Obligations.UnclaimedDeviceAddresses : Prop :=
  ∀ (s : State) (w : Width) (a v : Word), DeviceAccess s w a →
    (a ≠ 0#32 → a ∉ [0x10000000#32, 0x10000005#32, 0x11000000#32, 0x11004000#32, 0x11004004#32, 0x1100BFF8#32,
        0x1100BFFC#32] →
      (s.cfg.unmappedMmio = .readZeroWriteIgnored → memRead w a s = .ok 0#32 s) ∧
      (s.cfg.unmappedMmio = .refuse → memRead w a s = .refuse (.unmappedMmio a))) ∧
    (a ∉ [0x10000000#32, 0x11000000#32, 0x11004000#32, 0x11004004#32, 0x11100000#32] →
      (s.cfg.unmappedMmio = .readZeroWriteIgnored → memWrite w a v s = .ok () s) ∧
      (s.cfg.unmappedMmio = .refuse → memWrite w a v s = .refuse (.unmappedMmio a)))

/-! ### The A extension (44_a_atomic.md) -/

/-- R241 (D31): LR.W of an aligned word of RAM loads it and sets the reservation. -/
def Obligations.LoadReserved : Prop :=
  ∀ (s : State) (rd rs1 rs2 : RegNum) (aq rl : Bool) (a : Word), a = s.x rs1 → a.toNat % 4 = 0 → a ≠ 0#32 →
    RamAccess s .word a → ∃ t, exec (.lrW rd rs1 rs2 aq rl) s = .next t ∧
      CompletesReserving true s t rd (wordAt s a.toNat) (s.pc + 4#32)

/-- R242, R253 (D21, D31): SC.W succeeds exactly when the reservation is held: it stores the word, writes 0 and clears the
reservation; else it writes 1 and touches nothing, whatever its (aligned) address. -/
def Obligations.StoreConditional : Prop :=
  ∀ (s : State) (rd rs1 rs2 : RegNum) (aq rl : Bool) (a : Word), a = s.x rs1 → a.toNat % 4 = 0 →
    (s.reservation = true → RamAccess s .word a → ∃ t, exec (.scW rd rs1 rs2 aq rl) s = .next t ∧
      AtomicStores false s t rd 0#32 a.toNat (s.x rs2) (s.pc + 4#32)) ∧
    (s.reservation = false → ∃ t, exec (.scW rd rs1 rs2 aq rl) s = .next t ∧ Completes s t rd 1#32 (s.pc + 4#32))

/-- R243 to R252 (D21): each of the nine AMOs on an aligned word of RAM writes the old word to `rd` and `op(old, x[rs2])` to
memory, the sources read first, the reservation kept. -/
def Obligations.AmosInRam : Prop :=
  ∀ (i : Instr) (f : AmoForm) (s : State) (a : Word), amoForm i = some f → a = s.x f.rs1 → a.toNat % 4 = 0 → a ≠ 0#32 →
    RamAccess s .word a → ∃ t, exec i s = .next t ∧
      AtomicStores s.reservation s t f.rd (wordAt s a.toNat) a.toNat (f.op (wordAt s a.toNat) (s.x f.rs2)) (s.pc + 4#32)

/-- R241 to R243, R84 to R87: whatever the bus answers to the accesses of an aligned atomic, device or RAM: its value, or its
fault raised, or its halt, or its refusal (log 11). An SC.W makes its one access only with the reservation held (without it:
StoreConditional). The second access of an AMO has no clause for a fault: R243, "cannot after the read passed". -/
def Obligations.AtomicsFollowTheBus : Prop :=
  ∀ (s : State) (a : Word), a.toNat % 4 = 0 →
    (∀ rd rs1 rs2 aq rl, a = s.x rs1 →
      (∀ v u, memRead .word a s = .ok v u →
        ∃ t, exec (.lrW rd rs1 rs2 aq rl) s = .next t ∧ CompletesReserving true u t rd v (s.pc + 4#32)) ∧
      (∀ e tval, memRead .word a s = .raise e tval →
        ∃ t, exec (.lrW rd rs1 rs2 aq rl) s = .next t ∧ Raises s t e.code tval) ∧
      (∀ u, memRead .word a s = .halt u → exec (.lrW rd rs1 rs2 aq rl) s = .next u) ∧
      (∀ r, memRead .word a s = .refuse r → exec (.lrW rd rs1 rs2 aq rl) s = .refused r)) ∧
    (∀ rd rs1 rs2 aq rl, a = s.x rs1 → s.reservation = true →
      (∀ z, memWrite .word a (s.x rs2) s = .ok () z →
        ∃ t, exec (.scW rd rs1 rs2 aq rl) s = .next t ∧ CompletesReserving false z t rd 0#32 (s.pc + 4#32)) ∧
      (∀ e tval, memWrite .word a (s.x rs2) s = .raise e tval →
        ∃ t, exec (.scW rd rs1 rs2 aq rl) s = .next t ∧ Raises s t e.code tval) ∧
      (∀ z, memWrite .word a (s.x rs2) s = .halt z → exec (.scW rd rs1 rs2 aq rl) s = .next z) ∧
      (∀ r, memWrite .word a (s.x rs2) s = .refuse r → exec (.scW rd rs1 rs2 aq rl) s = .refused r)) ∧
    (∀ i f, amoForm i = some f → a = s.x f.rs1 →
      (∀ v u, memRead .word a s = .ok v u →
        (∀ z, memWrite .word a (f.op v (s.x f.rs2)) u = .ok () z →
          ∃ t, exec i s = .next t ∧ Completes z t f.rd v (s.pc + 4#32)) ∧
        (∀ z, memWrite .word a (f.op v (s.x f.rs2)) u = .halt z → exec i s = .next z) ∧
        (∀ r, memWrite .word a (f.op v (s.x f.rs2)) u = .refuse r → exec i s = .refused r)) ∧
      (∀ e tval, memRead .word a s = .raise e tval → ∃ t, exec i s = .next t ∧ Raises s t e.code tval) ∧
      (∀ u, memRead .word a s = .halt u → exec i s = .next u) ∧
      (∀ r, memRead .word a s = .refuse r → exec i s = .refused r))

/-- R240, R90 (C5, D20, D31): an atomic at an address that is not a multiple of 4 raises InstructionAddressMisaligned with
the address in `mtval`, before the bus and whatever the reservation. -/
def Obligations.MisalignedAtomics : Prop :=
  ∀ (i : Instr) (s : State) (a : Word), atomicAddress i s = some a → a.toNat % 4 ≠ 0 →
    ∃ t, exec i s = .next t ∧ Raises s t 0#32 a

/-! ### The CSR file (10_state.md section 8, 45_zicsr.md) -/

/-- R260, R263 to R269, R271: a CSR instruction that requests no write, or whose number keeps its storage, writes the old
value to `rd` and changes nothing else, no interrupt being taken; and what each number reads as (R39, R47, R33). -/
def Obligations.CsrReads : Prop :=
  (∀ (i : Instr) (s : State) (f : CsrForm), csrForm i s = some f → ¬ s.priv.bits.toNat < f.number.toNat / 256 % 4 →
    f.requested = false ∨ FixedCsr f.number →
    ∃ t, exec i s = .next t ∧ Completes s t f.rd (csrGet f.number s) (s.pc + 4#32)) ∧
  (∀ (s : State) (a : CsrNum),
    csrGet a s = if a.toNat = 0x303 then 0#32 else if a.toNat = 0xC00 then s.csr 0xB00
      else if a.toNat = 0xC80 then s.csr 0xB80 else if a.toNat = 0xC02 then s.csr 0xB02
      else if a.toNat = 0xC82 then s.csr 0xB82 else s.csr a.toNat)

/-- R264 to R269, R271, R41 to R44, R49: a requested write of a plain number stores all 32 bits of the new value and writes
the value before it to `rd`. -/
def Obligations.CsrPlainWrites : Prop :=
  ∀ (i : Instr) (s : State) (f : CsrForm), csrForm i s = some f → ¬ s.priv.bits.toNat < f.number.toNat / 256 % 4 →
    f.requested = true → ¬ FixedCsr f.number → ¬ RecheckedCsr f.number →
    ∃ t, exec i s = .next t ∧ CsrWrites s t f.rd (csrGet f.number s) f.number.toNat f.new (s.pc + 4#32)

/-- R35, R37 to R39, R271: a requested write of `mstatus`, `mie`, `mip` or `mideleg` stores the masked value, when the
re-check finds no interrupt to take. -/
def Obligations.CsrMaskedWrites : Prop :=
  ∀ (i : Instr) (s : State) (f : CsrForm) (stored : Word), csrForm i s = some f →
    ¬ s.priv.bits.toNat < f.number.toNat / 256 % 4 → f.requested = true → RecheckedCsr f.number →
    stored = maskedStore f.number f.new s → pendingInterrupt (s.setCsr f.number.toNat stored) = none →
    ∃ t, exec i s = .next t ∧ CsrWrites s t f.rd (csrGet f.number s) f.number.toNat stored (s.pc + 4#32)

/-- R262, R270: when the re-check finds an interrupt, it is taken inside the instruction: `mepc` is the address after the
instruction, the status saved is the one just written, `rd` still gets the old value and the cycle counts; with
`mtvec.MODE` not 0 the machine halts. -/
def Obligations.CsrWriteTakesTheInterrupt : Prop :=
  ∀ (i : Instr) (s : State) (f : CsrForm) (k : Interrupt) (written : State), csrForm i s = some f →
    ¬ s.priv.bits.toNat < f.number.toNat / 256 % 4 → f.requested = true → RecheckedCsr f.number →
    written = (s.setCsr f.number.toNat (maskedStore f.number f.new s)).setPc (s.pc + 4#32) →
    pendingInterrupt written = some k →
    (VectorDirect s → ∃ u t, TrapEntered written u k.cause 0#32 ∧ exec i s = .next t ∧
      Completes u t f.rd (csrGet f.number s) (s.csr 0x305)) ∧
    (¬ VectorDirect s → ∃ t, exec i s = .next t ∧ t.run = .halted .unhandledTrapVectorMode)

/-- R261: below the minimum privilege of the number, IllegalInstruction with the instruction word in `mtval` and nothing
read or written; in Machine mode the test never fires. That the word in `mtval` is `encode i`, and that the test is
modelled in the modes no run reaches, is the model's inference (log 16, DEDUCED). -/
def Obligations.CsrPrivilege : Prop :=
  ∀ (i : Instr) (s : State) (f : CsrForm), csrForm i s = some f →
    (s.priv.bits.toNat < f.number.toNat / 256 % 4 → ∃ t, exec i s = .next t ∧ Raises s t 2#32 (encode i)) ∧
    (s.priv = .machine → ¬ s.priv.bits.toNat < f.number.toNat / 256 % 4)

/-! ### Environment calls and trap return (46_system.md) -/

/-- R281, R282 (D26), R312, R313: ECALL and EBREAK take the trap: cause 11 and 3, `mtval` 0, `mepc` their own address. -/
def Obligations.EnvironmentCallAndBreakpoint : Prop :=
  ∀ (s : State) (rs1 rd : RegNum),
    (∃ t, exec (.ecall rs1 rd) s = .next t ∧ Raises s t 11#32 0#32) ∧
    (∃ t, exec (.ebreak rs1 rd) s = .next t ∧ Raises s t 3#32 0#32)

/-- R284 (D24): MRET sets MIE to MPIE, MPIE to 1, MPP to `0b11`, keeps every other bit of `mstatus`, enters Machine mode and
goes to `mepc`; nothing else changes but the counters. -/
def Obligations.MretRestoresTheStatus : Prop :=
  ∀ (s : State) (rs2 rs1 rd : RegNum), ∃ t, exec (.mret rs2 rs1 rd) s = .next t ∧
    t.pc = s.csr 0x341 ∧ t.priv = .machine ∧
    (t.csr 0x300).getLsbD 3 = (s.csr 0x300).getLsbD 7 ∧ (t.csr 0x300).getLsbD 7 = true ∧
    (t.csr 0x300).getLsbD 11 = true ∧ (t.csr 0x300).getLsbD 12 = true ∧
    (∀ k, k ∉ [3, 7, 11, 12] → (t.csr 0x300).getLsbD k = (s.csr 0x300).getLsbD k) ∧
    CsrsKept (0x300 :: counterCsrs) s t ∧ CountedOnce s t ∧ RegsKept [] s t ∧ MemoryKept s t ∧
    t.reservation = s.reservation ∧ DevicesKept s t ∧ t.run = s.run ∧ t.cfg = s.cfg

/-- R315: an MRET after a trap entry resumes: `pc` is the `pc` at the entry, MIE is as before the entry, and every register,
byte of memory, device and mode is as before. -/
def Obligations.MretUndoesATrap : Prop :=
  ∀ (s u : State) (cause tval : Word) (rs2 rs1 rd : RegNum), s.priv = .machine → VectorDirect s → u = trap cause tval s →
    ∃ t, exec (.mret rs2 rs1 rd) u = .next t ∧ t.pc = s.pc ∧
      (t.csr 0x300).getLsbD 3 = (s.csr 0x300).getLsbD 3 ∧
      (∀ k, k ∉ [7, 11, 12] → (t.csr 0x300).getLsbD k = (s.csr 0x300).getLsbD k) ∧
      CsrsKept ([0x300, 0x341, 0x342, 0x343] ++ counterCsrs) s t ∧ RegsKept [] s t ∧ MemoryKept s t ∧
      t.reservation = s.reservation ∧ DevicesKept s t ∧ ModeKept s t

/-! ### Rules of the whole machine -/

/-- R27, R99: the reservation "is set by `LR.W`, cleared by a successful `SC.W`, read by `SC.W`, and touched by nothing
else": no other instruction, no trap and no interrupt changes it. For a next state that is halted this rests on log 10. -/
def Obligations.ReservationOnlyByLrAndSc : Prop :=
  (∀ (i : Instr) (s t : State), exec i s = .next t → t.reservation ≠ s.reservation →
    (t.reservation = true ∧ ∃ rd rs1 rs2 aq rl, i = .lrW rd rs1 rs2 aq rl) ∨
    (t.reservation = false ∧ ∃ rd rs1 rs2 aq rl, i = .scW rd rs1 rs2 aq rl)) ∧
  (∀ (i : Instr) (s u : State), cycleFront s = .run i u → u.reservation = s.reservation) ∧
  (∀ s t : State, cycleFront s = .ended (.next t) → t.reservation = s.reservation) ∧
  (∀ (cause tval : Word) (s : State), (trap cause tval s).reservation = s.reservation)

/-- R13, R52, R85, R97, R150: whatever an instruction does, trap and halt included, a register that changed is its
destination, a byte of memory that changed lies in the RAM access it makes with `MemWrite`, and a CSR that changed under no
CSR instruction is one of the raw paths'. Of a halted next state this rests on the model's choice that it keeps what was
written (log 10): R29 relies on `run` and `uart_out` of it only. -/
def Obligations.OnlyDestinationsChange : Prop :=
  ∀ (i : Instr) (s t : State), exec i s = .next t →
    (∀ r, t.x r ≠ s.x r → destination i = some r) ∧
    (∀ a, t.byte a ≠ s.byte a → ∃ w addr, writeAccess i s = some (w, addr) ∧ RamAccess s w addr ∧
      addr.toNat ≤ a ∧ a < addr.toNat + w.bytes) ∧
    (csrForm i s = none → CsrsKept ([0x300, 0x341, 0x342, 0x343, 0x344] ++ counterCsrs) s t)

/-- Every step keeps the invariant: canonical memory and CSR file, memory within RAM, `x[0] = 0`, Machine mode, the forced and
constant fields of the CSRs, `minstret = mcycle`. For a next state that is halted this rests on log 10. -/
def Obligations.StepKeepsInvariant : Prop :=
  ∀ s t : State, Inv s → step s = .next t → Inv t

/-- R7, R26, R28, R30: over every step the parameters are constant, Machine mode stays, the UART's output only grows, the
clock never runs back. For the mode and the clock of a next state that is halted this rests on log 10. -/
def Obligations.StepExtends : Prop :=
  ∀ s t : State, step s = .next t → Extends s t

/-- R300, R309, R29: with the default parameter every cycle of a running machine ends in a next state and every instruction
does; the one refusal is that of the other parameter value (log 11), the one fault that of a halted machine (log 10). -/
def Obligations.StepAlwaysAnswers : Prop :=
  ∀ s : State,
    (s.cfg.unmappedMmio = .readZeroWriteIgnored → s.run = .running → ∃ t, step s = .next t) ∧
    (s.cfg.unmappedMmio = .readZeroWriteIgnored → ∀ i, ∃ t, exec i s = .next t) ∧
    (∀ r, step s = .refused r → s.cfg.unmappedMmio = .refuse ∧ ∃ a, r = .unmappedMmio a) ∧
    (∀ f, step s = .fault f → ∃ why, f = .halted why ∧ s.run = .halted why)
end

