-- ==== Sys2Proof/Laws/Sparse.lean ====
section
/-!
SUPPORT. Laws of sparse tables: a read after a write of the same key gives the value written, a write leaves every other
key alone, a write keeps the canonical form and the range of the keys, and equal canonical tables are equal data.
-/

namespace Sys2Proof.Machine.Sparse

variable {α : Type}

theorem get_erase_same (u : α) (t : List (Nat × α)) (a : Nat) : get u (erase t a) a = u := by
  induction t with
  | nil => rfl
  | cons p rest ih =>
    obtain ⟨k, v⟩ := p
    by_cases h : a = k <;> simp [erase, get, h] <;> simpa [h] using ih

theorem get_erase_other (u : α) (t : List (Nat × α)) {a b : Nat} (h : b ≠ a) : get u (erase t a) b = get u t b := by
  induction t with
  | nil => rfl
  | cons p rest ih =>
    obtain ⟨k, v⟩ := p
    by_cases hk : a = k
    · subst hk
      simp [erase, get, h, ih]
    · simp [erase, get, hk, ih]

theorem get_insert_other (u : α) (t : List (Nat × α)) {a b : Nat} (v : α) (h : b ≠ a) :
    get u (insert t a v) b = get u t b := by
  induction t with
  | nil => simp [insert, get, h]
  | cons p rest ih =>
    obtain ⟨k, w⟩ := p
    by_cases hk : a < k <;> simp [insert, get, hk, h, ih]

theorem get_insert_erase (u : α) (t : List (Nat × α)) (a : Nat) (v : α) : get u (insert (erase t a) a v) a = v := by
  induction t with
  | nil => simp [erase, insert, get]
  | cons p rest ih =>
    obtain ⟨k, w⟩ := p
    by_cases hk : a = k
    · simpa [erase, hk] using (hk ▸ ih)
    · by_cases hlt : a < k <;> simp [erase, insert, get, hk, hlt, ih]

variable [DecidableEq α]

/-- A read after a write of the same key. -/
@[simp] theorem get_put_same (u : α) (t : List (Nat × α)) (a : Nat) (v : α) : get u (put u t a v) a = v := by
  unfold put
  split
  · next h => rw [get_erase_same, h]
  · exact get_insert_erase u t a v

/-- A write leaves every other key alone. -/
theorem get_put_other (u : α) (t : List (Nat × α)) {a b : Nat} (v : α) (h : b ≠ a) :
    get u (put u t a v) b = get u t b := by
  unfold put
  split
  · exact get_erase_other u t h
  · rw [get_insert_other u _ v h, get_erase_other u t h]

/-- Both at once. -/
theorem get_put (u : α) (t : List (Nat × α)) (a b : Nat) (v : α) :
    get u (put u t a v) b = if b = a then v else get u t b := by
  split
  · next h => subst h; simp
  · next h => exact get_put_other u t v h

/-! ### The canonical form -/

theorem wfFrom_mono (u : α) (t : List (Nat × α)) {m n : Nat} (h : m ≤ n) (hw : wfFrom u n t = true) :
    wfFrom u m t = true := by
  cases t with
  | nil => rfl
  | cons p rest =>
    obtain ⟨k, v⟩ := p
    simp only [wfFrom, Bool.and_eq_true, decide_eq_true_eq] at *
    exact ⟨⟨by omega, hw.1.2⟩, hw.2⟩

theorem wfFrom_erase (u : α) (t : List (Nat × α)) (a m : Nat) (hw : wfFrom u m t = true) :
    wfFrom u m (erase t a) = true := by
  induction t generalizing m with
  | nil => rfl
  | cons p rest ih =>
    obtain ⟨k, v⟩ := p
    simp only [wfFrom, Bool.and_eq_true, decide_eq_true_eq] at hw
    by_cases hk : a = k
    · simp only [erase, hk, if_true]
      exact wfFrom_mono u _ (by omega) (hk ▸ ih (k + 1) hw.2)
    · simp only [erase, hk, if_false, wfFrom, Bool.and_eq_true, decide_eq_true_eq]
      exact ⟨hw.1, ih _ hw.2⟩

/-- No entry of the table has the key. -/
def Free (a : Nat) (t : List (Nat × α)) : Prop := ∀ p ∈ t, p.1 ≠ a

omit [DecidableEq α] in
theorem free_erase (t : List (Nat × α)) (a : Nat) : Free a (erase t a) := by
  induction t with
  | nil => simp [erase, Free]
  | cons p rest ih =>
    obtain ⟨k, v⟩ := p
    by_cases hk : a = k
    · simpa [erase, hk] using (hk ▸ ih)
    · intro q hq
      simp only [erase, hk, if_false, List.mem_cons] at hq
      rcases hq with rfl | hq
      · exact fun h => hk h.symm
      · exact ih q hq

theorem wfFrom_insert (u : α) (t : List (Nat × α)) (a m : Nat) (v : α) (hv : v ≠ u) (hm : m ≤ a) (hf : Free a t)
    (hw : wfFrom u m t = true) : wfFrom u m (insert t a v) = true := by
  induction t generalizing m with
  | nil => simp [insert, wfFrom, hv, hm]
  | cons p rest ih =>
    obtain ⟨k, w⟩ := p
    have hka : k ≠ a := hf (k, w) (by simp)
    simp only [wfFrom, Bool.and_eq_true, decide_eq_true_eq] at hw
    by_cases hlt : a < k
    · simp only [insert, hlt, if_true, wfFrom, Bool.and_eq_true, decide_eq_true_eq]
      exact ⟨⟨hm, hv⟩, ⟨by omega, hw.1.2⟩, hw.2⟩
    · simp only [insert, hlt, if_false, wfFrom, Bool.and_eq_true, decide_eq_true_eq]
      exact ⟨hw.1, ih _ (by omega) (fun q hq => hf q (List.mem_cons_of_mem _ hq)) hw.2⟩

/-- A write keeps the canonical form. -/
theorem wf_put (u : α) (t : List (Nat × α)) (a : Nat) (v : α) (hw : wf u t = true) : wf u (put u t a v) = true := by
  unfold put wf at *
  split
  · exact wfFrom_erase u t a 0 hw
  · next hv => exact wfFrom_insert u _ a 0 v hv (Nat.zero_le _) (free_erase t a) (wfFrom_erase u t a 0 hw)

omit [DecidableEq α] in
theorem within_erase (lo hi : Nat) (t : List (Nat × α)) (a : Nat) (h : within lo hi t = true) :
    within lo hi (erase t a) = true := by
  induction t with
  | nil => rfl
  | cons p rest ih =>
    obtain ⟨k, v⟩ := p
    simp only [within, Bool.and_eq_true, decide_eq_true_eq] at h
    by_cases hk : a = k
    · simpa [erase, hk] using (hk ▸ ih h.2)
    · simp only [erase, hk, if_false, within, Bool.and_eq_true, decide_eq_true_eq]
      exact ⟨h.1, ih h.2⟩

omit [DecidableEq α] in
theorem within_insert (lo hi : Nat) (t : List (Nat × α)) (a : Nat) (v : α) (hlo : lo ≤ a) (hhi : a < hi)
    (h : within lo hi t = true) : within lo hi (insert t a v) = true := by
  induction t with
  | nil => simp [insert, within, hlo, hhi]
  | cons p rest ih =>
    obtain ⟨k, w⟩ := p
    simp only [within, Bool.and_eq_true, decide_eq_true_eq] at h
    by_cases hlt : a < k
    · simp [insert, hlt, within, hlo, hhi, h]
    · simp [insert, hlt, within, h, ih h.2]

/-- A write in a range keeps the keys in the range. -/
theorem within_put (u : α) (lo hi : Nat) (t : List (Nat × α)) (a : Nat) (v : α) (hlo : lo ≤ a) (hhi : a < hi)
    (h : within lo hi t = true) : within lo hi (put u t a v) = true := by
  unfold put
  split
  · exact within_erase lo hi t a h
  · exact within_insert lo hi _ a v hlo hhi (within_erase lo hi t a h)

/-! ### Equal canonical tables are equal data -/

theorem get_below (u : α) (t : List (Nat × α)) {m a : Nat} (hw : wfFrom u m t = true) (h : a < m) : get u t a = u := by
  induction t generalizing m with
  | nil => rfl
  | cons p rest ih =>
    obtain ⟨k, v⟩ := p
    simp only [wfFrom, Bool.and_eq_true, decide_eq_true_eq] at hw
    have hak : a ≠ k := by omega
    simp only [get, hak, if_false]
    exact ih hw.2 (by omega)

theorem ext_from (u : α) (s t : List (Nat × α)) {m n : Nat} (hs : wfFrom u m s = true) (ht : wfFrom u n t = true)
    (h : ∀ a, get u s a = get u t a) : s = t := by
  induction s generalizing t m n with
  | nil =>
    cases t with
    | nil => rfl
    | cons p rest =>
      obtain ⟨k, v⟩ := p
      simp only [wfFrom, Bool.and_eq_true, decide_eq_true_eq] at ht
      exact absurd (by simpa [get] using (h k).symm) ht.1.2
  | cons p rest ih =>
    obtain ⟨k, v⟩ := p
    cases t with
    | nil =>
      simp only [wfFrom, Bool.and_eq_true, decide_eq_true_eq] at hs
      exact absurd (by simpa [get] using h k) hs.1.2
    | cons q rest' =>
      obtain ⟨k', v'⟩ := q
      simp only [wfFrom, Bool.and_eq_true, decide_eq_true_eq] at hs ht
      have hk : k = k' := by
        rcases Nat.lt_trichotomy k k' with hlt | heq | hgt
        · have := h k
          simp only [get, if_true, if_neg (show k ≠ k' by omega), get_below u rest' ht.2 (show k < k' + 1 by omega)] at this
          exact absurd this hs.1.2
        · exact heq
        · have := h k'
          simp only [get, if_true, if_neg (show k' ≠ k by omega), get_below u rest hs.2 (show k' < k + 1 by omega)] at this
          exact absurd this.symm ht.1.2
      subst hk
      have hv : v = v' := by simpa [get] using h k
      subst hv
      rw [ih rest' hs.2 ht.2 fun a => ?_]
      by_cases ha : a = k
      · subst ha
        rw [get_below u rest hs.2 (by omega), get_below u rest' ht.2 (by omega)]
      · simpa [get, ha] using h a

/-- Canonical tables that read alike are equal. -/
theorem ext_of_wf (u : α) (s t : List (Nat × α)) (hs : wf u s = true) (ht : wf u t = true)
    (h : ∀ a, get u s a = get u t a) : s = t := ext_from u s t hs ht h

end Sys2Proof.Machine.Sparse
end

