-- ==== Sys2Proof/Laws/State.lean ====
section
/-!
SUPPORT. The state's record laws: one lemma per field per update, and what the accessors `x`, `csr` and `byte` read after
each update. No later proof unfolds a record update.
-/

namespace Sys2Proof.Machine.State

variable (s : State)

/-! ### Fields after a register write -/

@[simp] theorem setX_pc (r : RegNum) (v : Word) : (s.setX r v).pc = s.pc := by unfold setX; split <;> rfl
@[simp] theorem setX_priv (r : RegNum) (v : Word) : (s.setX r v).priv = s.priv := by unfold setX; split <;> rfl
@[simp] theorem setX_csrs (r : RegNum) (v : Word) : (s.setX r v).csrs = s.csrs := by unfold setX; split <;> rfl
@[simp] theorem setX_reservation (r : RegNum) (v : Word) : (s.setX r v).reservation = s.reservation := by unfold setX; split <;> rfl
@[simp] theorem setX_mtimecmp (r : RegNum) (v : Word) : (s.setX r v).mtimecmp = s.mtimecmp := by unfold setX; split <;> rfl
@[simp] theorem setX_mem (r : RegNum) (v : Word) : (s.setX r v).mem = s.mem := by unfold setX; split <;> rfl
@[simp] theorem setX_run (r : RegNum) (v : Word) : (s.setX r v).run = s.run := by unfold setX; split <;> rfl
@[simp] theorem setX_uartOut (r : RegNum) (v : Word) : (s.setX r v).uartOut = s.uartOut := by unfold setX; split <;> rfl
@[simp] theorem setX_clock (r : RegNum) (v : Word) : (s.setX r v).clock = s.clock := by unfold setX; split <;> rfl
@[simp] theorem setX_cfg (r : RegNum) (v : Word) : (s.setX r v).cfg = s.cfg := by unfold setX; split <;> rfl

/-! ### Fields after `setPc` -/

@[simp] theorem setPc_regs (t : Word) : (s.setPc t).regs = s.regs := rfl
@[simp] theorem setPc_pc (t : Word) : (s.setPc t).pc = t := rfl
@[simp] theorem setPc_priv (t : Word) : (s.setPc t).priv = s.priv := rfl
@[simp] theorem setPc_csrs (t : Word) : (s.setPc t).csrs = s.csrs := rfl
@[simp] theorem setPc_reservation (t : Word) : (s.setPc t).reservation = s.reservation := rfl
@[simp] theorem setPc_mtimecmp (t : Word) : (s.setPc t).mtimecmp = s.mtimecmp := rfl
@[simp] theorem setPc_mem (t : Word) : (s.setPc t).mem = s.mem := rfl
@[simp] theorem setPc_run (t : Word) : (s.setPc t).run = s.run := rfl
@[simp] theorem setPc_uartOut (t : Word) : (s.setPc t).uartOut = s.uartOut := rfl
@[simp] theorem setPc_clock (t : Word) : (s.setPc t).clock = s.clock := rfl
@[simp] theorem setPc_cfg (t : Word) : (s.setPc t).cfg = s.cfg := rfl

/-! ### Fields after `advancePc` -/

@[simp] theorem advancePc_regs : (s.advancePc).regs = s.regs := rfl
@[simp] theorem advancePc_pc : (s.advancePc).pc = s.pc + 4#32 := rfl
@[simp] theorem advancePc_priv : (s.advancePc).priv = s.priv := rfl
@[simp] theorem advancePc_csrs : (s.advancePc).csrs = s.csrs := rfl
@[simp] theorem advancePc_reservation : (s.advancePc).reservation = s.reservation := rfl
@[simp] theorem advancePc_mtimecmp : (s.advancePc).mtimecmp = s.mtimecmp := rfl
@[simp] theorem advancePc_mem : (s.advancePc).mem = s.mem := rfl
@[simp] theorem advancePc_run : (s.advancePc).run = s.run := rfl
@[simp] theorem advancePc_uartOut : (s.advancePc).uartOut = s.uartOut := rfl
@[simp] theorem advancePc_clock : (s.advancePc).clock = s.clock := rfl
@[simp] theorem advancePc_cfg : (s.advancePc).cfg = s.cfg := rfl

/-! ### Fields after `setCsr` -/

@[simp] theorem setCsr_regs (a : Nat) (v : Word) : (s.setCsr a v).regs = s.regs := rfl
@[simp] theorem setCsr_pc (a : Nat) (v : Word) : (s.setCsr a v).pc = s.pc := rfl
@[simp] theorem setCsr_priv (a : Nat) (v : Word) : (s.setCsr a v).priv = s.priv := rfl
@[simp] theorem setCsr_csrs (a : Nat) (v : Word) : (s.setCsr a v).csrs = Sparse.put csrUnlisted s.csrs a v := rfl
@[simp] theorem setCsr_reservation (a : Nat) (v : Word) : (s.setCsr a v).reservation = s.reservation := rfl
@[simp] theorem setCsr_mtimecmp (a : Nat) (v : Word) : (s.setCsr a v).mtimecmp = s.mtimecmp := rfl
@[simp] theorem setCsr_mem (a : Nat) (v : Word) : (s.setCsr a v).mem = s.mem := rfl
@[simp] theorem setCsr_run (a : Nat) (v : Word) : (s.setCsr a v).run = s.run := rfl
@[simp] theorem setCsr_uartOut (a : Nat) (v : Word) : (s.setCsr a v).uartOut = s.uartOut := rfl
@[simp] theorem setCsr_clock (a : Nat) (v : Word) : (s.setCsr a v).clock = s.clock := rfl
@[simp] theorem setCsr_cfg (a : Nat) (v : Word) : (s.setCsr a v).cfg = s.cfg := rfl

/-! ### Fields after `setByte` -/

@[simp] theorem setByte_regs (a : Nat) (v : Byte) : (s.setByte a v).regs = s.regs := rfl
@[simp] theorem setByte_pc (a : Nat) (v : Byte) : (s.setByte a v).pc = s.pc := rfl
@[simp] theorem setByte_priv (a : Nat) (v : Byte) : (s.setByte a v).priv = s.priv := rfl
@[simp] theorem setByte_csrs (a : Nat) (v : Byte) : (s.setByte a v).csrs = s.csrs := rfl
@[simp] theorem setByte_reservation (a : Nat) (v : Byte) : (s.setByte a v).reservation = s.reservation := rfl
@[simp] theorem setByte_mtimecmp (a : Nat) (v : Byte) : (s.setByte a v).mtimecmp = s.mtimecmp := rfl
@[simp] theorem setByte_mem (a : Nat) (v : Byte) : (s.setByte a v).mem = Sparse.put ramUnlisted s.mem a v := rfl
@[simp] theorem setByte_run (a : Nat) (v : Byte) : (s.setByte a v).run = s.run := rfl
@[simp] theorem setByte_uartOut (a : Nat) (v : Byte) : (s.setByte a v).uartOut = s.uartOut := rfl
@[simp] theorem setByte_clock (a : Nat) (v : Byte) : (s.setByte a v).clock = s.clock := rfl
@[simp] theorem setByte_cfg (a : Nat) (v : Byte) : (s.setByte a v).cfg = s.cfg := rfl

/-! ### Fields after `halt` -/

@[simp] theorem halt_regs (why : HaltReason) : (s.halt why).regs = s.regs := rfl
@[simp] theorem halt_pc (why : HaltReason) : (s.halt why).pc = s.pc := rfl
@[simp] theorem halt_priv (why : HaltReason) : (s.halt why).priv = s.priv := rfl
@[simp] theorem halt_csrs (why : HaltReason) : (s.halt why).csrs = s.csrs := rfl
@[simp] theorem halt_reservation (why : HaltReason) : (s.halt why).reservation = s.reservation := rfl
@[simp] theorem halt_mtimecmp (why : HaltReason) : (s.halt why).mtimecmp = s.mtimecmp := rfl
@[simp] theorem halt_mem (why : HaltReason) : (s.halt why).mem = s.mem := rfl
@[simp] theorem halt_run (why : HaltReason) : (s.halt why).run = .halted why := rfl
@[simp] theorem halt_uartOut (why : HaltReason) : (s.halt why).uartOut = s.uartOut := rfl
@[simp] theorem halt_clock (why : HaltReason) : (s.halt why).clock = s.clock := rfl
@[simp] theorem halt_cfg (why : HaltReason) : (s.halt why).cfg = s.cfg := rfl

/-! ### Fields after `setReservation` -/

@[simp] theorem setReservation_regs (b : Bool) : (s.setReservation b).regs = s.regs := rfl
@[simp] theorem setReservation_pc (b : Bool) : (s.setReservation b).pc = s.pc := rfl
@[simp] theorem setReservation_priv (b : Bool) : (s.setReservation b).priv = s.priv := rfl
@[simp] theorem setReservation_csrs (b : Bool) : (s.setReservation b).csrs = s.csrs := rfl
@[simp] theorem setReservation_reservation (b : Bool) : (s.setReservation b).reservation = b := rfl
@[simp] theorem setReservation_mtimecmp (b : Bool) : (s.setReservation b).mtimecmp = s.mtimecmp := rfl
@[simp] theorem setReservation_mem (b : Bool) : (s.setReservation b).mem = s.mem := rfl
@[simp] theorem setReservation_run (b : Bool) : (s.setReservation b).run = s.run := rfl
@[simp] theorem setReservation_uartOut (b : Bool) : (s.setReservation b).uartOut = s.uartOut := rfl
@[simp] theorem setReservation_clock (b : Bool) : (s.setReservation b).clock = s.clock := rfl
@[simp] theorem setReservation_cfg (b : Bool) : (s.setReservation b).cfg = s.cfg := rfl

/-! ### Fields after `uartPut` -/

@[simp] theorem uartPut_regs (b : Byte) : (s.uartPut b).regs = s.regs := rfl
@[simp] theorem uartPut_pc (b : Byte) : (s.uartPut b).pc = s.pc := rfl
@[simp] theorem uartPut_priv (b : Byte) : (s.uartPut b).priv = s.priv := rfl
@[simp] theorem uartPut_csrs (b : Byte) : (s.uartPut b).csrs = s.csrs := rfl
@[simp] theorem uartPut_reservation (b : Byte) : (s.uartPut b).reservation = s.reservation := rfl
@[simp] theorem uartPut_mtimecmp (b : Byte) : (s.uartPut b).mtimecmp = s.mtimecmp := rfl
@[simp] theorem uartPut_mem (b : Byte) : (s.uartPut b).mem = s.mem := rfl
@[simp] theorem uartPut_run (b : Byte) : (s.uartPut b).run = s.run := rfl
@[simp] theorem uartPut_uartOut (b : Byte) : (s.uartPut b).uartOut = s.uartOut ++ [b] := rfl
@[simp] theorem uartPut_clock (b : Byte) : (s.uartPut b).clock = s.clock := rfl
@[simp] theorem uartPut_cfg (b : Byte) : (s.uartPut b).cfg = s.cfg := rfl

/-! ### Fields after `setMtimecmp` -/

@[simp] theorem setMtimecmp_regs (t : Dword) : (s.setMtimecmp t).regs = s.regs := rfl
@[simp] theorem setMtimecmp_pc (t : Dword) : (s.setMtimecmp t).pc = s.pc := rfl
@[simp] theorem setMtimecmp_priv (t : Dword) : (s.setMtimecmp t).priv = s.priv := rfl
@[simp] theorem setMtimecmp_csrs (t : Dword) : (s.setMtimecmp t).csrs = s.csrs := rfl
@[simp] theorem setMtimecmp_reservation (t : Dword) : (s.setMtimecmp t).reservation = s.reservation := rfl
@[simp] theorem setMtimecmp_mtimecmp (t : Dword) : (s.setMtimecmp t).mtimecmp = t := rfl
@[simp] theorem setMtimecmp_mem (t : Dword) : (s.setMtimecmp t).mem = s.mem := rfl
@[simp] theorem setMtimecmp_run (t : Dword) : (s.setMtimecmp t).run = s.run := rfl
@[simp] theorem setMtimecmp_uartOut (t : Dword) : (s.setMtimecmp t).uartOut = s.uartOut := rfl
@[simp] theorem setMtimecmp_clock (t : Dword) : (s.setMtimecmp t).clock = s.clock := rfl
@[simp] theorem setMtimecmp_cfg (t : Dword) : (s.setMtimecmp t).cfg = s.cfg := rfl

/-! ### Fields after `setPriv` -/

@[simp] theorem setPriv_regs (p : Priv) : (s.setPriv p).regs = s.regs := rfl
@[simp] theorem setPriv_pc (p : Priv) : (s.setPriv p).pc = s.pc := rfl
@[simp] theorem setPriv_priv (p : Priv) : (s.setPriv p).priv = p := rfl
@[simp] theorem setPriv_csrs (p : Priv) : (s.setPriv p).csrs = s.csrs := rfl
@[simp] theorem setPriv_reservation (p : Priv) : (s.setPriv p).reservation = s.reservation := rfl
@[simp] theorem setPriv_mtimecmp (p : Priv) : (s.setPriv p).mtimecmp = s.mtimecmp := rfl
@[simp] theorem setPriv_mem (p : Priv) : (s.setPriv p).mem = s.mem := rfl
@[simp] theorem setPriv_run (p : Priv) : (s.setPriv p).run = s.run := rfl
@[simp] theorem setPriv_uartOut (p : Priv) : (s.setPriv p).uartOut = s.uartOut := rfl
@[simp] theorem setPriv_clock (p : Priv) : (s.setPriv p).clock = s.clock := rfl
@[simp] theorem setPriv_cfg (p : Priv) : (s.setPriv p).cfg = s.cfg := rfl

/-! ### Fields after `sampleClock` -/

@[simp] theorem sampleClock_regs : (s.sampleClock).regs = s.regs := rfl
@[simp] theorem sampleClock_pc : (s.sampleClock).pc = s.pc := rfl
@[simp] theorem sampleClock_priv : (s.sampleClock).priv = s.priv := rfl
@[simp] theorem sampleClock_csrs : (s.sampleClock).csrs = s.csrs := rfl
@[simp] theorem sampleClock_reservation : (s.sampleClock).reservation = s.reservation := rfl
@[simp] theorem sampleClock_mtimecmp : (s.sampleClock).mtimecmp = s.mtimecmp := rfl
@[simp] theorem sampleClock_mem : (s.sampleClock).mem = s.mem := rfl
@[simp] theorem sampleClock_run : (s.sampleClock).run = s.run := rfl
@[simp] theorem sampleClock_uartOut : (s.sampleClock).uartOut = s.uartOut := rfl
@[simp] theorem sampleClock_clock : (s.sampleClock).clock = s.clock.sample := rfl
@[simp] theorem sampleClock_cfg : (s.sampleClock).cfg = s.cfg := rfl

/-! ### A write of RAM changes memory only -/

@[simp] theorem ramWrite_regs (w : Width) (a : Nat) (v : Word) : (s.ramWrite w a v).regs = s.regs := by cases w <;> rfl
@[simp] theorem ramWrite_pc (w : Width) (a : Nat) (v : Word) : (s.ramWrite w a v).pc = s.pc := by cases w <;> rfl
@[simp] theorem ramWrite_priv (w : Width) (a : Nat) (v : Word) : (s.ramWrite w a v).priv = s.priv := by cases w <;> rfl
@[simp] theorem ramWrite_csrs (w : Width) (a : Nat) (v : Word) : (s.ramWrite w a v).csrs = s.csrs := by cases w <;> rfl
@[simp] theorem ramWrite_reservation (w : Width) (a : Nat) (v : Word) : (s.ramWrite w a v).reservation = s.reservation := by cases w <;> rfl
@[simp] theorem ramWrite_mtimecmp (w : Width) (a : Nat) (v : Word) : (s.ramWrite w a v).mtimecmp = s.mtimecmp := by cases w <;> rfl
@[simp] theorem ramWrite_run (w : Width) (a : Nat) (v : Word) : (s.ramWrite w a v).run = s.run := by cases w <;> rfl
@[simp] theorem ramWrite_uartOut (w : Width) (a : Nat) (v : Word) : (s.ramWrite w a v).uartOut = s.uartOut := by cases w <;> rfl
@[simp] theorem ramWrite_clock (w : Width) (a : Nat) (v : Word) : (s.ramWrite w a v).clock = s.clock := by cases w <;> rfl
@[simp] theorem ramWrite_cfg (w : Width) (a : Nat) (v : Word) : (s.ramWrite w a v).cfg = s.cfg := by cases w <;> rfl

/-! ### Registers -/

/-- `x[0]` reads 0 in every state (R21). -/
@[simp] theorem x_zero : s.x 0 = 0#32 := by simp [x]

/-- A register write as every later read sees it (R21, R22). -/
theorem x_setX (r q : RegNum) (v : Word) : (s.setX r v).x q = if q = r ∧ r ≠ 0 then v else s.x q := by
  by_cases hr : r = 0
  · simp [setX, hr]
  · by_cases hq : q = r
    · subst hq
      simp [setX, x, hr]
    · have : r.val ≠ q.val := fun h => hq (Fin.ext h.symm)
      simp [setX, x, hr, hq, Vector.getElem_set_ne, this]

/-- The destination register after its write. -/
theorem x_setX_same (r : RegNum) (v : Word) : (s.setX r v).x r = if r = 0 then 0#32 else v := by
  rw [x_setX]
  by_cases h : r = 0 <;> simp [h]

/-- Every other register after a write. -/
theorem x_setX_other {r q : RegNum} (v : Word) (h : q ≠ r) : (s.setX r v).x q = s.x q := by
  simp [x_setX, h]

/-- Slot 0 of the register storage is never written. -/
@[simp] theorem setX_slotZero (r : RegNum) (v : Word) : (s.setX r v).regs[0] = s.regs[0] := by
  unfold setX
  split
  · rfl
  · next h =>
    have : r.val ≠ 0 := fun hv => h (Fin.ext hv)
    simp [Vector.getElem_set_ne, this]

/-- The order of a register write and a `pc` write does not matter. -/
theorem setX_setPc (r : RegNum) (v t : Word) : (s.setPc t).setX r v = (s.setX r v).setPc t := by
  unfold setX
  split <;> rfl

@[simp] theorem setPc_x (t : Word) (r : RegNum) : (s.setPc t).x r = s.x r := rfl
@[simp] theorem advancePc_x (r : RegNum) : (s.advancePc).x r = s.x r := rfl
@[simp] theorem setCsr_x (a : Nat) (v : Word) (r : RegNum) : (s.setCsr a v).x r = s.x r := rfl
@[simp] theorem setByte_x (a : Nat) (v : Byte) (r : RegNum) : (s.setByte a v).x r = s.x r := rfl
@[simp] theorem halt_x (why : HaltReason) (r : RegNum) : (s.halt why).x r = s.x r := rfl
@[simp] theorem setReservation_x (b : Bool) (r : RegNum) : (s.setReservation b).x r = s.x r := rfl
@[simp] theorem uartPut_x (b : Byte) (r : RegNum) : (s.uartPut b).x r = s.x r := rfl
@[simp] theorem setMtimecmp_x (t : Dword) (r : RegNum) : (s.setMtimecmp t).x r = s.x r := rfl
@[simp] theorem setPriv_x (p : Priv) (r : RegNum) : (s.setPriv p).x r = s.x r := rfl
@[simp] theorem sampleClock_x (r : RegNum) : (s.sampleClock).x r = s.x r := rfl
@[simp] theorem ramWrite_x (w : Width) (a : Nat) (v : Word) (r : RegNum) : (s.ramWrite w a v).x r = s.x r := by
  simp [x]

/-! ### CSR storage -/

/-- A CSR's storage after a raw write (R31). -/
theorem csr_setCsr (a b : Nat) (v : Word) : (s.setCsr a v).csr b = if b = a then v else s.csr b :=
  Sparse.get_put csrUnlisted s.csrs a b v

@[simp] theorem csr_setCsr_same (a : Nat) (v : Word) : (s.setCsr a v).csr a = v := by simp [csr_setCsr]

theorem csr_setCsr_other {a b : Nat} (v : Word) (h : b ≠ a) : (s.setCsr a v).csr b = s.csr b := by simp [csr_setCsr, h]

@[simp] theorem setX_csr (r : RegNum) (v : Word) (a : Nat) : (s.setX r v).csr a = s.csr a := by simp [csr]
@[simp] theorem setPc_csr (t : Word) (a : Nat) : (s.setPc t).csr a = s.csr a := rfl
@[simp] theorem advancePc_csr (a : Nat) : (s.advancePc).csr a = s.csr a := rfl
@[simp] theorem setByte_csr (b : Nat) (v : Byte) (a : Nat) : (s.setByte b v).csr a = s.csr a := rfl
@[simp] theorem halt_csr (why : HaltReason) (a : Nat) : (s.halt why).csr a = s.csr a := rfl
@[simp] theorem setReservation_csr (b : Bool) (a : Nat) : (s.setReservation b).csr a = s.csr a := rfl
@[simp] theorem uartPut_csr (b : Byte) (a : Nat) : (s.uartPut b).csr a = s.csr a := rfl
@[simp] theorem setMtimecmp_csr (t : Dword) (a : Nat) : (s.setMtimecmp t).csr a = s.csr a := rfl
@[simp] theorem setPriv_csr (p : Priv) (a : Nat) : (s.setPriv p).csr a = s.csr a := rfl
@[simp] theorem sampleClock_csr (a : Nat) : (s.sampleClock).csr a = s.csr a := rfl
@[simp] theorem ramWrite_csr (w : Width) (b : Nat) (v : Word) (a : Nat) : (s.ramWrite w b v).csr a = s.csr a := by
  simp [csr]

/-! ### Bytes of RAM -/

/-- A byte of RAM after a byte write (R97). -/
theorem byte_setByte (a b : Nat) (v : Byte) : (s.setByte a v).byte b = if b = a then v else s.byte b :=
  Sparse.get_put ramUnlisted s.mem a b v

@[simp] theorem setX_byte (r : RegNum) (v : Word) (a : Nat) : (s.setX r v).byte a = s.byte a := by simp [byte]
@[simp] theorem setPc_byte (t : Word) (a : Nat) : (s.setPc t).byte a = s.byte a := rfl
@[simp] theorem advancePc_byte (a : Nat) : (s.advancePc).byte a = s.byte a := rfl
@[simp] theorem setCsr_byte (b : Nat) (v : Word) (a : Nat) : (s.setCsr b v).byte a = s.byte a := rfl
@[simp] theorem halt_byte (why : HaltReason) (a : Nat) : (s.halt why).byte a = s.byte a := rfl
@[simp] theorem setReservation_byte (b : Bool) (a : Nat) : (s.setReservation b).byte a = s.byte a := rfl
@[simp] theorem uartPut_byte (b : Byte) (a : Nat) : (s.uartPut b).byte a = s.byte a := rfl
@[simp] theorem setMtimecmp_byte (t : Dword) (a : Nat) : (s.setMtimecmp t).byte a = s.byte a := rfl
@[simp] theorem setPriv_byte (p : Priv) (a : Nat) : (s.setPriv p).byte a = s.byte a := rfl
@[simp] theorem sampleClock_byte (a : Nat) : (s.sampleClock).byte a = s.byte a := rfl

/-- A byte of RAM after a write of `w` bytes: byte `k` of the value at `a + k`, every other byte as before (R83, R85). -/
theorem byte_ramWrite (w : Width) (a b : Nat) (v : Word) :
    (s.ramWrite w a v).byte b = if a ≤ b ∧ b < a + w.bytes then v.extractLsb' (8 * (b - a)) 8 else s.byte b := by
  by_cases h : a ≤ b ∧ b < a + w.bytes
  · obtain ⟨k, rfl⟩ := Nat.exists_eq_add_of_le h.1
    rw [if_pos h, Nat.add_sub_cancel_left]
    have hk : k < w.bytes := by omega
    cases w <;> simp only [Width.bytes] at hk <;> interval_cases k <;> simp [ramWrite, byte_setByte]
  · rw [if_neg h]
    cases w <;> simp only [Width.bytes] at h <;>
      simp only [ramWrite, byte_setByte, if_neg (show ¬ b = a by omega)] <;>
      first
      | rw [if_neg (show ¬ b = a + 3 by omega), if_neg (show ¬ b = a + 2 by omega), if_neg (show ¬ b = a + 1 by omega)]
      | rw [if_neg (show ¬ b = a + 1 by omega)]

end Sys2Proof.Machine.State
end

