-- ==== Sys2Proof/Laws/Ops.lean ====
section
/-!
SUPPORT. What the shared operations of Machine/Ops.lean do, once each: the counter step, the trap entry, the raise, the end
of an instruction that writes one register, the interrupt evaluation. Later proofs cite these and unfold nothing.
-/

namespace Sys2Proof.Machine

open State

/-! ### The counter step (R308) -/

theorem counterStep_csr (s : State) (a : Nat) :
    (counterStep s).csr a =
      if a = 0xB82 ∨ a = 0xB80 then (if s.csr 0xB00 + 1#32 = 0#32 then s.csr 0xB80 + 1#32 else s.csr 0xB80)
      else if a = 0xB02 ∨ a = 0xB00 then s.csr 0xB00 + 1#32
      else s.csr a := by
  unfold counterStep
  simp only [csr_setCsr]
  by_cases h1 : a = 0xB82
  · simp [h1]
  by_cases h2 : a = 0xB02
  · simp [h2]
  by_cases h3 : a = 0xB80
  · simp [h3]
  by_cases h4 : a = 0xB00
  · simp [h4]
  simp [h1, h2, h3, h4]

@[simp] theorem counterStep_regs (s : State) : (counterStep s).regs = s.regs := by simp [counterStep]
@[simp] theorem counterStep_pc (s : State) : (counterStep s).pc = s.pc := by simp [counterStep]
@[simp] theorem counterStep_priv (s : State) : (counterStep s).priv = s.priv := by simp [counterStep]
@[simp] theorem counterStep_reservation (s : State) : (counterStep s).reservation = s.reservation := by simp [counterStep]
@[simp] theorem counterStep_mtimecmp (s : State) : (counterStep s).mtimecmp = s.mtimecmp := by simp [counterStep]
@[simp] theorem counterStep_mem (s : State) : (counterStep s).mem = s.mem := by simp [counterStep]
@[simp] theorem counterStep_run (s : State) : (counterStep s).run = s.run := by simp [counterStep]
@[simp] theorem counterStep_uartOut (s : State) : (counterStep s).uartOut = s.uartOut := by simp [counterStep]
@[simp] theorem counterStep_clock (s : State) : (counterStep s).clock = s.clock := by simp [counterStep]
@[simp] theorem counterStep_cfg (s : State) : (counterStep s).cfg = s.cfg := by simp [counterStep]
@[simp] theorem counterStep_x (s : State) (r : RegNum) : (counterStep s).x r = s.x r := by simp [x]
@[simp] theorem counterStep_byte (s : State) (a : Nat) : (counterStep s).byte a = s.byte a := by simp [byte]

/-- A CSR that is no machine counter keeps its storage. -/
theorem counterStep_csr_other (s : State) {a : Nat} (h : a ∉ counterCsrs) : (counterStep s).csr a = s.csr a := by
  simp only [counterCsrs, List.mem_cons, List.not_mem_nil, or_false, not_or] at h
  rw [counterStep_csr, if_neg (by omega), if_neg (by omega)]

/-- The counters count once (R308, R45, R46). -/
theorem counterStep_counts (s : State) : CountedOnce s (counterStep s) where
  cycle := by
    unfold cycleCount
    simp only [counterStep_csr]
    have h0 := (s.csr 0xB00).isLt
    have h1 := (s.csr 0xB80).isLt
    simp only [reduceIte, Nat.reduceEqDiff, or_true, or_self]
    split
    · next h =>
      have : (s.csr 0xB00).toNat = 2 ^ 32 - 1 := by
        have := congrArg BitVec.toNat h
        simp only [BitVec.toNat_add, BitVec.toNat_ofNat] at this
        omega
      simp only [BitVec.toNat_add, BitVec.toNat_ofNat, this]
      omega
    · next h =>
      have : (s.csr 0xB00).toNat + 1 < 2 ^ 32 := by
        rcases Nat.lt_or_ge ((s.csr 0xB00).toNat + 1) (2 ^ 32) with hlt | hge
        · exact hlt
        · exact absurd (BitVec.eq_of_toNat_eq (by simp only [BitVec.toNat_add, BitVec.toNat_ofNat]; omega)) h
      simp only [BitVec.toNat_add, BitVec.toNat_ofNat]
      omega
  instretLow := by simp [counterStep_csr]
  instretHigh := by simp [counterStep_csr]

/-- Everything the counter step does. -/
theorem counterStep_cycleEnds (s : State) : CycleEnds s (counterStep s) where
  counted := counterStep_counts s
  csrs _ h := counterStep_csr_other s h
  regs _ _ := counterStep_x s _
  pc := counterStep_pc s
  memory := counterStep_byte s
  reservation := counterStep_reservation s
  devices := ⟨counterStep_mtimecmp s, counterStep_uartOut s, counterStep_clock s⟩
  mode := ⟨counterStep_priv s, counterStep_run s, counterStep_cfg s⟩

/-! ### How an instruction completes (R150, R306 to R308) -/

/-- An instruction that wrote `v` to `rd` and left `pc` at `target`. -/
theorem completes_retired (s : State) (rd : RegNum) (v target : Word) :
    Completes s (counterStep ((s.setX rd v).setPc target)) rd v target where
  result := by simp [x_setX_same]
  zero := by simp
  regs r hr := by
    have h : r ≠ rd := by simpa using hr
    simp [x_setX_other _ _ h]
  pc := by simp
  counted := by
    have := counterStep_counts ((s.setX rd v).setPc target)
    exact ⟨by simpa [cycleCount] using this.cycle, this.instretLow, this.instretHigh⟩
  csrs a h := by rw [counterStep_csr_other _ h]; simp
  memory a := by simp
  reservation := by simp
  devices := ⟨by simp, by simp, by simp⟩
  mode := ⟨by simp, by simp, by simp⟩

/-- An instruction that wrote no register and left `pc` at `target`. -/
theorem advances_retired (s : State) (target : Word) : Advances s (counterStep (s.setPc target)) target where
  regs _ _ := by simp
  pc := by simp
  counted := by
    have := counterStep_counts (s.setPc target)
    exact ⟨by simpa [cycleCount] using this.cycle, this.instretLow, this.instretHigh⟩
  csrs a h := by rw [counterStep_csr_other _ h]; simp
  memory _ := by simp
  reservation := by simp
  devices := ⟨by simp, by simp, by simp⟩
  mode := ⟨by simp, by simp, by simp⟩

@[simp] theorem advancePc_eq (s : State) : s.advancePc = s.setPc (s.pc + 4#32) := rfl

/-- The end shared by the instructions that write one register and go on. -/
theorem writeResult_completes (rd : RegNum) (v : Word) (s : State) :
    ∃ t, writeResult rd v s = .next t ∧ Completes s t rd v (s.pc + 4#32) :=
  by
  refine ⟨_, ?_, completes_retired s rd v _⟩
  simp [writeResult, retire]

/-! ### The trap entry (R313) -/

theorem mtvecDirect_iff (s : State) : s.mtvecDirect = true ↔ VectorDirect s := by
  unfold mtvecDirect VectorDirect
  rw [beq_iff_eq, BitVec.toNat_eq]
  simp only [BitVec.extractLsb'_toNat, BitVec.toNat_ofNat, Nat.shiftRight_zero]

theorem trapSave_csr (cause tval : Word) (s : State) (a : Nat) :
    (trapSave cause tval s).csr a =
      if a = 0x341 then s.pc
      else if a = 0x300 then mstatusOnTrap s.priv (s.csr 0x300)
      else if a = 0x343 then tval
      else if a = 0x342 then cause
      else s.csr a := by
  simp [trapSave, csr_setCsr]

theorem mstatusOnTrap_bit (p : Priv) (m : Word) (k : Nat) (hk : k < 32) :
    (mstatusOnTrap p m).getLsbD k =
      if k = 3 then false
      else if k = 7 then m.getLsbD 3
      else if k = 11 then p.bits.getLsbD 0
      else if k = 12 then p.bits.getLsbD 1
      else m.getLsbD k := by
  unfold mstatusOnTrap bitAt mieBit
  interval_cases k <;> cases p <;> cases m.getLsbD 3 <;> simp [Priv.bits]

theorem mstatusOnTrap_mpp (p : Priv) (m : Word) : (mstatusOnTrap p m).extractLsb' 11 2 = p.bits := by
  apply BitVec.eq_of_getLsbD_eq
  intro k hk
  rw [BitVec.getLsbD_extractLsb', mstatusOnTrap_bit _ _ _ (by omega)]
  interval_cases k <;> rfl

/-- A trap with `mtvec.MODE = 0`. -/
theorem trap_of_direct (cause tval : Word) {s : State} (h : s.mtvecDirect = true) :
    trap cause tval s = (trapSave cause tval s).setPc (s.csr 0x305) := by simp [trap, h]

/-- A trap with any other `mtvec.MODE`. -/
theorem trap_of_not_direct (cause tval : Word) {s : State} (h : s.mtvecDirect = false) :
    trap cause tval s = (trapSave cause tval s).halt .unhandledTrapVectorMode := by simp [trap, h]

/-- The CSRs after a trap entry, vectored or not. -/
theorem trap_csr (cause tval : Word) (s : State) (a : Nat) :
    (trap cause tval s).csr a = (trapSave cause tval s).csr a := by
  unfold trap
  split <;> rfl

/-- What a trap entry leaves alone, whatever `mtvec` says. -/
theorem trap_kept (cause tval : Word) (s : State) :
    (trap cause tval s).regs = s.regs ∧ (trap cause tval s).priv = s.priv ∧
      (trap cause tval s).reservation = s.reservation ∧ (trap cause tval s).mtimecmp = s.mtimecmp ∧
      (trap cause tval s).mem = s.mem ∧ (trap cause tval s).uartOut = s.uartOut ∧
      (trap cause tval s).clock = s.clock ∧ (trap cause tval s).cfg = s.cfg := by
  unfold trap
  split <;> simp [trapSave]

@[simp] theorem trap_regs (cause tval : Word) (s : State) : (trap cause tval s).regs = s.regs := (trap_kept cause tval s).1
@[simp] theorem trap_priv (cause tval : Word) (s : State) : (trap cause tval s).priv = s.priv := (trap_kept cause tval s).2.1
@[simp] theorem trap_reservation (cause tval : Word) (s : State) : (trap cause tval s).reservation = s.reservation :=
  (trap_kept cause tval s).2.2.1
@[simp] theorem trap_mtimecmp (cause tval : Word) (s : State) : (trap cause tval s).mtimecmp = s.mtimecmp :=
  (trap_kept cause tval s).2.2.2.1
@[simp] theorem trap_mem (cause tval : Word) (s : State) : (trap cause tval s).mem = s.mem := (trap_kept cause tval s).2.2.2.2.1
@[simp] theorem trap_uartOut (cause tval : Word) (s : State) : (trap cause tval s).uartOut = s.uartOut :=
  (trap_kept cause tval s).2.2.2.2.2.1
@[simp] theorem trap_clock (cause tval : Word) (s : State) : (trap cause tval s).clock = s.clock :=
  (trap_kept cause tval s).2.2.2.2.2.2.1
@[simp] theorem trap_cfg (cause tval : Word) (s : State) : (trap cause tval s).cfg = s.cfg :=
  (trap_kept cause tval s).2.2.2.2.2.2.2

/-- Everything a trap entry does. -/
theorem trap_entered (cause tval : Word) (s : State) : TrapEntered s (trap cause tval s) cause tval where
  mcause := by simp [trap_csr, trapSave_csr]
  mtval := by simp [trap_csr, trapSave_csr]
  mepc := by simp [trap_csr, trapSave_csr]
  mpp := by simp [trap_csr, trapSave_csr, mstatusOnTrap_mpp]
  mpie := by rw [trap_csr, trapSave_csr, if_neg (by decide), if_pos rfl, mstatusOnTrap_bit _ _ _ (by decide)]; rfl
  mie := by rw [trap_csr, trapSave_csr, if_neg (by decide), if_pos rfl, mstatusOnTrap_bit _ _ _ (by decide)]; rfl
  mstatusRest k hk h3 h7 h11 h12 := by simp [trap_csr, trapSave_csr, mstatusOnTrap_bit _ _ k hk, h3, h7, h11, h12]
  vectored h := by rw [trap_of_direct _ _ ((mtvecDirect_iff s).2 h)]; exact ⟨rfl, rfl⟩
  unvectored h := by
    have : s.mtvecDirect = false := Bool.eq_false_iff.2 (mt (mtvecDirect_iff s).1 h)
    rw [trap_of_not_direct _ _ this]
    exact ⟨rfl, rfl⟩
  regs r _ := by simp [x]
  csrs a h := by
    simp only [List.mem_cons, List.not_mem_nil, or_false, not_or] at h
    simp [trap_csr, trapSave_csr, h]
  memory a := by simp [byte]
  priv := by simp
  reservation := by simp
  devices := ⟨by simp, by simp, by simp⟩
  cfg := by simp

/-- Everything a raise does (R309, R312). -/
theorem raiseException_raises (e : Exception) (tval : Word) (s : State) :
    ∃ t, raiseException e tval s = .next t ∧ Raises s t e.code tval := by
  unfold raiseException
  split
  · next h =>
    simp only [Bool.and_eq_true, mtvecDirect_iff] at h
    exact ⟨_, rfl, _, trap_entered e.code tval s, .inl ⟨h.1, h.2, counterStep_cycleEnds _⟩⟩
  · next h =>
    simp only [Bool.and_eq_true, mtvecDirect_iff] at h
    exact ⟨_, rfl, _, trap_entered e.code tval s, .inr ⟨h, rfl⟩⟩

/-! ### The trap return (R284) -/

theorem trapReturn_csr (s : State) (a : Nat) :
    (trapReturn s).csr a = if a = 0x300 then mstatusOnMret (s.csr 0x300) else s.csr a := by
  simp [trapReturn, csr_setCsr]

theorem mstatusOnMret_bit (m : Word) (k : Nat) (hk : k < 32) :
    (mstatusOnMret m).getLsbD k =
      if k = 3 then m.getLsbD 7 else if k = 7 ∨ k = 11 ∨ k = 12 then true else m.getLsbD k := by
  unfold mstatusOnMret
  interval_cases k <;> simp

/-! ### The clock (R28) -/

/-- A later sample is never smaller than an earlier one (D32). -/
theorem Clock.mtime_le_sample (c : Clock) : c.mtime ≤ c.sample.mtime := by
  unfold Clock.sample laterOf
  split
  · exact BitVec.le_refl _
  · dsimp only
    split
    · assumption
    · exact BitVec.le_refl _

/-! ### The interrupt evaluation (R320) -/

/-- The interrupt selected depends on `priv` and the CSRs alone. -/
theorem pendingInterrupt_congr {s t : State} (hp : t.priv = s.priv) (hc : ∀ a, t.csr a = s.csr a) :
    pendingInterrupt t = pendingInterrupt s := by
  unfold pendingInterrupt
  rw [hp, hc, hc, hc]

/-- Everything `CheckInterrupts()` can answer. -/
theorem checkInterrupts_cases (s : State) :
    (pendingInterrupt s = none ∧ checkInterrupts s = .notTaken) ∨
    (∃ i, pendingInterrupt s = some i ∧ VectorDirect s ∧ checkInterrupts s = .taken (trap i.cause 0#32 s)) ∨
    (∃ i, pendingInterrupt s = some i ∧ ¬ VectorDirect s ∧ checkInterrupts s = .halted (trap i.cause 0#32 s)) := by
  unfold checkInterrupts
  split
  · next h => exact .inl ⟨h, rfl⟩
  · next i h =>
    by_cases hd : s.mtvecDirect = true
    · exact .inr (.inl ⟨i, h, (mtvecDirect_iff s).1 hd, by simp [hd]⟩)
    · exact .inr (.inr ⟨i, h, mt (mtvecDirect_iff s).2 hd, by simp [hd]⟩)

end Sys2Proof.Machine
end

