-- ==== Sys2Proof/Laws/Bus.lean ====
section
/-!
SUPPORT. The memory bus (20_memory.md R81 to R87): one lemma for each place an access can go, and one for each primitive
that says everything it can answer.
-/

namespace Sys2Proof.Machine

open State

/-! ### Where an access goes -/

theorem outOfRange_iff (w : Width) (a : Word) (s : State) : outOfRange w a s = true ↔ BeyondEnd s w a := by
  simp [outOfRange, BeyondEnd]

theorem inRam_iff (a : Word) (s : State) : inRam a s = true ↔ s.cfg.pageOffset.toNat ≤ a.toNat := by
  simp [inRam, BitVec.le_def]

/-- The three regions of R80. -/
theorem access_cases (s : State) (w : Width) (a : Word) : BeyondEnd s w a ∨ RamAccess s w a ∨ DeviceAccess s w a := by
  unfold BeyondEnd RamAccess DeviceAccess
  omega

theorem RamAccess.inRange {s : State} {w : Width} {a : Word} (h : RamAccess s w a) :
    outOfRange w a s = false ∧ inRam a s = true := by
  refine ⟨Bool.eq_false_iff.2 fun hb => ?_, (inRam_iff a s).2 h.1⟩
  rw [outOfRange_iff] at hb
  exact absurd h.2 (by unfold BeyondEnd at hb; omega)

theorem DeviceAccess.inRange {s : State} {w : Width} {a : Word} (h : DeviceAccess s w a) :
    outOfRange w a s = false ∧ inRam a s = false := by
  refine ⟨Bool.eq_false_iff.2 fun hb => ?_, Bool.eq_false_iff.2 fun hb => ?_⟩
  · rw [outOfRange_iff] at hb
    exact absurd h.2 (by unfold BeyondEnd at hb; omega)
  · rw [inRam_iff] at hb
    exact absurd h.1 (by omega)

/-! ### `MemRead` (R84) -/

theorem memRead_beyond {s : State} {w : Width} {a : Word} (h : BeyondEnd s w a) :
    memRead w a s = .raise .loadAccessFault a := by
  simp [memRead, (outOfRange_iff w a s).2 h]

theorem memRead_null {s : State} {w : Width} (h : ¬ BeyondEnd s w 0#32) :
    memRead w 0#32 s = .halt (s.halt .nullRead) := by
  simp [memRead, Bool.eq_false_iff.2 (mt (outOfRange_iff w 0#32 s).1 h)]

theorem memRead_ram {s : State} {w : Width} {a : Word} (h : RamAccess s w a) (h0 : a ≠ 0#32) :
    memRead w a s = .ok (s.ramRead w a.toNat) s := by
  simp [memRead, h.inRange.1, h.inRange.2, h0]

theorem memRead_device {s : State} {w : Width} {a : Word} (h : DeviceAccess s w a) (h0 : a ≠ 0#32) :
    memRead w a s = (devRead a s).andThen fun v t => .ok (w.truncate v) t := by
  simp [memRead, h.inRange.1, h.inRange.2, h0]

/-- Everything a device read can answer: a value with the state as it was or the clock sampled, or the refusal. -/
theorem devRead_cases (a : Word) (s : State) :
    (∃ v u, devRead a s = .ok v u ∧ (u = s ∨ u = s.sampleClock)) ∨
    (devRead a s = .refuse (.unmappedMmio a) ∧ s.cfg.unmappedMmio = .refuse) := by
  unfold devRead unmappedRead
  split <;> first
    | exact .inl ⟨_, _, rfl, .inl rfl⟩
    | exact .inl ⟨_, _, rfl, .inr rfl⟩
    | (split
       · exact .inl ⟨_, _, rfl, .inl rfl⟩
       · next h => exact .inr ⟨rfl, h⟩)

/-- Everything `MemRead` can answer. -/
theorem memRead_cases (w : Width) (a : Word) (s : State) :
    (BeyondEnd s w a ∧ memRead w a s = .raise .loadAccessFault a) ∨
    (¬ BeyondEnd s w a ∧ a = 0#32 ∧ memRead w a s = .halt (s.halt .nullRead)) ∨
    (∃ v u, memRead w a s = .ok v u ∧ (u = s ∨ u = s.sampleClock)) ∨
    (memRead w a s = .refuse (.unmappedMmio a) ∧ s.cfg.unmappedMmio = .refuse) := by
  by_cases hb : BeyondEnd s w a
  · exact .inl ⟨hb, memRead_beyond hb⟩
  by_cases h0 : a = 0#32
  · subst h0
    exact .inr (.inl ⟨hb, rfl, memRead_null hb⟩)
  rcases access_cases s w a with h | h | h
  · exact absurd h hb
  · exact .inr (.inr (.inl ⟨_, _, memRead_ram h h0, .inl rfl⟩))
  · rcases devRead_cases a s with ⟨v, u, hd, hu⟩ | ⟨hd, hr⟩
    · exact .inr (.inr (.inl ⟨_, u, by rw [memRead_device h h0, hd]; rfl, hu⟩))
    · exact .inr (.inr (.inr ⟨by rw [memRead_device h h0, hd]; rfl, hr⟩))

/-! ### `MemWrite` (R85) -/

theorem memWrite_beyond {s : State} {w : Width} {a : Word} (v : Word) (h : BeyondEnd s w a) :
    memWrite w a v s = .raise .storeAccessFault a := by
  simp [memWrite, (outOfRange_iff w a s).2 h]

theorem memWrite_ram {s : State} {w : Width} {a : Word} (v : Word) (h : RamAccess s w a) :
    memWrite w a v s = .ok () (s.ramWrite w a.toNat v) := by
  simp [memWrite, h.inRange.1, h.inRange.2]

theorem memWrite_device {s : State} {w : Width} {a : Word} (v : Word) (h : DeviceAccess s w a) :
    memWrite w a v s = devWrite a (w.truncate v) s := by
  simp [memWrite, h.inRange.1, h.inRange.2]

/-- The MTIP clear test (R343) samples the clock and writes at most `mip`. -/
theorem mtipClearTest_eq (s : State) :
    mtipClearTest s = s.sampleClock ∨
    mtipClearTest s = s.sampleClock.setCsr 0x344 (s.csr 0x344 &&& 0xFFFFFF7F#32) := by
  unfold mtipClearTest
  split
  · exact .inr rfl
  · exact .inl rfl

/-- Everything a device write can answer. -/
theorem devWrite_cases (a v : Word) (s : State) :
    (∃ u, devWrite a v s = .ok () u ∧
      (u = s ∨ (∃ b, u = s.uartPut b) ∨ (∃ t, u = mtipClearTest (s.setMtimecmp t)))) ∨
    (∃ why, devWrite a v s = .halt (s.halt why)) ∨
    (devWrite a v s = .refuse (.unmappedMmio a) ∧ s.cfg.unmappedMmio = .refuse) := by
  unfold devWrite unmappedWrite sysconWrite
  split <;> first
    | exact .inl ⟨_, rfl, .inl rfl⟩
    | exact .inl ⟨_, rfl, .inr (.inl ⟨_, rfl⟩)⟩
    | exact .inl ⟨_, rfl, .inr (.inr ⟨_, rfl⟩)⟩
    | (split
       · first
         | exact .inl ⟨_, rfl, .inl rfl⟩
         | exact .inr (.inl ⟨_, rfl⟩)
       · first
         | (next h => exact .inr (.inr ⟨rfl, h⟩))
         | (split
            · exact .inr (.inl ⟨_, rfl⟩)
            · exact .inl ⟨_, rfl, .inl rfl⟩))

/-- Everything `MemWrite` can answer. -/
theorem memWrite_cases (w : Width) (a v : Word) (s : State) :
    (BeyondEnd s w a ∧ memWrite w a v s = .raise .storeAccessFault a) ∨
    (RamAccess s w a ∧ memWrite w a v s = .ok () (s.ramWrite w a.toNat v)) ∨
    (DeviceAccess s w a ∧
      ((∃ u, memWrite w a v s = .ok () u ∧
        (u = s ∨ (∃ b, u = s.uartPut b) ∨ (∃ t, u = mtipClearTest (s.setMtimecmp t)))) ∨
      (∃ why, memWrite w a v s = .halt (s.halt why)) ∨
      (memWrite w a v s = .refuse (.unmappedMmio a) ∧ s.cfg.unmappedMmio = .refuse))) := by
  rcases access_cases s w a with h | h | h
  · exact .inl ⟨h, memWrite_beyond v h⟩
  · exact .inr (.inl ⟨h, memWrite_ram v h⟩)
  · exact .inr (.inr ⟨h, memWrite_device (s := s) v h ▸ devWrite_cases a (w.truncate v) s⟩)

/-! ### Values -/

theorem ramRead_word (s : State) (a : Nat) : s.ramRead .word a = wordAt s a := rfl

theorem append_toNat {m n : Nat} (x : BitVec m) (y : BitVec n) : (x ++ y).toNat = x.toNat * 2 ^ n + y.toNat := by
  rw [BitVec.toNat_append, Nat.shiftLeft_eq, Nat.mul_comm, Nat.two_pow_add_eq_or_of_lt y.isLt]

theorem ramRead_byte_toNat (s : State) (a : Nat) : (s.ramRead .byte a).toNat = (s.byte a).toNat := by
  have := (s.byte a).isLt
  simp only [State.ramRead, BitVec.toNat_setWidth]
  omega

theorem ramRead_half_toNat (s : State) (a : Nat) :
    (s.ramRead .half a).toNat = (s.byte (a + 1)).toNat * 2 ^ 8 + (s.byte a).toNat := by
  have h0 := (s.byte a).isLt
  have h1 := (s.byte (a + 1)).isLt
  simp only [State.ramRead, BitVec.toNat_setWidth, append_toNat]
  omega

theorem ramRead_word_toNat (s : State) (a : Nat) :
    (s.ramRead .word a).toNat = (s.byte (a + 3)).toNat * 2 ^ 24 + (s.byte (a + 2)).toNat * 2 ^ 16 +
      (s.byte (a + 1)).toNat * 2 ^ 8 + (s.byte a).toNat := by
  simp only [State.ramRead]
  rw [append_toNat, append_toNat, append_toNat]
  omega

theorem truncate_toNat (w : Width) (v : Word) : (w.truncate v).toNat = lowBytes w v.toNat := by
  cases w
  · exact Nat.and_two_pow_sub_one_eq_mod v.toNat 8
  · exact Nat.and_two_pow_sub_one_eq_mod v.toNat 16
  · exact (Nat.mod_eq_of_lt v.isLt).symm

/-- RAM writes hold the bytes of the value and touch no other byte (R85). -/
theorem ramWrite_holds (s : State) (w : Width) (a : Nat) (v : Word) :
    Holds (s.ramWrite w a v) a w.bytes v ∧ BytesKept a w.bytes s (s.ramWrite w a v) := by
  refine ⟨fun k hk => ?_, fun b hb => ?_⟩
  · rw [byte_ramWrite, if_pos ⟨by omega, by omega⟩, Nat.add_sub_cancel_left]
  · rw [byte_ramWrite, if_neg hb]

/-! ### The canonical form (Memory.wf) -/

theorem setByte_keeps_wf (s : State) (a : Nat) (v : Byte) (h : Memory.wf s.mem = true) :
    Memory.wf (s.setByte a v).mem = true := Sparse.wf_put _ _ _ _ h

theorem ramWrite_keeps_wf (s : State) (w : Width) (a : Nat) (v : Word) (h : Memory.wf s.mem = true) :
    Memory.wf (s.ramWrite w a v).mem = true := by
  cases w <;> simp only [ramWrite] <;> repeat (first | exact h | apply setByte_keeps_wf)

theorem setByte_keeps_within (s : State) (lo hi a : Nat) (v : Byte) (hlo : lo ≤ a) (hhi : a < hi)
    (h : Sparse.within lo hi s.mem = true) : Sparse.within lo hi (s.setByte a v).mem = true :=
  Sparse.within_put _ _ _ _ _ _ hlo hhi h

theorem ramWrite_keeps_within (s : State) (w : Width) (lo hi a : Nat) (v : Word) (hlo : lo ≤ a) (hhi : a + w.bytes ≤ hi)
    (h : Sparse.within lo hi s.mem = true) : Sparse.within lo hi (s.ramWrite w a v).mem = true := by
  cases w <;> simp only [Width.bytes] at hhi <;> simp only [ramWrite] <;>
    repeat (first | exact h | omega | apply setByte_keeps_within)

/-- Memory at reset is canonical. -/
theorem reset_mem_wf : Memory.wf State.reset.mem = true := rfl

end Sys2Proof.Machine
end

