-- ==== Sys2Proof/Laws/Operands.lean ====
section
/-!
SUPPORT. The operand forms, comparisons and M results as integer arithmetic: what each bit-vector definition of
Machine/Operands.lean, Machine/Flags.lean and Machine/MulDiv.lean computes.
-/

namespace Sys2Proof.Machine

/-! ### Immediates (R123 to R128) -/

theorem immU_eq (imm : BitVec 20) : immU imm = BitVec.ofNat 32 (imm.toNat * 2 ^ 12) := by
  apply BitVec.eq_of_toNat_eq
  have := imm.isLt
  show (imm ++ 0#12).toNat = _
  rw [BitVec.toNat_append, BitVec.toNat_ofNat]
  simp only [BitVec.toNat_ofNat, Nat.zero_mod, Nat.or_zero, Nat.shiftLeft_eq]
  omega

theorem imm12_eq_ofInt (imm : BitVec 12) : imm12 imm = BitVec.ofInt 32 imm.toInt := rfl

theorem imm13_eq_ofInt (imm : BitVec 13) : imm13 imm = BitVec.ofInt 32 imm.toInt := rfl

theorem imm21_eq_ofInt (imm : BitVec 21) : imm21 imm = BitVec.ofInt 32 imm.toInt := rfl

/-- Sign extension as R10 states it. -/
theorem imm12_eq_signExtended12 (imm : BitVec 12) : imm12 imm = signExtended12 imm := by
  unfold imm12 signExtended12
  apply BitVec.eq_of_getLsbD_eq
  intro k hk
  rw [BitVec.getLsbD_signExtend]
  have msb : imm.msb = imm.getLsbD 11 := by simp [BitVec.msb_eq_getLsbD_last]
  rw [msb]
  by_cases h12 : k < 12
  · cases h : imm.getLsbD 11 <;> simp [h12, hk]
    interval_cases k <;> simp
  · have : imm.getLsbD k = false := BitVec.getLsbD_of_ge _ _ (by omega)
    cases h : imm.getLsbD 11
    · simp [h12, hk, BitVec.getLsbD_of_ge imm k (by omega)]
    · simp [h12, hk, BitVec.getLsbD_of_ge imm k (by omega)]
      have h12' : 12 ≤ k := by omega
      clear h12 this msb h
      interval_cases k <;> simp

theorem zextUimm_eq (uimm : BitVec 5) : zextUimm uimm = BitVec.ofNat 32 uimm.toNat := by
  simp [zextUimm, ← BitVec.ofNat_toNat]

/-! ### Addition, subtraction, shifts (R9, R172) -/

theorem ofInt_toNat (a : Word) : BitVec.ofInt 32 a.toNat = a := by simp

theorem add_ofInt (a : Word) (n : Int) : a + BitVec.ofInt 32 n = BitVec.ofInt 32 (a.toNat + n) := by
  rw [BitVec.ofInt_add, ofInt_toNat]

theorem add_eq_ofNat (a b : Word) : a + b = BitVec.ofNat 32 (a.toNat + b.toNat) := by
  apply BitVec.eq_of_toNat_eq
  simp

theorem sub_eq_ofInt (a b : Word) : a - b = BitVec.ofInt 32 (a.toNat - b.toNat) := by
  rw [BitVec.sub_eq_add_neg, Int.sub_eq_add_neg, BitVec.ofInt_add, BitVec.ofInt_neg, ofInt_toNat, ofInt_toNat]

theorem shiftLeft_eq_ofNat (a : Word) (n : Nat) : a <<< n = BitVec.ofNat 32 (a.toNat * 2 ^ n) := by
  apply BitVec.eq_of_toNat_eq
  simp [Nat.shiftLeft_eq]

theorem shiftRight_eq_ofNat (a : Word) (n : Nat) : a >>> n = BitVec.ofNat 32 (a.toNat / 2 ^ n) := by
  apply BitVec.eq_of_toNat_eq
  have : a.toNat / 2 ^ n < 2 ^ 32 := Nat.lt_of_le_of_lt (Nat.div_le_self _ _) a.isLt
  simp only [BitVec.toNat_ushiftRight, Nat.shiftRight_eq_div_pow, BitVec.toNat_ofNat]
  exact (Nat.mod_eq_of_lt this).symm

theorem sshiftRight_eq_ofInt (a : Word) (n : Nat) : a.sshiftRight n = BitVec.ofInt 32 (a.toInt / 2 ^ n) := by
  rw [← BitVec.ofInt_toInt (x := a.sshiftRight n), BitVec.toInt_sshiftRight, Int.shiftRight_eq_div_pow]
  norm_cast

/-! ### Comparisons (R172) -/

theorem boolWord_decide (p : Prop) [Decidable p] : boolWord (decide p) = if p then 1#32 else 0#32 := by
  by_cases h : p <;> simp [boolWord, h]

theorem lessSigned_iff (a b : Word) : lessSigned a b = true ↔ a.toInt < b.toInt := by simp [lessSigned]

theorem lessUnsigned_iff (a b : Word) : lessUnsigned a b = true ↔ a.toNat < b.toNat := by simp [lessUnsigned]

theorem toInt_imm12 (imm : BitVec 12) : (imm12 imm).toInt = imm.toInt :=
  BitVec.toInt_signExtend_of_le (by decide)

/-! ### Products (R221 to R224) -/

theorem mul_eq_ofNat (a b : Word) : a * b = BitVec.ofNat 32 (a.toNat * b.toNat) := by
  apply BitVec.eq_of_toNat_eq
  simp

/-- The high word of an exact product: `(p mod 2^64)[63:32]`. -/
theorem highWord_toNat (p : Int) : ((highWord p).toNat : Int) = p % 2 ^ 64 / 2 ^ 32 := by
  unfold highWord
  rw [BitVec.extractLsb'_toNat, BitVec.toNat_ofInt, Nat.shiftRight_eq_div_pow]
  have h0 : 0 ≤ p % 2 ^ 64 := Int.emod_nonneg _ (by decide)
  have h1 : p % 2 ^ 64 < 2 ^ 64 := Int.emod_lt_of_pos _ (by decide)
  omega

theorem highWord_eq_ofInt (p : Int) : highWord p = BitVec.ofInt 32 (p % 2 ^ 64 / 2 ^ 32) := by
  rw [← highWord_toNat, ofInt_toNat]

/-! ### Divisions (R225 to R228) -/

theorem toInt_eq_zero_iff (b : Word) : b.toInt = 0 ↔ b = 0#32 := by
  rw [← BitVec.toInt_inj]
  simp

theorem toInt_eq_min_iff (a : Word) : a.toInt = -2147483648 ↔ a = 0x80000000#32 := by
  rw [← BitVec.toInt_inj]
  simp

theorem toInt_eq_neg_one_iff (b : Word) : b.toInt = -1 ↔ b = 0xFFFFFFFF#32 := by
  rw [← BitVec.toInt_inj]
  simp

theorem divSigned_eq (a b : Word) :
    divSigned a b = if b = 0#32 then 0xFFFFFFFF#32
      else if a = 0x80000000#32 ∧ b = 0xFFFFFFFF#32 then 0x80000000#32
      else BitVec.ofInt 32 (a.toInt.tdiv b.toInt) := by
  simp only [divSigned, toInt_eq_zero_iff, toInt_eq_min_iff, toInt_eq_neg_one_iff]

theorem remSigned_eq (a b : Word) :
    remSigned a b = if b = 0#32 then a
      else if a = 0x80000000#32 ∧ b = 0xFFFFFFFF#32 then 0#32
      else BitVec.ofInt 32 (a.toInt.tmod b.toInt) := by
  simp only [remSigned, toInt_eq_zero_iff, toInt_eq_min_iff, toInt_eq_neg_one_iff, Int.tmod_def]

/-! ### Minimum and maximum (R249 to R252) -/

theorem amoMin_eq (t src : Word) : amoMin t src = BitVec.ofInt 32 (min t.toInt src.toInt) := by
  unfold amoMin
  split
  · next h => rw [min_eq_left h, BitVec.ofInt_toInt]
  · next h => rw [min_eq_right (by omega), BitVec.ofInt_toInt]

theorem amoMax_eq (t src : Word) : amoMax t src = BitVec.ofInt 32 (max t.toInt src.toInt) := by
  unfold amoMax
  split
  · next h => rw [max_eq_left h, BitVec.ofInt_toInt]
  · next h => rw [max_eq_right (by omega), BitVec.ofInt_toInt]

theorem amoMinu_eq (t src : Word) : amoMinu t src = BitVec.ofNat 32 (min t.toNat src.toNat) := by
  unfold amoMinu
  split
  · next h => rw [min_eq_left h, BitVec.ofNat_toNat, BitVec.setWidth_eq]
  · next h => rw [min_eq_right (by omega), BitVec.ofNat_toNat, BitVec.setWidth_eq]

theorem amoMaxu_eq (t src : Word) : amoMaxu t src = BitVec.ofNat 32 (max t.toNat src.toNat) := by
  unfold amoMaxu
  split
  · next h => rw [max_eq_left h, BitVec.ofNat_toNat, BitVec.setWidth_eq]
  · next h => rw [max_eq_right (by omega), BitVec.ofNat_toNat, BitVec.setWidth_eq]

/-! ### Targets (R180 to R182, R189) -/

theorem aligned4_iff (a : Word) : aligned4 a = true ↔ a.toNat % 4 = 0 := by
  unfold aligned4
  rw [beq_iff_eq, BitVec.toNat_eq]
  simp only [BitVec.extractLsb'_toNat, BitVec.toNat_ofNat, Nat.shiftRight_zero]

theorem jalTarget_eq (pc : Word) (offset : BitVec 21) :
    jalTarget pc offset = BitVec.ofInt 32 (pc.toNat + offset.toInt) := by
  rw [jalTarget, imm21_eq_ofInt, add_ofInt]

theorem branchTarget_eq (pc : Word) (offset : BitVec 13) :
    branchTarget pc offset = BitVec.ofInt 32 (pc.toNat + offset.toInt) := by
  rw [branchTarget, imm13_eq_ofInt, add_ofInt]

theorem clear_bit_zero (a : Word) : a &&& 0xFFFFFFFE#32 = BitVec.ofNat 32 (a.toNat / 2 * 2) := by
  have h : BitVec.ofNat 32 (a.toNat / 2 * 2) = (a >>> 1) <<< 1 := by
    rw [shiftLeft_eq_ofNat, BitVec.toNat_ushiftRight, Nat.shiftRight_eq_div_pow]
    rfl
  rw [h]
  apply BitVec.eq_of_getLsbD_eq
  intro k hk
  interval_cases k <;> simp

theorem jalrTarget_eq (base : Word) (imm : BitVec 12) :
    jalrTarget base imm = BitVec.ofNat 32 ((BitVec.ofInt 32 (base.toNat + imm.toInt)).toNat / 2 * 2) := by
  rw [jalrTarget, clear_bit_zero, imm12_eq_ofInt, add_ofInt]

/-! ### Values of loads (R201 to R205) -/

theorem sext8_eq (v : Word) : sext8 v = BitVec.ofInt 32 (BitVec.ofNat 8 v.toNat).toInt := by
  simp [sext8, BitVec.signExtend, ← BitVec.ofNat_toNat]

theorem sext16_eq (v : Word) : sext16 v = BitVec.ofInt 32 (BitVec.ofNat 16 v.toNat).toInt := by
  simp [sext16, BitVec.signExtend, ← BitVec.ofNat_toNat]

theorem zext8_eq (v : Word) : zext8 v = BitVec.ofNat 32 (v.toNat % 2 ^ 8) := by
  apply BitVec.eq_of_toNat_eq
  simp [zext8]

theorem zext16_eq (v : Word) : zext16 v = BitVec.ofNat 32 (v.toNat % 2 ^ 16) := by
  apply BitVec.eq_of_toNat_eq
  simp [zext16]

end Sys2Proof.Machine
end

