-- ==== Sys2Proof/Laws/Csr.lean ====
section
/-!
SUPPORT. The CSR file and the six CSR instructions: the classes of R271 as equations of `csrSetter`, everything a setter
can answer, and the six instructions as one (R260).
-/

namespace Sys2Proof.Machine

open State

/-! ### The three classes of numbers (R271) -/

theorem csr_class_fixed : ∀ a : CsrNum, FixedCsr a → csrWritable a = false ∨ csrSetter a = .noOp := by
  intro a h
  have hp : ∀ n : Nat, n < 4096 → (0x3A0 ≤ n ∧ n ≤ 0x3A3) ∨ (0x3B0 ≤ n ∧ n ≤ 0x3BF) → isPmp (BitVec.ofNat 12 n) = true := by
    intro n _ hn
    rcases hn with hn | hn
    · obtain ⟨h1, h2⟩ := hn
      interval_cases n <;> rfl
    · obtain ⟨h1, h2⟩ := hn
      interval_cases n <;> rfl
  have hlt := a.isLt
  rcases h with h | h | h | h | h
  · have : a = 0x301#12 := BitVec.eq_of_toNat_eq h
    subst this
    exact .inr rfl
  · have := hp a.toNat hlt (.inl h)
    rw [BitVec.ofNat_toNat, BitVec.setWidth_eq] at this
    right
    unfold csrSetter
    simp only [← BitVec.toNat_inj, BitVec.toNat_ofNat]
    rw [if_neg (by omega), if_neg (by omega), if_neg (by omega), if_neg (by omega), if_pos (by simp [this])]
  · have := hp a.toNat hlt (.inr h)
    rw [BitVec.ofNat_toNat, BitVec.setWidth_eq] at this
    right
    unfold csrSetter
    simp only [← BitVec.toNat_inj, BitVec.toNat_ofNat]
    rw [if_neg (by omega), if_neg (by omega), if_neg (by omega), if_neg (by omega), if_pos (by simp [this])]
  · simp only [counterCsrs, List.mem_cons, List.not_mem_nil, or_false] at h
    right
    rcases h with h | h | h | h
    · obtain rfl : a = 0xB00#12 := BitVec.eq_of_toNat_eq h
      rfl
    · obtain rfl : a = 0xB80#12 := BitVec.eq_of_toNat_eq h
      rfl
    · obtain rfl : a = 0xB02#12 := BitVec.eq_of_toNat_eq h
      rfl
    · obtain rfl : a = 0xB82#12 := BitVec.eq_of_toNat_eq h
      rfl
  · left
    unfold csrWritable
    have : a.extractLsb' 10 2 = 0b11#2 := by
      apply BitVec.eq_of_toNat_eq
      rw [BitVec.extractLsb'_toNat, Nat.shiftRight_eq_div_pow]
      simp only [BitVec.toNat_ofNat]
      omega
    rw [this]
    rfl

theorem isPmp_iff (a : CsrNum) :
    isPmp a = true ↔ (0x3A0 ≤ a.toNat ∧ a.toNat ≤ 0x3A3) ∨ (0x3B0 ≤ a.toNat ∧ a.toNat ≤ 0x3BF) := by
  have hlt := a.isLt
  unfold isPmp
  rw [Bool.or_eq_true, beq_iff_eq, beq_iff_eq, ← BitVec.toNat_inj, ← BitVec.toNat_inj, BitVec.extractLsb'_toNat,
    BitVec.extractLsb'_toNat, Nat.shiftRight_eq_div_pow, Nat.shiftRight_eq_div_pow]
  simp only [BitVec.toNat_ofNat]
  omega

/-- Whether a number permits writes (R49, R263). -/
theorem csrWritable_iff (a : CsrNum) : csrWritable a = true ↔ a.toNat < 0xC00 := by
  have hlt := a.isLt
  unfold csrWritable
  rw [bne_iff_ne, ne_eq, ← BitVec.toNat_inj, BitVec.extractLsb'_toNat, Nat.shiftRight_eq_div_pow]
  simp only [BitVec.toNat_ofNat]
  omega

/-- The minimum privilege of a number (R49, R261). -/
theorem csrMinPriv_lt_iff (p : Priv) (a : CsrNum) : p.bits < csrMinPriv a ↔ p.bits.toNat < a.toNat / 256 % 4 := by
  unfold csrMinPriv
  rw [BitVec.lt_def, BitVec.extractLsb'_toNat, Nat.shiftRight_eq_div_pow]

/-- A number of none of the other classes has the plain setter (R33, R49). -/
theorem csrSetter_plain {a : CsrNum} (hf : ¬ FixedCsr a) (hr : ¬ RecheckedCsr a) :
    csrWritable a = true ∧ csrSetter a = .plain := by
  simp only [FixedCsr, counterCsrs, RecheckedCsr, List.mem_cons, List.not_mem_nil, or_false, not_or] at hf hr
  have hp : isPmp a = false := Bool.eq_false_iff.2 (mt (isPmp_iff a).1 (by omega))
  refine ⟨(csrWritable_iff a).2 (by omega), ?_⟩
  unfold csrSetter isCounter isIdentification
  simp only [hp, Bool.or_eq_true, beq_iff_eq, ← BitVec.toNat_inj, BitVec.toNat_ofNat]
  rw [if_neg (by omega), if_neg (by omega), if_neg (by omega), if_neg (by omega), if_neg (by simp; omega)]

/-- The masked numbers (R35, R37 to R39): the value stored, then the re-check. -/
theorem csrSet_rechecked {a : CsrNum} (h : RecheckedCsr a) (v : Word) (s : State) :
    csrWritable a = true ∧
      (csrSet a v s = recheck (s.setCsr a.toNat (maskedStore a v s)) ∨ (a.toNat = 0x303 ∧ csrSet a v s = recheck s)) := by
  simp only [RecheckedCsr, List.mem_cons, List.not_mem_nil, or_false] at h
  refine ⟨(csrWritable_iff a).2 (by omega), ?_⟩
  rcases h with h | h | h | h
  · obtain rfl : a = 0x300#12 := BitVec.eq_of_toNat_eq h
    exact .inl rfl
  · exact .inr ⟨h, by
      obtain rfl : a = 0x303#12 := BitVec.eq_of_toNat_eq h
      rfl⟩
  · obtain rfl : a = 0x304#12 := BitVec.eq_of_toNat_eq h
    exact .inl rfl
  · obtain rfl : a = 0x344#12 := BitVec.eq_of_toNat_eq h
    exact .inl rfl

/-! ### Reads -/

/-- What each number reads as (R33, R39, R47). -/
theorem csrGet_eq (s : State) (a : CsrNum) :
    csrGet a s = if a.toNat = 0x303 then 0#32 else if a.toNat = 0xC00 then s.csr 0xB00
      else if a.toNat = 0xC80 then s.csr 0xB80 else if a.toNat = 0xC02 then s.csr 0xB02
      else if a.toNat = 0xC82 then s.csr 0xB82 else s.csr a.toNat := by
  unfold csrGet csrGetter
  simp only [← BitVec.toNat_inj, BitVec.toNat_ofNat]
  by_cases h1 : a.toNat = 0x303
  · simp [h1]
  by_cases h2 : a.toNat = 0xC00
  · simp [h2]
  by_cases h3 : a.toNat = 0xC02
  · simp [h3]
  by_cases h4 : a.toNat = 0xC80
  · simp [h4]
  by_cases h5 : a.toNat = 0xC82
  · simp [h5]
  simp [h1, h2, h3, h4, h5]

/-! ### Writes -/

/-- Everything a re-check can answer (R320, R321). -/
theorem recheck_cases (s : State) :
    (pendingInterrupt s = none ∧ recheck s = .ok () s) ∨
    (∃ i, pendingInterrupt s = some i ∧ VectorDirect s ∧ recheck s = .ok () (trap i.cause 0#32 s)) ∨
    (∃ i, pendingInterrupt s = some i ∧ ¬ VectorDirect s ∧ recheck s = .halt (trap i.cause 0#32 s)) := by
  unfold recheck
  rcases checkInterrupts_cases s with ⟨h, e⟩ | ⟨i, h, hd, e⟩ | ⟨i, h, hd, e⟩
  · exact .inl ⟨h, by rw [e]⟩
  · exact .inr (.inl ⟨i, h, hd, by rw [e]⟩)
  · exact .inr (.inr ⟨i, h, hd, by rw [e]⟩)

/-- Everything step 4 of R260 can answer (R33 to R49, R271). -/
theorem csrWriteStep_cases (a : CsrNum) (new : Word) (req : Bool) (s : State) :
    ((req = false ∨ FixedCsr a) ∧ csrWriteStep a new req s = .ok () s) ∨
    (req = true ∧ ¬ FixedCsr a ∧ ¬ RecheckedCsr a ∧ csrWriteStep a new req s = .ok () (s.setCsr a.toNat new)) ∨
    (req = true ∧ RecheckedCsr a ∧ (csrWriteStep a new req s = recheck (s.setCsr a.toNat (maskedStore a new s)) ∨
      (a.toNat = 0x303 ∧ csrWriteStep a new req s = recheck s))) := by
  cases req
  · exact .inl ⟨.inl rfl, by simp [csrWriteStep]⟩
  by_cases hr : RecheckedCsr a
  · obtain ⟨hw, h⟩ := csrSet_rechecked hr new s
    exact .inr (.inr ⟨rfl, hr, by simpa [csrWriteStep, hw] using h⟩)
  by_cases hf : FixedCsr a
  · refine .inl ⟨.inr hf, ?_⟩
    rcases csr_class_fixed a hf with h | h <;> simp [csrWriteStep, csrSet, h]
  · obtain ⟨hw, h⟩ := csrSetter_plain hf hr
    exact .inr (.inl ⟨rfl, hf, hr, by simp [csrWriteStep, csrSet, hw, h]⟩)

/-- A CSR instruction that stored `stored` in a number that is no machine counter, then wrote `v` to `rd`. -/
theorem csrWrites_retired (s : State) (rd : RegNum) (v : Word) (a : Nat) (stored : Word) (ha : a ∉ counterCsrs) :
    CsrWrites s (counterStep (((s.advancePc).setCsr a stored).setX rd v)) rd v a stored (s.pc + 4#32) := by
  have h := completes_retired (s.setCsr a stored) rd v (s.pc + 4#32)
  rw [show ((s.setCsr a stored).setX rd v).setPc (s.pc + 4#32) = ((s.advancePc).setCsr a stored).setX rd v from
    (setX_setPc _ _ _ _).symm] at h
  have ha' := ha
  simp only [counterCsrs, List.mem_cons, List.not_mem_nil, or_false, not_or] at ha'
  exact {
    result := h.result
    zero := h.zero
    regs := h.regs
    written := (h.csrs a ha).trans (by simp)
    csrs := fun b hb => by
      simp only [List.mem_cons, not_or] at hb
      rw [h.csrs b (by simpa using hb.2), csr_setCsr_other _ _ hb.1]
    counted := ⟨by
      rw [h.counted.1]
      simp only [cycleCount]
      rw [csr_setCsr_other _ _ (by omega), csr_setCsr_other _ _ (by omega)], h.counted.2, h.counted.3⟩
    pc := h.pc
    memory := h.memory
    reservation := h.reservation
    devices := ⟨h.devices.1, h.devices.2, h.devices.3⟩
    mode := ⟨h.mode.1, h.mode.2, h.mode.3⟩ }

/-! ### The six instructions as one (R260, R263) -/

theorem requested_reg (r : RegNum) : (r != 0) = decide (r ≠ 0) := by
  by_cases h : r = 0 <;> simp [h]

theorem requested_uimm (u : BitVec 5) : (u != 0#5) = decide (u.toNat ≠ 0) := by
  have h : u = 0#5 ↔ u.toNat = 0 := by simp [← BitVec.toNat_inj]
  by_cases h0 : u = 0#5
  · simp [h0]
  · have h1 := mt h.2 h0
    simp [h0, h1]

/-- Every CSR instruction is `csrInstr` on its row of R263. -/
theorem exec_csr {i : Instr} {s : State} {f : CsrForm} (h : csrForm i s = some f) :
    exec i s = csrInstr (encode i) f.rd f.number (fun _ => f.new) f.requested s := by
  cases i <;> simp only [csrForm, reduceCtorEq, Option.some.injEq] at h <;> subst h
  all_goals simp only [exec, execCsrrw, execCsrrs, execCsrrc, execCsrrwi, execCsrrsi, execCsrrci, csrInstr, csrExchange,
    zextUimm_eq, requested_reg, requested_uimm]

/-- The privilege test passed. -/
theorem csrInstr_permitted {w : Word} {rd : RegNum} {a : CsrNum} {new : Word → Word} {req : Bool} {s : State}
    (h : ¬ s.priv.bits.toNat < a.toNat / 256 % 4) :
    csrInstr w rd a new req s = finish s (csrExchange rd a new req s) := by
  simp [csrInstr, mt (csrMinPriv_lt_iff s.priv a).1 h]

end Sys2Proof.Machine
end

