-- ==== Sys2Proof/Laws/Encoding.lean ====
section
/-!
SUPPORT. Laws of the formats (30_encoding.md R121 to R128): each field of each encoded format reads back as the field it was
made of, and a word is its fields put together.
-/

namespace Sys2Proof

@[simp] theorem regBits_toFin (r : RegNum) : (regBits r).toFin = r := rfl

@[simp] theorem regBits_of_toFin (b : BitVec 5) : regBits b.toFin = b := rfl

@[simp] theorem flagBit_bit (b : Bool) : (flagBit b).getLsbD 0 = b := by cases b <;> rfl

/-- A bit is the one bit of the field of width 1. -/
theorem bit_is_field (w : Word) (k : Nat) : w.getLsbD k = (w.extractLsb' k 1).getLsbD 0 := by simp

/-- A field that lies in the low part of a concatenation. -/
theorem field_low {m n : Nat} (x : BitVec m) (y : BitVec n) {lo len : Nat} (h : lo + len ≤ n) :
    (x ++ y).extractLsb' lo len = y.extractLsb' lo len := BitVec.extractLsb'_append_eq_of_add_le h

/-- A field that lies in the high part of a concatenation. -/
theorem field_high {m n : Nat} (x : BitVec m) (y : BitVec n) {lo len : Nat} (h : n ≤ lo) :
    (x ++ y).extractLsb' lo len = x.extractLsb' (lo - n) len := BitVec.extractLsb'_append_eq_of_le h

/-- A field that is the whole of a value. -/
theorem field_all {n : Nat} (x : BitVec n) : x.extractLsb' 0 n = x := BitVec.extractLsb'_eq_self

/-! ### R -/

section

variable (f7 : BitVec 7) (rs2 rs1 : RegNum) (f3 : BitVec 3) (rd : RegNum) (op : BitVec 7)

@[simp] theorem opcodeField_encR : opcodeField (encR f7 rs2 rs1 f3 rd op) = op := by
  have h : (f7 ++ regBits rs2 ++ regBits rs1 ++ f3 ++ regBits rd ++ op).extractLsb' 0 7 = op := by
    simp (disch := decide) only [field_low, field_all]
  exact h

@[simp] theorem funct3Field_encR : funct3Field (encR f7 rs2 rs1 f3 rd op) = f3 := by
  have h : (f7 ++ regBits rs2 ++ regBits rs1 ++ f3 ++ regBits rd ++ op).extractLsb' 12 3 = f3 := by
    simp (disch := decide) only [field_low, field_high, field_all, Nat.reduceSub]
  exact h

@[simp] theorem funct7Field_encR : funct7Field (encR f7 rs2 rs1 f3 rd op) = f7 := by
  have h : (f7 ++ regBits rs2 ++ regBits rs1 ++ f3 ++ regBits rd ++ op).extractLsb' 25 7 = f7 := by
    simp (disch := decide) only [field_high, field_all, Nat.reduceSub]
  exact h

@[simp] theorem rdField_encR : rdField (encR f7 rs2 rs1 f3 rd op) = rd := by
  have h : (f7 ++ regBits rs2 ++ regBits rs1 ++ f3 ++ regBits rd ++ op).extractLsb' 7 5 = regBits rd := by
    simp (disch := decide) only [field_low, field_high, field_all, Nat.reduceSub]
  exact congrArg BitVec.toFin h

@[simp] theorem rs1Field_encR : rs1Field (encR f7 rs2 rs1 f3 rd op) = rs1 := by
  have h : (f7 ++ regBits rs2 ++ regBits rs1 ++ f3 ++ regBits rd ++ op).extractLsb' 15 5 = regBits rs1 := by
    simp (disch := decide) only [field_low, field_high, field_all, Nat.reduceSub]
  exact congrArg BitVec.toFin h

@[simp] theorem rs2Field_encR : rs2Field (encR f7 rs2 rs1 f3 rd op) = rs2 := by
  have h : (f7 ++ regBits rs2 ++ regBits rs1 ++ f3 ++ regBits rd ++ op).extractLsb' 20 5 = regBits rs2 := by
    simp (disch := decide) only [field_low, field_high, field_all, Nat.reduceSub]
  exact congrArg BitVec.toFin h

@[simp] theorem csrField_encR : csrField (encR f7 rs2 rs1 f3 rd op) = f7 ++ regBits rs2 := by
  have h : (f7 ++ regBits rs2 ++ regBits rs1 ++ f3 ++ regBits rd ++ op).extractLsb' 20 12 = f7 ++ regBits rs2 := by
    simp (disch := decide) only [field_high, field_all, Nat.reduceSub]
  exact h

end

/-! ### I -/

section

variable (imm : BitVec 12) (rs1 : RegNum) (f3 : BitVec 3) (rd : RegNum) (op : BitVec 7)

@[simp] theorem opcodeField_encI : opcodeField (encI imm rs1 f3 rd op) = op := by
  have h : (imm ++ regBits rs1 ++ f3 ++ regBits rd ++ op).extractLsb' 0 7 = op := by
    simp (disch := decide) only [field_low, field_all]
  exact h

@[simp] theorem funct3Field_encI : funct3Field (encI imm rs1 f3 rd op) = f3 := by
  have h : (imm ++ regBits rs1 ++ f3 ++ regBits rd ++ op).extractLsb' 12 3 = f3 := by
    simp (disch := decide) only [field_low, field_high, field_all, Nat.reduceSub]
  exact h

@[simp] theorem immIField_encI : immIField (encI imm rs1 f3 rd op) = imm := by
  have h : (imm ++ regBits rs1 ++ f3 ++ regBits rd ++ op).extractLsb' 20 12 = imm := by
    simp (disch := decide) only [field_high, field_all, Nat.reduceSub]
  exact h

@[simp] theorem csrField_encI : csrField (encI imm rs1 f3 rd op) = imm := by
  have h : (imm ++ regBits rs1 ++ f3 ++ regBits rd ++ op).extractLsb' 20 12 = imm := by
    simp (disch := decide) only [field_high, field_all, Nat.reduceSub]
  exact h

@[simp] theorem rdField_encI : rdField (encI imm rs1 f3 rd op) = rd := by
  have h : (imm ++ regBits rs1 ++ f3 ++ regBits rd ++ op).extractLsb' 7 5 = regBits rd := by
    simp (disch := decide) only [field_low, field_high, field_all, Nat.reduceSub]
  exact congrArg BitVec.toFin h

@[simp] theorem rs1Field_encI : rs1Field (encI imm rs1 f3 rd op) = rs1 := by
  have h : (imm ++ regBits rs1 ++ f3 ++ regBits rd ++ op).extractLsb' 15 5 = regBits rs1 := by
    simp (disch := decide) only [field_low, field_high, field_all, Nat.reduceSub]
  exact congrArg BitVec.toFin h

end

/-! ### Shift -/

section

variable (f7 : BitVec 7) (shamt : BitVec 5) (rs1 : RegNum) (f3 : BitVec 3) (rd : RegNum)

@[simp] theorem opcodeField_encShift : opcodeField (encShift f7 shamt rs1 f3 rd) = 0x13#7 := by
  have h : (f7 ++ shamt ++ regBits rs1 ++ f3 ++ regBits rd ++ 0x13#7).extractLsb' 0 7 = 0x13#7 := by
    simp (disch := decide) only [field_low, field_all]
  exact h

@[simp] theorem funct3Field_encShift : funct3Field (encShift f7 shamt rs1 f3 rd) = f3 := by
  have h : (f7 ++ shamt ++ regBits rs1 ++ f3 ++ regBits rd ++ 0x13#7).extractLsb' 12 3 = f3 := by
    simp (disch := decide) only [field_low, field_high, field_all, Nat.reduceSub]
  exact h

@[simp] theorem funct7Field_encShift : funct7Field (encShift f7 shamt rs1 f3 rd) = f7 := by
  have h : (f7 ++ shamt ++ regBits rs1 ++ f3 ++ regBits rd ++ 0x13#7).extractLsb' 25 7 = f7 := by
    simp (disch := decide) only [field_high, field_all, Nat.reduceSub]
  exact h

@[simp] theorem shamtField_encShift : shamtField (encShift f7 shamt rs1 f3 rd) = shamt := by
  have h : (f7 ++ shamt ++ regBits rs1 ++ f3 ++ regBits rd ++ 0x13#7).extractLsb' 20 5 = shamt := by
    simp (disch := decide) only [field_low, field_high, field_all, Nat.reduceSub]
  exact h

@[simp] theorem rdField_encShift : rdField (encShift f7 shamt rs1 f3 rd) = rd := by
  have h : (f7 ++ shamt ++ regBits rs1 ++ f3 ++ regBits rd ++ 0x13#7).extractLsb' 7 5 = regBits rd := by
    simp (disch := decide) only [field_low, field_high, field_all, Nat.reduceSub]
  exact congrArg BitVec.toFin h

@[simp] theorem rs1Field_encShift : rs1Field (encShift f7 shamt rs1 f3 rd) = rs1 := by
  have h : (f7 ++ shamt ++ regBits rs1 ++ f3 ++ regBits rd ++ 0x13#7).extractLsb' 15 5 = regBits rs1 := by
    simp (disch := decide) only [field_low, field_high, field_all, Nat.reduceSub]
  exact congrArg BitVec.toFin h

end

/-! ### S -/

section

variable (imm : BitVec 12) (rs2 rs1 : RegNum) (f3 : BitVec 3)

@[simp] theorem opcodeField_encS : opcodeField (encS imm rs2 rs1 f3) = 0x23#7 := by
  have h : (imm.extractLsb' 5 7 ++ regBits rs2 ++ regBits rs1 ++ f3 ++ imm.extractLsb' 0 5 ++ 0x23#7).extractLsb' 0 7 = 0x23#7 := by
    simp (disch := decide) only [field_low, field_all]
  exact h

@[simp] theorem funct3Field_encS : funct3Field (encS imm rs2 rs1 f3) = f3 := by
  have h : (imm.extractLsb' 5 7 ++ regBits rs2 ++ regBits rs1 ++ f3 ++ imm.extractLsb' 0 5 ++ 0x23#7).extractLsb' 12 3 = f3 := by
    simp (disch := decide) only [field_low, field_high, field_all, Nat.reduceSub]
  exact h

@[simp] theorem rs1Field_encS : rs1Field (encS imm rs2 rs1 f3) = rs1 := by
  have h : (imm.extractLsb' 5 7 ++ regBits rs2 ++ regBits rs1 ++ f3 ++ imm.extractLsb' 0 5 ++ 0x23#7).extractLsb' 15 5 = regBits rs1 := by
    simp (disch := decide) only [field_low, field_high, field_all, Nat.reduceSub]
  exact congrArg BitVec.toFin h

@[simp] theorem rs2Field_encS : rs2Field (encS imm rs2 rs1 f3) = rs2 := by
  have h : (imm.extractLsb' 5 7 ++ regBits rs2 ++ regBits rs1 ++ f3 ++ imm.extractLsb' 0 5 ++ 0x23#7).extractLsb' 20 5 = regBits rs2 := by
    simp (disch := decide) only [field_low, field_high, field_all, Nat.reduceSub]
  exact congrArg BitVec.toFin h

end

/-! ### B -/

section

variable (imm : BitVec 13) (rs2 rs1 : RegNum) (f3 : BitVec 3)

@[simp] theorem opcodeField_encB : opcodeField (encB imm rs2 rs1 f3) = 0x63#7 := by
  have h : (imm.extractLsb' 12 1 ++ imm.extractLsb' 5 6 ++ regBits rs2 ++ regBits rs1 ++ f3 ++ imm.extractLsb' 1 4 ++ imm.extractLsb' 11 1 ++ 0x63#7).extractLsb' 0 7 = 0x63#7 := by
    simp (disch := decide) only [field_low, field_all]
  exact h

@[simp] theorem funct3Field_encB : funct3Field (encB imm rs2 rs1 f3) = f3 := by
  have h : (imm.extractLsb' 12 1 ++ imm.extractLsb' 5 6 ++ regBits rs2 ++ regBits rs1 ++ f3 ++ imm.extractLsb' 1 4 ++ imm.extractLsb' 11 1 ++ 0x63#7).extractLsb' 12 3 = f3 := by
    simp (disch := decide) only [field_low, field_high, field_all, Nat.reduceSub]
  exact h

@[simp] theorem rs1Field_encB : rs1Field (encB imm rs2 rs1 f3) = rs1 := by
  have h : (imm.extractLsb' 12 1 ++ imm.extractLsb' 5 6 ++ regBits rs2 ++ regBits rs1 ++ f3 ++ imm.extractLsb' 1 4 ++ imm.extractLsb' 11 1 ++ 0x63#7).extractLsb' 15 5 = regBits rs1 := by
    simp (disch := decide) only [field_low, field_high, field_all, Nat.reduceSub]
  exact congrArg BitVec.toFin h

@[simp] theorem rs2Field_encB : rs2Field (encB imm rs2 rs1 f3) = rs2 := by
  have h : (imm.extractLsb' 12 1 ++ imm.extractLsb' 5 6 ++ regBits rs2 ++ regBits rs1 ++ f3 ++ imm.extractLsb' 1 4 ++ imm.extractLsb' 11 1 ++ 0x63#7).extractLsb' 20 5 = regBits rs2 := by
    simp (disch := decide) only [field_low, field_high, field_all, Nat.reduceSub]
  exact congrArg BitVec.toFin h

end

/-! ### U -/

section

variable (imm : BitVec 20) (rd : RegNum) (op : BitVec 7)

@[simp] theorem opcodeField_encU : opcodeField (encU imm rd op) = op := by
  have h : (imm ++ regBits rd ++ op).extractLsb' 0 7 = op := by
    simp (disch := decide) only [field_low, field_all]
  exact h

@[simp] theorem rdField_encU : rdField (encU imm rd op) = rd := by
  have h : (imm ++ regBits rd ++ op).extractLsb' 7 5 = regBits rd := by
    simp (disch := decide) only [field_low, field_high, field_all, Nat.reduceSub]
  exact congrArg BitVec.toFin h

@[simp] theorem immUField_encU : immUField (encU imm rd op) = imm := by
  have h : (imm ++ regBits rd ++ op).extractLsb' 12 20 = imm := by
    simp (disch := decide) only [field_high, field_all, Nat.reduceSub]
  exact h

end

/-! ### J -/

section

variable (imm : BitVec 21) (rd : RegNum)

@[simp] theorem opcodeField_encJ : opcodeField (encJ imm rd) = 0x6F#7 := by
  have h : (imm.extractLsb' 20 1 ++ imm.extractLsb' 1 10 ++ imm.extractLsb' 11 1 ++ imm.extractLsb' 12 8 ++ regBits rd ++ 0x6F#7).extractLsb' 0 7 = 0x6F#7 := by
    simp (disch := decide) only [field_low, field_all]
  exact h

@[simp] theorem rdField_encJ : rdField (encJ imm rd) = rd := by
  have h : (imm.extractLsb' 20 1 ++ imm.extractLsb' 1 10 ++ imm.extractLsb' 11 1 ++ imm.extractLsb' 12 8 ++ regBits rd ++ 0x6F#7).extractLsb' 7 5 = regBits rd := by
    simp (disch := decide) only [field_low, field_high, field_all, Nat.reduceSub]
  exact congrArg BitVec.toFin h

end

/-! ### Amo -/

section

variable (f5 : BitVec 5) (aq rl : Bool) (rs2 rs1 rd : RegNum)

@[simp] theorem opcodeField_encAmo : opcodeField (encAmo f5 aq rl rs2 rs1 rd) = 0x2F#7 := by
  have h : (f5 ++ flagBit aq ++ flagBit rl ++ regBits rs2 ++ regBits rs1 ++ 2#3 ++ regBits rd ++ 0x2F#7).extractLsb' 0 7 = 0x2F#7 := by
    simp (disch := decide) only [field_low, field_all]
  exact h

@[simp] theorem funct3Field_encAmo : funct3Field (encAmo f5 aq rl rs2 rs1 rd) = 2#3 := by
  have h : (f5 ++ flagBit aq ++ flagBit rl ++ regBits rs2 ++ regBits rs1 ++ 2#3 ++ regBits rd ++ 0x2F#7).extractLsb' 12 3 = 2#3 := by
    simp (disch := decide) only [field_low, field_high, field_all, Nat.reduceSub]
  exact h

@[simp] theorem funct5Field_encAmo : funct5Field (encAmo f5 aq rl rs2 rs1 rd) = f5 := by
  have h : (f5 ++ flagBit aq ++ flagBit rl ++ regBits rs2 ++ regBits rs1 ++ 2#3 ++ regBits rd ++ 0x2F#7).extractLsb' 27 5 = f5 := by
    simp (disch := decide) only [field_high, field_all, Nat.reduceSub]
  exact h

@[simp] theorem rdField_encAmo : rdField (encAmo f5 aq rl rs2 rs1 rd) = rd := by
  have h : (f5 ++ flagBit aq ++ flagBit rl ++ regBits rs2 ++ regBits rs1 ++ 2#3 ++ regBits rd ++ 0x2F#7).extractLsb' 7 5 = regBits rd := by
    simp (disch := decide) only [field_low, field_high, field_all, Nat.reduceSub]
  exact congrArg BitVec.toFin h

@[simp] theorem rs1Field_encAmo : rs1Field (encAmo f5 aq rl rs2 rs1 rd) = rs1 := by
  have h : (f5 ++ flagBit aq ++ flagBit rl ++ regBits rs2 ++ regBits rs1 ++ 2#3 ++ regBits rd ++ 0x2F#7).extractLsb' 15 5 = regBits rs1 := by
    simp (disch := decide) only [field_low, field_high, field_all, Nat.reduceSub]
  exact congrArg BitVec.toFin h

@[simp] theorem rs2Field_encAmo : rs2Field (encAmo f5 aq rl rs2 rs1 rd) = rs2 := by
  have h : (f5 ++ flagBit aq ++ flagBit rl ++ regBits rs2 ++ regBits rs1 ++ 2#3 ++ regBits rd ++ 0x2F#7).extractLsb' 20 5 = regBits rs2 := by
    simp (disch := decide) only [field_low, field_high, field_all, Nat.reduceSub]
  exact congrArg BitVec.toFin h

@[simp] theorem aqField_encAmo : aqField (encAmo f5 aq rl rs2 rs1 rd) = aq := by
  have h : (f5 ++ flagBit aq ++ flagBit rl ++ regBits rs2 ++ regBits rs1 ++ 2#3 ++ regBits rd ++ 0x2F#7).extractLsb' 26 1 = flagBit aq := by
    simp (disch := decide) only [field_low, field_high, field_all, Nat.reduceSub]
  exact (bit_is_field _ 26).trans ((congrArg (fun b => b.getLsbD 0) h).trans (flagBit_bit aq))

@[simp] theorem rlField_encAmo : rlField (encAmo f5 aq rl rs2 rs1 rd) = rl := by
  have h : (f5 ++ flagBit aq ++ flagBit rl ++ regBits rs2 ++ regBits rs1 ++ 2#3 ++ regBits rd ++ 0x2F#7).extractLsb' 25 1 = flagBit rl := by
    simp (disch := decide) only [field_low, field_high, field_all, Nat.reduceSub]
  exact (bit_is_field _ 25).trans ((congrArg (fun b => b.getLsbD 0) h).trans (flagBit_bit rl))

end

/-! ### CsrImm -/

section

variable (csr : CsrNum) (uimm : BitVec 5) (f3 : BitVec 3) (rd : RegNum)

@[simp] theorem opcodeField_encCsrImm : opcodeField (encCsrImm csr uimm f3 rd) = 0x73#7 := by
  have h : (csr ++ uimm ++ f3 ++ regBits rd ++ 0x73#7).extractLsb' 0 7 = 0x73#7 := by
    simp (disch := decide) only [field_low, field_all]
  exact h

@[simp] theorem funct3Field_encCsrImm : funct3Field (encCsrImm csr uimm f3 rd) = f3 := by
  have h : (csr ++ uimm ++ f3 ++ regBits rd ++ 0x73#7).extractLsb' 12 3 = f3 := by
    simp (disch := decide) only [field_low, field_high, field_all, Nat.reduceSub]
  exact h

@[simp] theorem csrField_encCsrImm : csrField (encCsrImm csr uimm f3 rd) = csr := by
  have h : (csr ++ uimm ++ f3 ++ regBits rd ++ 0x73#7).extractLsb' 20 12 = csr := by
    simp (disch := decide) only [field_high, field_all, Nat.reduceSub]
  exact h

@[simp] theorem uimmField_encCsrImm : uimmField (encCsrImm csr uimm f3 rd) = uimm := by
  have h : (csr ++ uimm ++ f3 ++ regBits rd ++ 0x73#7).extractLsb' 15 5 = uimm := by
    simp (disch := decide) only [field_low, field_high, field_all, Nat.reduceSub]
  exact h

@[simp] theorem rdField_encCsrImm : rdField (encCsrImm csr uimm f3 rd) = rd := by
  have h : (csr ++ uimm ++ f3 ++ regBits rd ++ 0x73#7).extractLsb' 7 5 = regBits rd := by
    simp (disch := decide) only [field_low, field_high, field_all, Nat.reduceSub]
  exact congrArg BitVec.toFin h

end

/-! ### Fence -/

section

variable (fm pred succ : BitVec 4) (rs1 rd : RegNum)

@[simp] theorem opcodeField_fence : opcodeField (encode (.fence fm pred succ rs1 rd)) = 0x0F#7 := by
  have h : (fm ++ pred ++ succ ++ regBits rs1 ++ 0#3 ++ regBits rd ++ 0x0F#7).extractLsb' 0 7 = 0x0F#7 := by
    simp (disch := decide) only [field_low, field_all]
  exact h

@[simp] theorem funct3Field_fence : funct3Field (encode (.fence fm pred succ rs1 rd)) = 0#3 := by
  have h : (fm ++ pred ++ succ ++ regBits rs1 ++ 0#3 ++ regBits rd ++ 0x0F#7).extractLsb' 12 3 = 0#3 := by
    simp (disch := decide) only [field_low, field_high, field_all, Nat.reduceSub]
  exact h

@[simp] theorem fmField_fence : fmField (encode (.fence fm pred succ rs1 rd)) = fm := by
  have h : (fm ++ pred ++ succ ++ regBits rs1 ++ 0#3 ++ regBits rd ++ 0x0F#7).extractLsb' 28 4 = fm := by
    simp (disch := decide) only [field_high, field_all, Nat.reduceSub]
  exact h

@[simp] theorem predField_fence : predField (encode (.fence fm pred succ rs1 rd)) = pred := by
  have h : (fm ++ pred ++ succ ++ regBits rs1 ++ 0#3 ++ regBits rd ++ 0x0F#7).extractLsb' 24 4 = pred := by
    simp (disch := decide) only [field_low, field_high, field_all, Nat.reduceSub]
  exact h

@[simp] theorem succField_fence : succField (encode (.fence fm pred succ rs1 rd)) = succ := by
  have h : (fm ++ pred ++ succ ++ regBits rs1 ++ 0#3 ++ regBits rd ++ 0x0F#7).extractLsb' 20 4 = succ := by
    simp (disch := decide) only [field_low, field_high, field_all, Nat.reduceSub]
  exact h

@[simp] theorem rdField_fence : rdField (encode (.fence fm pred succ rs1 rd)) = rd := by
  have h : (fm ++ pred ++ succ ++ regBits rs1 ++ 0#3 ++ regBits rd ++ 0x0F#7).extractLsb' 7 5 = regBits rd := by
    simp (disch := decide) only [field_low, field_high, field_all, Nat.reduceSub]
  exact congrArg BitVec.toFin h

@[simp] theorem rs1Field_fence : rs1Field (encode (.fence fm pred succ rs1 rd)) = rs1 := by
  have h : (fm ++ pred ++ succ ++ regBits rs1 ++ 0#3 ++ regBits rd ++ 0x0F#7).extractLsb' 15 5 = regBits rs1 := by
    simp (disch := decide) only [field_low, field_high, field_all, Nat.reduceSub]
  exact congrArg BitVec.toFin h

end

/-! ### Immediates in pieces (R124, R125, R127) -/

/-- Two adjacent fields of a value, put together. -/
theorem fields_adjacent {n : Nat} (x : BitVec n) {lo mid len1 len2 : Nat} (h : mid = lo + len1) :
    x.extractLsb' mid len2 ++ x.extractLsb' lo len1 = x.extractLsb' lo (len2 + len1) := by
  subst h
  ext k hk
  simp only [BitVec.getElem_append, BitVec.getElem_extractLsb']
  split
  · rfl
  · congr 1
    omega

@[simp] theorem immSField_encS (imm : BitVec 12) (rs2 rs1 : RegNum) (f3 : BitVec 3) :
    immSField (encS imm rs2 rs1 f3) = imm := by
  have hi : (imm.extractLsb' 5 7 ++ regBits rs2 ++ regBits rs1 ++ f3 ++ imm.extractLsb' 0 5 ++ 0x23#7).extractLsb' 25 7 = imm.extractLsb' 5 7 := by
    simp (disch := decide) only [field_high, field_all, Nat.reduceSub]
  have lo : (imm.extractLsb' 5 7 ++ regBits rs2 ++ regBits rs1 ++ f3 ++ imm.extractLsb' 0 5 ++ 0x23#7).extractLsb' 7 5 = imm.extractLsb' 0 5 := by
    simp (disch := decide) only [field_low, field_high, field_all, Nat.reduceSub]
  show _ ++ _ = _
  refine (congrArg₂ (fun (a : BitVec 7) (b : BitVec 5) => a ++ b) hi lo).trans ?_
  exact (fields_adjacent imm (by rfl)).trans (field_all imm)

@[simp] theorem immBField_encB (imm : BitVec 13) (rs2 rs1 : RegNum) (f3 : BitVec 3) (h : branchOffsetOk imm = true) :
    immBField (encB imm rs2 rs1 f3) = imm := by
  have h12 : (imm.extractLsb' 12 1 ++ imm.extractLsb' 5 6 ++ regBits rs2 ++ regBits rs1 ++ f3 ++ imm.extractLsb' 1 4 ++ imm.extractLsb' 11 1 ++ 0x63#7).extractLsb' 31 1 = imm.extractLsb' 12 1 := by
    simp (disch := decide) only [field_high, field_all, Nat.reduceSub]
  have h11 : (imm.extractLsb' 12 1 ++ imm.extractLsb' 5 6 ++ regBits rs2 ++ regBits rs1 ++ f3 ++ imm.extractLsb' 1 4 ++ imm.extractLsb' 11 1 ++ 0x63#7).extractLsb' 7 1 = imm.extractLsb' 11 1 := by
    simp (disch := decide) only [field_low, field_high, field_all, Nat.reduceSub]
  have h5 : (imm.extractLsb' 12 1 ++ imm.extractLsb' 5 6 ++ regBits rs2 ++ regBits rs1 ++ f3 ++ imm.extractLsb' 1 4 ++ imm.extractLsb' 11 1 ++ 0x63#7).extractLsb' 25 6 = imm.extractLsb' 5 6 := by
    simp (disch := decide) only [field_low, field_high, field_all, Nat.reduceSub]
  have h1 : (imm.extractLsb' 12 1 ++ imm.extractLsb' 5 6 ++ regBits rs2 ++ regBits rs1 ++ f3 ++ imm.extractLsb' 1 4 ++ imm.extractLsb' 11 1 ++ 0x63#7).extractLsb' 8 4 = imm.extractLsb' 1 4 := by
    simp (disch := decide) only [field_low, field_high, field_all, Nat.reduceSub]
  have h0 : 0#1 = imm.extractLsb' 0 1 := by
    ext k hk
    have : k = 0 := by omega
    subst this
    simpa [branchOffsetOk] using h.symm
  unfold immBField
  show (BitVec.extractLsb' 31 1 (encB imm rs2 rs1 f3) ++ _ ++ _ ++ _ ++ 0#1 : BitVec 13) = imm
  rw [show BitVec.extractLsb' 31 1 (encB imm rs2 rs1 f3) = _ from h12,
    show BitVec.extractLsb' 7 1 (encB imm rs2 rs1 f3) = _ from h11,
    show BitVec.extractLsb' 25 6 (encB imm rs2 rs1 f3) = _ from h5,
    show BitVec.extractLsb' 8 4 (encB imm rs2 rs1 f3) = _ from h1, h0,
    fields_adjacent imm (by rfl), fields_adjacent imm (by rfl), fields_adjacent imm (by rfl),
    fields_adjacent imm (by rfl)]
  exact field_all imm

@[simp] theorem immJField_encJ (imm : BitVec 21) (rd : RegNum) (h : jumpOffsetOk imm = true) :
    immJField (encJ imm rd) = imm := by
  have h20 : (imm.extractLsb' 20 1 ++ imm.extractLsb' 1 10 ++ imm.extractLsb' 11 1 ++ imm.extractLsb' 12 8 ++ regBits rd ++ 0x6F#7).extractLsb' 31 1 = imm.extractLsb' 20 1 := by
    simp (disch := decide) only [field_high, field_all, Nat.reduceSub]
  have h12 : (imm.extractLsb' 20 1 ++ imm.extractLsb' 1 10 ++ imm.extractLsb' 11 1 ++ imm.extractLsb' 12 8 ++ regBits rd ++ 0x6F#7).extractLsb' 12 8 = imm.extractLsb' 12 8 := by
    simp (disch := decide) only [field_low, field_high, field_all, Nat.reduceSub]
  have h11 : (imm.extractLsb' 20 1 ++ imm.extractLsb' 1 10 ++ imm.extractLsb' 11 1 ++ imm.extractLsb' 12 8 ++ regBits rd ++ 0x6F#7).extractLsb' 20 1 = imm.extractLsb' 11 1 := by
    simp (disch := decide) only [field_low, field_high, field_all, Nat.reduceSub]
  have h1 : (imm.extractLsb' 20 1 ++ imm.extractLsb' 1 10 ++ imm.extractLsb' 11 1 ++ imm.extractLsb' 12 8 ++ regBits rd ++ 0x6F#7).extractLsb' 21 10 = imm.extractLsb' 1 10 := by
    simp (disch := decide) only [field_low, field_high, field_all, Nat.reduceSub]
  have h0 : 0#1 = imm.extractLsb' 0 1 := by
    ext k hk
    have : k = 0 := by omega
    subst this
    simpa [jumpOffsetOk] using h.symm
  unfold immJField
  rw [show BitVec.extractLsb' 31 1 (encJ imm rd) = _ from h20, show BitVec.extractLsb' 12 8 (encJ imm rd) = _ from h12,
    show BitVec.extractLsb' 20 1 (encJ imm rd) = _ from h11, show BitVec.extractLsb' 21 10 (encJ imm rd) = _ from h1, h0,
    fields_adjacent imm (by rfl), fields_adjacent imm (by rfl), fields_adjacent imm (by rfl),
    fields_adjacent imm (by rfl)]
  exact field_all imm

/-! ### A word is its fields put together (R122) -/

section

variable (w : Word)

theorem encR_fields :
    encR (funct7Field w) (rs2Field w) (rs1Field w) (funct3Field w) (rdField w) (opcodeField w) = w := by
  unfold encR funct7Field rs2Field rs1Field funct3Field rdField opcodeField
  simp only [regBits_of_toFin]
  rw [fields_adjacent w (by rfl), fields_adjacent w (by rfl), fields_adjacent w (by rfl), fields_adjacent w (by rfl),
    fields_adjacent w (by rfl)]
  exact field_all w

theorem encI_fields : encI (immIField w) (rs1Field w) (funct3Field w) (rdField w) (opcodeField w) = w := by
  unfold encI immIField rs1Field funct3Field rdField opcodeField
  simp only [regBits_of_toFin]
  rw [fields_adjacent w (by rfl), fields_adjacent w (by rfl), fields_adjacent w (by rfl), fields_adjacent w (by rfl)]
  exact field_all w

theorem encShift_fields (h : opcodeField w = 0x13#7) :
    encShift (funct7Field w) (shamtField w) (rs1Field w) (funct3Field w) (rdField w) = w := by
  unfold encShift
  rw [← h]
  unfold funct7Field shamtField rs1Field funct3Field rdField opcodeField
  simp only [regBits_of_toFin]
  rw [fields_adjacent w (by rfl), fields_adjacent w (by rfl), fields_adjacent w (by rfl), fields_adjacent w (by rfl),
    fields_adjacent w (by rfl)]
  exact field_all w

theorem encU_fields : encU (immUField w) (rdField w) (opcodeField w) = w := by
  unfold encU immUField rdField opcodeField
  simp only [regBits_of_toFin]
  rw [fields_adjacent w (by rfl), fields_adjacent w (by rfl)]
  exact field_all w

theorem encCsr_fields (h : opcodeField w = 0x73#7) :
    encCsr (csrField w) (rs1Field w) (funct3Field w) (rdField w) = w := by
  unfold encCsr
  rw [← h]
  exact encI_fields w

/-- `imm12` is `funct7` and the `rs2` field. -/
theorem csrField_split : csrField w = funct7Field w ++ w.extractLsb' 20 5 :=
  (fields_adjacent (lo := 20) (mid := 25) (len1 := 5) (len2 := 7) w rfl).symm

theorem encCsrImm_fields (h : opcodeField w = 0x73#7) :
    encCsrImm (csrField w) (uimmField w) (funct3Field w) (rdField w) = w := by
  unfold encCsrImm
  rw [← h]
  unfold csrField uimmField funct3Field rdField opcodeField
  simp only [regBits_of_toFin]
  rw [fields_adjacent w (by rfl), fields_adjacent w (by rfl), fields_adjacent w (by rfl), fields_adjacent w (by rfl)]
  exact field_all w

/-- A flag's field is the one bit it came from. -/
theorem flagBit_of_bit (k : Nat) : flagBit (w.getLsbD k) = w.extractLsb' k 1 := by
  ext i hi
  have : i = 0 := by omega
  subst this
  simp [flagBit]

theorem encAmo_fields (h3 : funct3Field w = 2#3) (h : opcodeField w = 0x2F#7) :
    encAmo (funct5Field w) (aqField w) (rlField w) (rs2Field w) (rs1Field w) (rdField w) = w := by
  unfold encAmo
  rw [← h, ← h3]
  unfold funct5Field aqField rlField rs2Field rs1Field funct3Field rdField opcodeField
  simp only [regBits_of_toFin, flagBit_of_bit]
  rw [fields_adjacent w (by rfl), fields_adjacent w (by rfl), fields_adjacent w (by rfl), fields_adjacent w (by rfl),
    fields_adjacent w (by rfl), fields_adjacent w (by rfl), fields_adjacent w (by rfl)]
  exact field_all w

theorem encFence_fields (h3 : funct3Field w = 0#3) (h : opcodeField w = 0x0F#7) :
    encode (.fence (fmField w) (predField w) (succField w) (rs1Field w) (rdField w)) = w := by
  show fmField w ++ predField w ++ succField w ++ regBits (rs1Field w) ++ 0#3 ++ regBits (rdField w) ++ 0x0F#7 = w
  rw [← h, ← h3]
  unfold fmField predField succField rs1Field funct3Field rdField opcodeField
  simp only [regBits_of_toFin]
  rw [fields_adjacent w (by rfl), fields_adjacent w (by rfl), fields_adjacent w (by rfl), fields_adjacent w (by rfl),
    fields_adjacent w (by rfl), fields_adjacent w (by rfl)]
  exact field_all w

theorem encS_fields (h : opcodeField w = 0x23#7) :
    encS (immSField w) (rs2Field w) (rs1Field w) (funct3Field w) = w := by
  unfold encS immSField
  rw [← h]
  unfold rs2Field rs1Field funct3Field opcodeField
  simp (disch := decide) only [regBits_of_toFin, field_low, field_high, field_all, Nat.reduceSub]
  rw [fields_adjacent w (by rfl), fields_adjacent w (by rfl), fields_adjacent w (by rfl), fields_adjacent w (by rfl),
    fields_adjacent w (by rfl)]
  exact field_all w

theorem encB_fields (h : opcodeField w = 0x63#7) :
    encB (immBField w) (rs2Field w) (rs1Field w) (funct3Field w) = w := by
  unfold encB immBField
  rw [← h]
  unfold rs2Field rs1Field funct3Field opcodeField
  simp (disch := decide) only [regBits_of_toFin, field_low, field_high, field_all, Nat.reduceSub]
  rw [fields_adjacent w (by rfl), fields_adjacent w (by rfl), fields_adjacent w (by rfl), fields_adjacent w (by rfl),
    fields_adjacent w (by rfl), fields_adjacent w (by rfl), fields_adjacent w (by rfl)]
  exact field_all w

theorem encJ_fields (h : opcodeField w = 0x6F#7) : encJ (immJField w) (rdField w) = w := by
  unfold encJ immJField
  rw [← h]
  unfold rdField opcodeField
  simp (disch := decide) only [regBits_of_toFin, field_low, field_high, field_all, Nat.reduceSub]
  rw [fields_adjacent w (by rfl), fields_adjacent w (by rfl), fields_adjacent w (by rfl), fields_adjacent w (by rfl),
    fields_adjacent w (by rfl)]
  exact field_all w

/-- A value that ends in a 0 has bit 0 equal to 0. -/
theorem append_zero_bit {n : Nat} (x : BitVec n) : (!(x ++ 0#1).getLsbD 0) = true := by
  rw [BitVec.getLsbD_append]
  rfl

/-- Bit 0 of a branch offset read from a word is 0 (R125). -/
theorem branchOffsetOk_immBField : branchOffsetOk (immBField w) = true := append_zero_bit _

/-- Bit 0 of a JAL offset read from a word is 0 (R127). -/
theorem jumpOffsetOk_immJField : jumpOffsetOk (immJField w) = true := append_zero_bit _

/-! ### Words and bytes (R83, R120) -/

/-- The bytes of a word, put together again, whatever follows them. -/
theorem decode_bytesOfWord (rest : List Byte) :
    decode (bytesOfWord w ++ rest) =
      match decodeWord w with
      | some i => .instr i rest
      | none => .reject (.unknownInstruction w) := by
  have h : wordOfBytes (w.extractLsb' 0 8) (w.extractLsb' 8 8) (w.extractLsb' 16 8) (w.extractLsb' 24 8) = w := by
    unfold wordOfBytes
    rw [fields_adjacent w (by rfl), fields_adjacent w (by rfl), fields_adjacent w (by rfl)]
    exact field_all w
  cases hd : decodeWord w <;> simp only [bytesOfWord, List.cons_append, List.nil_append, decode, h, hd]

end

end Sys2Proof
end

