-- ==== Sys2Proof/Laws/Cycle.lean ====
section
/-!
SUPPORT. The front of the cycle (60_exceptions.md R300 to R305): the timer check, the fetch of a word from RAM, and
everything the front and a step can answer.
-/

namespace Sys2Proof.Machine

open State

/-! ### The timer check (R302) -/

/-- The timer check samples the clock and writes at most `mip`. -/
theorem timerCheck_eq (s : State) :
    timerCheck s = s.sampleClock ∨ timerCheck s = s.sampleClock.setCsr 0x344 (s.csr 0x344 ||| 0x00000080#32) := by
  unfold timerCheck
  split
  · exact .inr rfl
  · exact .inl rfl

@[simp] theorem timerCheck_regs (s : State) : (timerCheck s).regs = s.regs := by
  rcases timerCheck_eq s with h | h <;> rw [h] <;> rfl
@[simp] theorem timerCheck_pc (s : State) : (timerCheck s).pc = s.pc := by rcases timerCheck_eq s with h | h <;> rw [h] <;> rfl
@[simp] theorem timerCheck_priv (s : State) : (timerCheck s).priv = s.priv := by
  rcases timerCheck_eq s with h | h <;> rw [h] <;> rfl
@[simp] theorem timerCheck_reservation (s : State) : (timerCheck s).reservation = s.reservation := by
  rcases timerCheck_eq s with h | h <;> rw [h] <;> rfl
@[simp] theorem timerCheck_mtimecmp (s : State) : (timerCheck s).mtimecmp = s.mtimecmp := by
  rcases timerCheck_eq s with h | h <;> rw [h] <;> rfl
@[simp] theorem timerCheck_mem (s : State) : (timerCheck s).mem = s.mem := by
  rcases timerCheck_eq s with h | h <;> rw [h] <;> rfl
@[simp] theorem timerCheck_run (s : State) : (timerCheck s).run = s.run := by
  rcases timerCheck_eq s with h | h <;> rw [h] <;> rfl
@[simp] theorem timerCheck_uartOut (s : State) : (timerCheck s).uartOut = s.uartOut := by
  rcases timerCheck_eq s with h | h <;> rw [h] <;> rfl
@[simp] theorem timerCheck_clock (s : State) : (timerCheck s).clock = s.clock.sample := by
  rcases timerCheck_eq s with h | h <;> rw [h] <;> rfl
@[simp] theorem timerCheck_cfg (s : State) : (timerCheck s).cfg = s.cfg := by
  rcases timerCheck_eq s with h | h <;> rw [h] <;> rfl
@[simp] theorem timerCheck_x (s : State) (r : RegNum) : (timerCheck s).x r = s.x r := by simp [x]
@[simp] theorem timerCheck_byte (s : State) (a : Nat) : (timerCheck s).byte a = s.byte a := by simp [byte]

/-- Only `mip` changes. -/
theorem timerCheck_csr_other (s : State) {a : Nat} (h : a ≠ 0x344) : (timerCheck s).csr a = s.csr a := by
  rcases timerCheck_eq s with e | e <;> rw [e]
  · rfl
  · rw [csr_setCsr_other _ _ h, sampleClock_csr]

/-- MTIP after the check: as it was, or set when the sample has reached the comparator. -/
theorem timerCheck_mip_bit (s : State) (k : Nat) :
    ((timerCheck s).csr 0x344).getLsbD k =
      if k = 7 ∧ s.mtimecmp.toNat ≤ s.clock.sample.mtime.toNat then true else (s.csr 0x344).getLsbD k := by
  have hbit : ∀ k, k < 32 → (0x00000080#32).getLsbD k = decide (k = 7) := by decide
  unfold timerCheck
  split
  · next h =>
    have h' : s.mtimecmp.toNat ≤ s.clock.sample.mtime.toNat := BitVec.le_def.1 h
    by_cases hk : k < 32
    · by_cases h7 : k = 7
      · subst h7
        simp [h']
      · simp [hbit k hk, h7]
    · have hk7 : k ≠ 7 := by omega
      simp only [hk7, false_and, if_false]
      rw [BitVec.getLsbD_of_ge _ _ (by omega), BitVec.getLsbD_of_ge _ _ (by omega)]
  · next h =>
    have h' : ¬ s.mtimecmp.toNat ≤ s.clock.sample.mtime.toNat := fun hle => h (BitVec.le_def.2 hle)
    simp [h']

/-! ### The fetch (R304, R305) -/

/-- A word that the decoder reads as an instruction. -/
theorem decodeStep_some {w : Word} {i : Instr} (s : State) (h : decodeWord w = some i) : decodeStep w s = .run i s := by
  have e := decode_bytesOfWord w []
  rw [List.append_nil, h] at e
  simp [decodeStep, e]

/-- A word that it does not. -/
theorem decodeStep_none {w : Word} (s : State) (h : decodeWord w = none) :
    decodeStep w s = .ended (raiseException .illegalInstruction w s) := by
  have e := decode_bytesOfWord w []
  rw [List.append_nil, h] at e
  simp [decodeStep, e]

/-- What the four bytes at an address decode to is what their word decodes to. -/
theorem decode_bytes (s : State) (a : Nat) :
    decode [s.byte a, s.byte (a + 1), s.byte (a + 2), s.byte (a + 3)] =
      match decodeWord (wordAt s a) with
      | some i => .instr i []
      | none => .reject (.unknownInstruction (wordAt s a)) := rfl

/-- A fetch from RAM. -/
theorem fetchDecode_ram {s : State} (h : RamAccess s .word s.pc) (h0 : s.pc ≠ 0#32) :
    fetchDecode s = decodeStep (wordAt s s.pc.toNat) s := by
  simp [fetchDecode, memRead_ram h h0, ramRead_word]

/-- Everything a fetch can end in. -/
theorem fetchDecode_cases (s : State) :
    (∃ i u, fetchDecode s = .run i u ∧ (u = s ∨ u = s.sampleClock)) ∨
    (∃ w u, fetchDecode s = .ended (raiseException .illegalInstruction w u) ∧ (u = s ∨ u = s.sampleClock)) ∨
    (fetchDecode s = .ended (raiseException .loadAccessFault s.pc s)) ∨
    (fetchDecode s = .ended (.next (s.halt .nullRead))) ∨
    (fetchDecode s = .ended (.refused (.unmappedMmio s.pc)) ∧ s.cfg.unmappedMmio = .refuse) := by
  rcases memRead_cases .word s.pc s with ⟨-, e⟩ | ⟨-, -, e⟩ | ⟨v, u, e, hu⟩ | ⟨e, hc⟩
  · exact .inr (.inr (.inl (by simp [fetchDecode, e])))
  · exact .inr (.inr (.inr (.inl (by simp [fetchDecode, e]))))
  · cases hd : decodeWord v with
    | some i => exact .inl ⟨i, u, by simp [fetchDecode, e, decodeStep_some u hd], hu⟩
    | none => exact .inr (.inl ⟨v, u, by simp [fetchDecode, e, decodeStep_none u hd], hu⟩)
  · exact .inr (.inr (.inr (.inr ⟨by simp [fetchDecode, e], hc⟩)))

/-! ### The front of the cycle -/

/-- Everything steps 1 to 5 can be: the misaligned `pc`; an interrupt that halts, or ends the cycle; or a fetch, from the
state after the timer check or after the trap entry of an interrupt. -/
theorem cycleFront_cases (s : State) :
    (s.pc.toNat % 4 ≠ 0 ∧ cycleFront s = .ended (raiseException .instructionAddressMisaligned s.pc s)) ∨
    (s.pc.toNat % 4 = 0 ∧ pendingInterrupt (timerCheck s) = none ∧ cycleFront s = fetchDecode (timerCheck s)) ∨
    (s.pc.toNat % 4 = 0 ∧ ∃ k, pendingInterrupt (timerCheck s) = some k ∧
      ((¬ VectorDirect s ∧ cycleFront s = .ended (.next (trap k.cause 0#32 (timerCheck s)))) ∨
       (VectorDirect s ∧ s.cfg.irqEntryEndsCycle = true ∧
        cycleFront s = .ended (.next (counterStep (trap k.cause 0#32 (timerCheck s))))) ∨
       (VectorDirect s ∧ s.cfg.irqEntryEndsCycle = false ∧
        cycleFront s = fetchDecode (trap k.cause 0#32 (timerCheck s))))) := by
  by_cases ha : s.pc.toNat % 4 = 0
  · have hv : VectorDirect (timerCheck s) ↔ VectorDirect s := by
      unfold VectorDirect
      rw [timerCheck_csr_other s (by decide)]
    right
    have hf : cycleFront s = interruptStep (timerCheck s) := by simp [cycleFront, (aligned4_iff s.pc).2 ha]
    rcases checkInterrupts_cases (timerCheck s) with ⟨h, e⟩ | ⟨k, h, hd, e⟩ | ⟨k, h, hd, e⟩
    · exact .inl ⟨ha, h, by simp [hf, interruptStep, e]⟩
    · refine .inr ⟨ha, k, h, .inr ?_⟩
      cases hc : s.cfg.irqEntryEndsCycle
      · exact .inr ⟨hv.1 hd, rfl, by simp [hf, interruptStep, e, hc]⟩
      · exact .inl ⟨hv.1 hd, rfl, by simp [hf, interruptStep, e, hc, retire]⟩
    · exact .inr ⟨ha, k, h, .inl ⟨mt hv.2 hd, by simp [hf, interruptStep, e]⟩⟩
  · exact .inl ⟨ha, by simp [cycleFront, Bool.eq_false_iff.2 (mt (aligned4_iff s.pc).1 ha)]⟩

/-- A step of a running machine is its front, then the instruction. -/
theorem step_running {s : State} (h : s.run = .running) :
    step s = match cycleFront s with
      | .run i t => exec i t
      | .ended o => o := by
  cases hf : cycleFront s <;> simp only [step, h, hf]

/-- A cycle that fetches in `f` is that fetch and decode, then the instruction. -/
theorem step_fetchesIn {s f : State} (h : FetchesIn s f) :
    step s = match fetchDecode f with
      | .run i t => exec i t
      | .ended o => o := by
  obtain ⟨hr, ha, hf⟩ := h
  rw [step_running hr]
  rcases cycleFront_cases s with ⟨hm, -⟩ | ⟨-, hn, e⟩ | ⟨-, k, hk, hc⟩
  · exact absurd ha hm
  · rcases hf with ⟨-, rfl⟩ | ⟨k, hk, -⟩
    · rw [e]
    · rw [hn] at hk; cases hk
  · rcases hf with ⟨hn, -⟩ | ⟨k', hk', hd, hi, rfl⟩
    · rw [hn] at hk; cases hk
    · obtain rfl : k = k' := Option.some.inj (hk.symm.trans hk')
      rcases hc with ⟨hv, -⟩ | ⟨-, hi', -⟩ | ⟨-, -, e⟩
      · exact absurd hd hv
      · rw [hi] at hi'; cases hi'
      · rw [e]

/-- A step that answers a next state is a step of a running machine. -/
theorem running_of_step {s t : State} (h : step s = .next t) : s.run = .running := by
  unfold step at h
  split at h
  · cases h
  · next hr => exact hr

end Sys2Proof.Machine
end

