-- ==== Sys2Proof/Laws/Meanings.lean ====
section
/-!
SUPPORT. The operations that several meanings share, one lemma each: a load, a store, an atomic behind its alignment test,
an AMO. A proof about one instruction cites these and never unfolds the bus.
-/

namespace Sys2Proof.Machine

open State

/-- A handler that raises ends in the raise (R309). -/
theorem finish_raise (s : State) (e : Exception) (tval : Word) :
    ∃ t, finish s (.raise e tval) = .next t ∧ Raises s t e.code tval := raiseException_raises e tval s

/-- The state after a read that answered is the state before it, or that with the clock sampled. -/
theorem memRead_ok_state {w : Width} {a v : Word} {s u : State} (h : memRead w a s = .ok v u) :
    u = s ∨ u = s.sampleClock := by
  rcases memRead_cases w a s with ⟨-, e⟩ | ⟨-, -, e⟩ | ⟨_, _, e, hu⟩ | ⟨e, -⟩ <;> rw [e] at h <;> cases h
  exact hu

/-- What a read that answered keeps: everything but the clock. -/
theorem memRead_ok_kept {w : Width} {a v : Word} {s u : State} (h : memRead w a s = .ok v u) :
    u.regs = s.regs ∧ u.pc = s.pc ∧ u.priv = s.priv ∧ u.csrs = s.csrs ∧ u.reservation = s.reservation ∧
      u.mtimecmp = s.mtimecmp ∧ u.mem = s.mem ∧ u.run = s.run ∧ u.uartOut = s.uartOut ∧ u.cfg = s.cfg ∧
      s.clock.mtime ≤ u.clock.mtime := by
  rcases memRead_ok_state h with rfl | rfl
  · simp
  · simp [Clock.mtime_le_sample]

/-- What a write that answered keeps: everything but RAM, `mip.MTIP`, the comparator, the output and the clock. -/
theorem memWrite_ok_kept {w : Width} {a v : Word} {s u : State} (h : memWrite w a v s = .ok () u) :
    u.regs = s.regs ∧ u.pc = s.pc ∧ u.priv = s.priv ∧ u.reservation = s.reservation ∧ u.run = s.run ∧ u.cfg = s.cfg ∧
      s.clock.mtime ≤ u.clock.mtime ∧ (∃ more, u.uartOut = s.uartOut ++ more) ∧
      (u.mem = s.mem ∨ RamAccess s w a ∧ u.mem = (s.ramWrite w a.toNat v).mem) ∧
      (u.csrs = s.csrs ∨ u.csrs = (s.setCsr 0x344 (s.csr 0x344 &&& 0xFFFFFF7F#32)).csrs) := by
  rcases memWrite_cases w a v s with ⟨-, e⟩ | ⟨hr, e⟩ | ⟨-, ⟨_, e, hu⟩ | ⟨_, e⟩ | ⟨e, -⟩⟩ <;> rw [e] at h <;> cases h
  · exact ⟨by simp, by simp, by simp, by simp, by simp, by simp, by simp, ⟨[], by simp⟩, .inr ⟨hr, rfl⟩, .inl (by simp)⟩
  · rcases hu with rfl | ⟨b, rfl⟩ | ⟨t, rfl⟩
    · simp
    · simp
    · rcases mtipClearTest_eq (s.setMtimecmp t) with e | e <;> rw [e] <;> simp [Clock.mtime_le_sample]

/-! ### Loads and stores -/

/-- A load whose read answered `v`. -/
theorem load_ok {w : Width} {extend : Word → Word} {rd rs1 : RegNum} {imm : BitVec 12} {s u : State} {v : Word}
    (h : memRead w (effectiveAddress (s.x rs1) imm) s = .ok v u) :
    ∃ t, load w extend rd rs1 imm s = .next t ∧ Completes u t rd (extend v) (s.pc + 4#32) := by
  refine ⟨_, ?_, completes_retired u rd (extend v) _⟩
  simp [load, h, Eff.andThen, finish, retire, (memRead_ok_kept h).2.1]

/-- A store whose write answered. -/
theorem store_ok {w : Width} {rs2 rs1 : RegNum} {imm : BitVec 12} {s u : State}
    (h : memWrite w (effectiveAddress (s.x rs1) imm) (s.x rs2) s = .ok () u) :
    store w rs2 rs1 imm s = .next (counterStep (u.setPc (s.pc + 4#32))) := by
  simp [store, h, Eff.andThen, finish, retire, (memWrite_ok_kept h).2.1]

/-- A store to RAM. -/
theorem store_ram {w : Width} {rs2 rs1 : RegNum} {imm : BitVec 12} {s : State}
    (h : RamAccess s w (effectiveAddress (s.x rs1) imm)) :
    ∃ t, store w rs2 rs1 imm s = .next t ∧
      Stores s t (effectiveAddress (s.x rs1) imm).toNat w.bytes (s.x rs2) (s.pc + 4#32) := by
  refine ⟨_, store_ok (memWrite_ram _ h), ?_⟩
  have a := advances_retired (s.ramWrite w (effectiveAddress (s.x rs1) imm).toNat (s.x rs2)) (s.pc + 4#32)
  have hh := ramWrite_holds s w (effectiveAddress (s.x rs1) imm).toNat (s.x rs2)
  exact {
    stored := fun k hk => by rw [a.memory]; exact hh.1 k hk
    otherBytes := fun b hb => by rw [a.memory]; exact hh.2 b hb
    regs := fun r hr => (a.regs r hr).trans (by simp)
    pc := a.pc
    counted := ⟨by simpa [cycleCount] using a.counted.1, a.counted.2, a.counted.3⟩
    csrs := fun b hb => (a.csrs b hb).trans (by simp)
    reservation := a.reservation.trans (by simp)
    devices := ⟨a.devices.1.trans (by simp), a.devices.2.trans (by simp), a.devices.3.trans (by simp)⟩
    mode := ⟨a.mode.1.trans (by simp), a.mode.2.trans (by simp), a.mode.3.trans (by simp)⟩ }

/-! ### Atomics -/

/-- An atomic at an address that is not a multiple of 4 (R240). -/
theorem atomicAt_misaligned {a : Word} (s : State) (e : Eff Unit) (h : a.toNat % 4 ≠ 0) :
    ∃ t, atomicAt a s e = .next t ∧ Raises s t 0#32 a := by
  have h4 : aligned4 a = false := Bool.eq_false_iff.2 (mt (aligned4_iff a).1 h)
  simp only [atomicAt, h4]
  exact finish_raise s .instructionAddressMisaligned a

/-- An atomic at a multiple of 4. -/
theorem atomicAt_aligned {a : Word} (s : State) (e : Eff Unit) (h : a.toNat % 4 = 0) : atomicAt a s e = finish s e := by
  simp [atomicAt, (aligned4_iff a).2 h]

/-- The end of an instruction that wrote `v` to `rd`, set the reservation and left `pc` at `target`. -/
theorem completes_reserving (s : State) (rd : RegNum) (v target : Word) (b : Bool) :
    CompletesReserving b s (counterStep (((s.setX rd v).setReservation b).setPc target)) rd v target := by
  have h := completes_retired (s.setReservation b) rd v target
  have e : ((s.setReservation b).setX rd v).setPc target = ((s.setX rd v).setReservation b).setPc target := by
    unfold setX
    split <;> rfl
  rw [e] at h
  exact {
    result := h.result
    zero := h.zero
    regs := h.regs
    pc := h.pc
    counted := ⟨h.counted.1, h.counted.2, h.counted.3⟩
    csrs := h.csrs
    memory := h.memory
    reservation := h.reservation
    devices := ⟨h.devices.1, h.devices.2, h.devices.3⟩
    mode := ⟨h.mode.1, h.mode.2, h.mode.3⟩ }

/-- The same after a word stored to RAM. -/
theorem atomicStores_reserving (s : State) (rd : RegNum) (result v target : Word) (lo : Nat) (b : Bool) :
    AtomicStores b s (counterStep ((((s.ramWrite .word lo v).setX rd result).setReservation b).setPc target)) rd result lo v
      target := by
  have h := completes_reserving (s.ramWrite .word lo v) rd result target b
  have hh := ramWrite_holds s .word lo v
  exact {
    result := h.result
    zero := h.zero
    regs := fun r hr => (h.regs r hr).trans (by simp)
    stored := fun k hk => by rw [h.memory]; exact hh.1 k hk
    otherBytes := fun c hc => by rw [h.memory]; exact hh.2 c hc
    pc := h.pc
    counted := ⟨by simpa [cycleCount] using h.counted.1, h.counted.2, h.counted.3⟩
    csrs := fun c hc => (h.csrs c hc).trans (by simp)
    reservation := h.reservation
    devices := ⟨h.devices.1.trans (by simp), h.devices.2.trans (by simp), h.devices.3.trans (by simp)⟩
    mode := ⟨h.mode.1.trans (by simp), h.mode.2.trans (by simp), h.mode.3.trans (by simp)⟩ }

/-- An AMO whose two accesses answered (R243). -/
theorem amo_ok {op : Word → Word → Word} {rd rs1 rs2 : RegNum} {s u z : State} {v : Word} (ha : (s.x rs1).toNat % 4 = 0)
    (hr : memRead .word (s.x rs1) s = .ok v u) (hw : memWrite .word (s.x rs1) (op v (s.x rs2)) u = .ok () z) :
    amo op rd rs1 rs2 s = .next (counterStep ((z.setX rd v).setPc (s.pc + 4#32))) := by
  have hp : z.pc = s.pc := (memWrite_ok_kept hw).2.1.trans (memRead_ok_kept hr).2.1
  simp [amo, atomicAt_aligned _ _ ha, hr, hw, Eff.andThen, finish, retire, hp]

/-- The nine AMOs are the common rule of R243 with the operation of their row. -/
theorem exec_amo {i : Instr} {f : AmoForm} (h : amoForm i = some f) (s : State) : exec i s = amo f.op f.rd f.rs1 f.rs2 s := by
  cases i <;> simp only [amoForm, reduceCtorEq, Option.some.injEq] at h <;> subst h
  case amoaddW => simp only [exec, execAmoaddW, add_eq_ofNat]
  case amominW => simp only [exec, execAmominW, ← amoMin_eq]
  case amomaxW => simp only [exec, execAmomaxW, ← amoMax_eq]
  case amominuW => simp only [exec, execAmominuW, ← amoMinu_eq]
  case amomaxuW => simp only [exec, execAmomaxuW, ← amoMaxu_eq]
  all_goals rfl

end Sys2Proof.Machine
end

