-- ==== Sys2Proof/Laws/Exec.lean ====
section
/-!
SUPPORT. Everything an instruction can do, once: `exec_effect` says which of fourteen ends a next state of `exec` is, and
`exec_answers` that nothing else but the refusal of an unclaimed device address can come out. The rules of the whole
machine follow by cases on `Effect`, with no unfolding of a meaning.
-/

namespace Sys2Proof.Machine

open State

/-- The ways an instruction ends in a next state. -/
inductive Effect (i : Instr) (s : State) : State → Prop
  /-- A synchronous exception (R309). -/
  | raised (e : Exception) (tval : Word) (t : State) (h : raiseException e tval s = .next t) : Effect i s t
  /-- A register written, nothing read from the bus. -/
  | wrote (rd : RegNum) (v target : Word) (hd : destination i = some rd)
      (hp : target = s.pc + 4#32 ∨ target.toNat % 4 = 0) : Effect i s (counterStep ((s.setX rd v).setPc target))
  /-- A branch or a fence. -/
  | moved (target : Word) (hd : destination i = none) (hp : target = s.pc + 4#32 ∨ target.toNat % 4 = 0) :
      Effect i s (counterStep (s.setPc target))
  /-- A load. -/
  | loaded (rd : RegNum) (w : Width) (a v x : Word) (u : State) (hd : destination i = some rd)
      (hr : memRead w a s = .ok v u) : Effect i s (counterStep ((u.setX rd x).setPc (s.pc + 4#32)))
  /-- LR.W. -/
  | loadReserved (rd : RegNum) (a v : Word) (u : State) (hi : ∃ rs1 rs2 aq rl, i = .lrW rd rs1 rs2 aq rl)
      (hr : memRead .word a s = .ok v u) :
      Effect i s (counterStep (((u.setX rd v).setReservation true).setPc (s.pc + 4#32)))
  /-- A store. -/
  | stored (w : Width) (a v : Word) (u : State) (hd : destination i = none) (ha : writeAccess i s = some (w, a))
      (hw : memWrite w a v s = .ok () u) : Effect i s (counterStep (u.setPc (s.pc + 4#32)))
  /-- SC.W with the reservation held. -/
  | storeConditional (rd : RegNum) (a v : Word) (u : State) (hi : ∃ rs1 rs2 aq rl, i = .scW rd rs1 rs2 aq rl)
      (ha : writeAccess i s = some (.word, a)) (hw : memWrite .word a v s = .ok () u) :
      Effect i s (counterStep (((u.setX rd 0#32).setReservation false).setPc (s.pc + 4#32)))
  /-- An AMO. -/
  | amo (rd : RegNum) (a v x : Word) (u z : State) (hd : destination i = some rd) (ha : writeAccess i s = some (.word, a))
      (hr : memRead .word a s = .ok v u) (hw : memWrite .word a x u = .ok () z) :
      Effect i s (counterStep ((z.setX rd v).setPc (s.pc + 4#32)))
  /-- A halt of the bus: the clock alone may have been sampled. -/
  | halted (u : State) (why : HaltReason) (hu : u = s ∨ u = s.sampleClock) : Effect i s (u.halt why)
  /-- A CSR instruction that stored in a plain number. -/
  | csrPlain (rd : RegNum) (a : CsrNum) (v new : Word) (hd : destination i = some rd) (hc : (csrForm i s).isSome)
      (hf : ¬ FixedCsr a) (hr : ¬ RecheckedCsr a) :
      Effect i s (counterStep (((s.advancePc).setCsr a.toNat new).setX rd v))
  /-- A CSR instruction that stored in a masked number, `w` being the state the interrupts are checked in. -/
  | csrMasked (rd : RegNum) (a : CsrNum) (v new : Word) (w : State) (hd : destination i = some rd)
      (hc : (csrForm i s).isSome) (hr : RecheckedCsr a)
      (hw : w = (s.advancePc).setCsr a.toNat (maskedStore a new s) ∨ w = s.advancePc) :
      Effect i s (counterStep (w.setX rd v))
  /-- The same, an interrupt being taken. -/
  | csrTook (rd : RegNum) (a : CsrNum) (v new : Word) (w : State) (k : Interrupt) (hd : destination i = some rd)
      (hc : (csrForm i s).isSome) (hr : RecheckedCsr a)
      (hw : w = (s.advancePc).setCsr a.toNat (maskedStore a new s) ∨ w = s.advancePc) (hv : VectorDirect w) :
      Effect i s (counterStep ((trap k.cause 0#32 w).setX rd v))
  /-- The same, the trap entry halting. -/
  | csrHalted (a : CsrNum) (new : Word) (w : State) (k : Interrupt) (hc : (csrForm i s).isSome) (hr : RecheckedCsr a)
      (hw : w = (s.advancePc).setCsr a.toNat (maskedStore a new s) ∨ w = s.advancePc) (hv : ¬ VectorDirect w) :
      Effect i s (trap k.cause 0#32 w)
  /-- MRET. -/
  | returned (hi : ∃ rs2 rs1 rd, i = .mret rs2 rs1 rd) : Effect i s (counterStep (trapReturn s))

/-- What an instruction's outcome is: a next state by one of its effects, or the parameter's refusal. -/
def Answers (i : Instr) (s : State) (o : Out) : Prop :=
  (∃ t, o = .next t ∧ Effect i s t) ∨ (∃ a, o = .refused (.unmappedMmio a) ∧ s.cfg.unmappedMmio = .refuse)

theorem answers_raise (i : Instr) (s : State) (e : Exception) (tval : Word) : Answers i s (raiseException e tval s) := by
  obtain ⟨t, h, -⟩ := raiseException_raises e tval s
  exact .inl ⟨t, h, .raised e tval t h⟩

theorem answers_writeResult {i : Instr} {rd : RegNum} (s : State) (v : Word) (hd : destination i = some rd) :
    Answers i s (writeResult rd v s) := by
  refine .inl ⟨_, rfl, ?_⟩
  have h := Effect.wrote (s := s) rd v (s.pc + 4#32) hd (.inl rfl)
  rwa [advancePc_eq, setX_pc]

theorem answers_branch {i : Instr} (s : State) (taken : Bool) (offset : BitVec 13) (hd : destination i = none) :
    Answers i s (branch taken offset s) := by
  unfold branch
  split
  · split
    · next h => exact .inl ⟨_, rfl, .moved _ hd (.inr ((aligned4_iff _).1 h))⟩
    · exact answers_raise ..
  · exact .inl ⟨_, rfl, .moved _ hd (.inl rfl)⟩

theorem answers_load {i : Instr} {w : Width} {extend : Word → Word} {rd rs1 : RegNum} {imm : BitVec 12} (s : State)
    (hd : destination i = some rd) : Answers i s (load w extend rd rs1 imm s) := by
  unfold load
  rcases memRead_cases w (effectiveAddress (s.x rs1) imm) s with ⟨-, e⟩ | ⟨-, -, e⟩ | ⟨v, u, e, hu⟩ | ⟨e, hc⟩
  · rw [e]
    exact answers_raise ..
  · rw [e]
    exact .inl ⟨_, rfl, .halted s _ (.inl rfl)⟩
  · rw [e]
    refine .inl ⟨_, rfl, ?_⟩
    have h := Effect.loaded (s := s) rd w _ v (extend v) u hd e
    rwa [advancePc_eq, setX_pc, (memRead_ok_kept e).2.1]
  · rw [e]
    exact .inr ⟨_, rfl, hc⟩

/-- Everything a write can answer, the state of a halt included. -/
theorem answers_write {i : Instr} {w : Width} {a v : Word} {s u : State} (hu : u = s ∨ u = s.sampleClock)
    {k : Unit → State → Eff Unit}
    (hk : ∀ z, memWrite w a v u = .ok () z → Answers i s (finish s (k () z))) :
    Answers i s (finish s ((memWrite w a v u).andThen k)) := by
  have hcfg : u.cfg = s.cfg := by rcases hu with rfl | rfl <;> rfl
  rcases memWrite_cases w a v u with ⟨-, e⟩ | ⟨-, e⟩ | ⟨-, ⟨z, e, -⟩ | ⟨why, e⟩ | ⟨e, hc⟩⟩
  · rw [e]
    exact answers_raise ..
  · have h := hk _ e
    rw [e]
    exact h
  · have h := hk _ e
    rw [e]
    exact h
  · rw [e]
    exact .inl ⟨_, rfl, .halted u why hu⟩
  · rw [e]
    exact .inr ⟨_, rfl, hcfg ▸ hc⟩

theorem answers_store {i : Instr} {w : Width} {rs2 rs1 : RegNum} {imm : BitVec 12} (s : State)
    (hd : destination i = none) (ha : writeAccess i s = some (w, effectiveAddress (s.x rs1) imm)) :
    Answers i s (store w rs2 rs1 imm s) := by
  unfold store
  refine answers_write (.inl rfl) fun z h => .inl ⟨_, rfl, ?_⟩
  have he := Effect.stored w _ _ z hd ha h
  rwa [advancePc_eq, (memWrite_ok_kept h).2.1]

theorem answers_atomic {i : Instr} {a : Word} (s : State) (e : Eff Unit) (h : Answers i s (finish s e)) :
    Answers i s (atomicAt a s e) := by
  unfold atomicAt
  split
  · exact h
  · exact answers_raise ..

theorem answers_amo {i : Instr} {f : AmoForm} (s : State) (hf : amoForm i = some f) (hd : destination i = some f.rd) :
    Answers i s (amo f.op f.rd f.rs1 f.rs2 s) := by
  refine answers_atomic _ _ ?_
  have ha : writeAccess i s = some (.word, s.x f.rs1) := by simp [writeAccess, hf]
  rcases memRead_cases .word (s.x f.rs1) s with ⟨-, e⟩ | ⟨-, -, e⟩ | ⟨v, u, e, hu⟩ | ⟨e, hc⟩
  · rw [e]
    exact answers_raise ..
  · rw [e]
    exact .inl ⟨_, rfl, .halted s _ (.inl rfl)⟩
  · rw [e]
    refine answers_write hu fun z h => .inl ⟨_, rfl, ?_⟩
    have he := Effect.amo f.rd _ v _ u z hd ha e h
    rwa [advancePc_eq, setX_pc, (memWrite_ok_kept h).2.1, (memRead_ok_kept e).2.1]
  · rw [e]
    exact .inr ⟨_, rfl, hc⟩

theorem answers_csr {i : Instr} {s : State} {f : CsrForm} (h : csrForm i s = some f) (hd : destination i = some f.rd) :
    Answers i s (exec i s) := by
  rw [exec_csr h]
  unfold csrInstr
  split
  · exact answers_raise ..
  have hc : (csrForm i s).isSome := by rw [h]; rfl
  unfold csrExchange
  -- a write of a masked number, or of `mideleg`
  have key : ∀ w : State, RecheckedCsr f.number →
      (w = (s.advancePc).setCsr f.number.toNat (maskedStore f.number f.new s) ∨ w = s.advancePc) →
      Answers i s (finish s ((recheck w).andThen fun _ t => .ok () (t.setX f.rd (csrGet f.number s)))) := by
    intro w hr hw
    rcases recheck_cases w with ⟨-, e⟩ | ⟨k, -, hv, e⟩ | ⟨k, -, hv, e⟩ <;> rw [e]
    · exact .inl ⟨_, rfl, .csrMasked f.rd f.number _ f.new w hd hc hr hw⟩
    · exact .inl ⟨_, rfl, .csrTook f.rd f.number _ f.new w k hd hc hr hw hv⟩
    · exact .inl ⟨_, rfl, .csrHalted f.number f.new w k hc hr hw hv⟩
  rcases csrWriteStep_cases f.number f.new f.requested s.advancePc with ⟨-, e⟩ | ⟨-, hf, hr, e⟩ | ⟨-, hr, e | ⟨-, e⟩⟩
  · dsimp only
    rw [e]
    refine .inl ⟨_, rfl, ?_⟩
    have he := Effect.wrote (s := s) f.rd (csrGet f.number s) (s.pc + 4#32) hd (.inl rfl)
    rwa [advancePc_eq, setX_setPc]
  · dsimp only
    rw [e]
    exact .inl ⟨_, rfl, .csrPlain f.rd f.number _ f.new hd hc hf hr⟩
  · dsimp only
    rw [e]
    exact key _ hr (.inl rfl)
  · dsimp only
    rw [e]
    exact key _ hr (.inr rfl)

/-- Everything an instruction can answer. -/
theorem exec_answers (i : Instr) (s : State) : Answers i s (exec i s) := by
  cases i
  case jal rd offset =>
    simp only [exec, execJal]
    split
    · next h => exact .inl ⟨_, rfl, .wrote rd _ _ rfl (.inr ((aligned4_iff _).1 h))⟩
    · exact answers_raise ..
  case jalr rd rs1 imm =>
    simp only [exec, execJalr]
    split
    · next h => exact .inl ⟨_, rfl, .wrote rd _ _ rfl (.inr ((aligned4_iff _).1 h))⟩
    · exact answers_raise ..
  case beq => exact answers_branch s _ _ rfl
  case bne => exact answers_branch s _ _ rfl
  case blt => exact answers_branch s _ _ rfl
  case bge => exact answers_branch s _ _ rfl
  case bltu => exact answers_branch s _ _ rfl
  case bgeu => exact answers_branch s _ _ rfl
  case lb => exact answers_load s rfl
  case lh => exact answers_load s rfl
  case lw => exact answers_load s rfl
  case lbu => exact answers_load s rfl
  case lhu => exact answers_load s rfl
  case sb => exact answers_store s rfl rfl
  case sh => exact answers_store s rfl rfl
  case sw => exact answers_store s rfl rfl
  case fence => exact .inl ⟨_, rfl, .moved _ rfl (.inl rfl)⟩
  case fenceI => exact .inl ⟨_, rfl, .moved _ rfl (.inl rfl)⟩
  case lrW rd rs1 rs2 aq rl =>
    refine answers_atomic _ _ ?_
    rcases memRead_cases .word (s.x rs1) s with ⟨-, e⟩ | ⟨-, -, e⟩ | ⟨v, u, e, hu⟩ | ⟨e, hc⟩
    · rw [e]
      exact answers_raise ..
    · rw [e]
      exact .inl ⟨_, rfl, .halted s _ (.inl rfl)⟩
    · rw [e]
      refine .inl ⟨_, rfl, ?_⟩
      have h := Effect.loadReserved rd _ v u ⟨rs1, rs2, aq, rl, rfl⟩ e
      rwa [advancePc_eq, setReservation_pc, setX_pc, (memRead_ok_kept e).2.1]
    · rw [e]
      exact .inr ⟨_, rfl, hc⟩
  case scW rd rs1 rs2 aq rl =>
    refine answers_atomic _ _ ?_
    split
    · next hr =>
      refine answers_write (.inl rfl) fun z h => .inl ⟨_, rfl, ?_⟩
      have he := Effect.storeConditional (s := s) rd _ _ z ⟨rs1, rs2, aq, rl, rfl⟩
        (by simp [writeAccess, amoForm, storeAccess, hr]) h
      rwa [advancePc_eq, setReservation_pc, setX_pc, (memWrite_ok_kept h).2.1]
    · refine .inl ⟨_, rfl, ?_⟩
      have he := Effect.wrote (s := s) (i := .scW rd rs1 rs2 aq rl) rd 1#32 (s.pc + 4#32) rfl (.inl rfl)
      rwa [advancePc_eq, setX_pc]
  case amoswapW => rw [exec_amo rfl]; exact answers_amo s rfl rfl
  case amoaddW => rw [exec_amo rfl]; exact answers_amo s rfl rfl
  case amoxorW => rw [exec_amo rfl]; exact answers_amo s rfl rfl
  case amoandW => rw [exec_amo rfl]; exact answers_amo s rfl rfl
  case amoorW => rw [exec_amo rfl]; exact answers_amo s rfl rfl
  case amominW => rw [exec_amo rfl]; exact answers_amo s rfl rfl
  case amomaxW => rw [exec_amo rfl]; exact answers_amo s rfl rfl
  case amominuW => rw [exec_amo rfl]; exact answers_amo s rfl rfl
  case amomaxuW => rw [exec_amo rfl]; exact answers_amo s rfl rfl
  case csrrw => exact answers_csr rfl rfl
  case csrrs => exact answers_csr rfl rfl
  case csrrc => exact answers_csr rfl rfl
  case csrrwi => exact answers_csr rfl rfl
  case csrrsi => exact answers_csr rfl rfl
  case csrrci => exact answers_csr rfl rfl
  case ecall => exact answers_raise ..
  case ebreak => exact answers_raise ..
  case mret rs2 rs1 rd => exact .inl ⟨_, rfl, .returned ⟨rs2, rs1, rd, rfl⟩⟩
  all_goals exact answers_writeResult s _ rfl

/-- Everything a next state of an instruction can be. -/
theorem exec_effect {i : Instr} {s t : State} (h : exec i s = .next t) : Effect i s t := by
  rcases exec_answers i s with ⟨u, e, he⟩ | ⟨a, e, -⟩ <;> rw [e] at h <;> cases h
  exact he

end Sys2Proof.Machine
end

