-- ==== Sys2Proof/Laws/Invariant.lean ====
section
/-!
SUPPORT. Each shared operation keeps `Inv` (Safety.lean): one lemma per operation. A proof about a step applies them along
the operations that the step is made of.
-/

namespace Sys2Proof.Machine

open State

/-- An operation that leaves memory, CSRs, `x[0]`'s slot, the mode and the parameters alone. -/
theorem Inv.of_same {s t : State} (hi : Inv s) (hm : t.mem = s.mem) (hc : t.csrs = s.csrs) (h0 : t.regs[0] = s.regs[0])
    (hp : t.priv = s.priv) (hg : t.cfg = s.cfg) : Inv t := by
  have hcsr : ∀ a, t.csr a = s.csr a := fun a => by unfold csr; rw [hc]
  constructor
  · rw [hm]; exact hi.memoryCanonical
  · rw [hm, hg]; exact hi.memoryInRam
  · rw [hc]; exact hi.csrsCanonical
  · rw [hc]; exact hi.csrsInRange
  · rw [h0]; exact hi.zeroRegister
  · rw [hp]; exact hi.machineMode
  · rw [hcsr]; exact hi.mstatusFields
  · rw [hcsr]; exact hi.misaConstant
  · rw [hcsr]; exact hi.midelegZero
  · rw [hcsr]; exact hi.mieFields
  · rw [hcsr]; exact hi.mipFields
  · intro a ha; rw [hcsr]; exact hi.pmpZero a ha
  · intro a ha; rw [hcsr]; exact hi.readOnlyZero a ha
  · rw [hcsr, hcsr]; exact hi.instretIsCycle
  · rw [hcsr, hcsr]; exact hi.instrethIsCycleh
  · rw [hg]; exact hi.parameters

theorem inv_setX {s : State} (r : RegNum) (v : Word) (hi : Inv s) : Inv (s.setX r v) :=
  hi.of_same (by simp) (by simp) (setX_slotZero s r v) (by simp) (by simp)

theorem inv_setPc {s : State} (t : Word) (hi : Inv s) : Inv (s.setPc t) := hi.of_same rfl rfl rfl rfl rfl

theorem inv_halt {s : State} (why : HaltReason) (hi : Inv s) : Inv (s.halt why) := hi.of_same rfl rfl rfl rfl rfl

theorem inv_setReservation {s : State} (b : Bool) (hi : Inv s) : Inv (s.setReservation b) := hi.of_same rfl rfl rfl rfl rfl

theorem inv_uartPut {s : State} (b : Byte) (hi : Inv s) : Inv (s.uartPut b) := hi.of_same rfl rfl rfl rfl rfl

theorem inv_setMtimecmp {s : State} (t : Dword) (hi : Inv s) : Inv (s.setMtimecmp t) := hi.of_same rfl rfl rfl rfl rfl

theorem inv_sampleClock {s : State} (hi : Inv s) : Inv s.sampleClock := hi.of_same rfl rfl rfl rfl rfl

/-- A store of an access that lies in RAM (R53). -/
theorem inv_ramWrite {s : State} {w : Width} {a : Word} (v : Word) (hr : RamAccess s w a) (hi : Inv s) :
    Inv (s.ramWrite w a.toNat v) := by
  have h := hi
  constructor
  · exact ramWrite_keeps_wf _ _ _ _ hi.memoryCanonical
  · rw [ramWrite_cfg]
    exact ramWrite_keeps_within _ _ _ _ _ _ hr.1 hr.2 hi.memoryInRam
  · rw [ramWrite_csrs]; exact hi.csrsCanonical
  · rw [ramWrite_csrs]; exact hi.csrsInRange
  · rw [ramWrite_regs]; exact hi.zeroRegister
  · rw [ramWrite_priv]; exact hi.machineMode
  · rw [ramWrite_csr]; exact hi.mstatusFields
  · rw [ramWrite_csr]; exact hi.misaConstant
  · rw [ramWrite_csr]; exact hi.midelegZero
  · rw [ramWrite_csr]; exact hi.mieFields
  · rw [ramWrite_csr]; exact hi.mipFields
  · intro b hb; rw [ramWrite_csr]; exact hi.pmpZero b hb
  · intro b hb; rw [ramWrite_csr]; exact hi.readOnlyZero b hb
  · rw [ramWrite_csr, ramWrite_csr]; exact hi.instretIsCycle
  · rw [ramWrite_csr, ramWrite_csr]; exact hi.instrethIsCycleh
  · rw [ramWrite_cfg]; exact hi.parameters

/-- What a raw write of a CSR must respect for the invariant: the fields that hold a constant. -/
structure CsrAllowed (a : Nat) (v : Word) : Prop where
  range : a < 4096
  mstatus : a = 0x300 → v &&& 0x803FFE00#32 = 0x00001800#32
  interruptBits : a = 0x304 ∨ a = 0x344 → v &&& 0x00000222#32 = 0#32
  constant : a ≠ 0x301 ∧ a ≠ 0x303
  notPmp : ¬ (0x3A0 ≤ a ∧ a ≤ 0x3A3) ∧ ¬ (0x3B0 ≤ a ∧ a ≤ 0x3BF)
  notReadOnly : a < 0xC00
  notCounter : a ∉ counterCsrs

/-- A raw write that respects the constant fields. -/
theorem inv_setCsr {s : State} {a : Nat} {v : Word} (h : CsrAllowed a v) (hi : Inv s) : Inv (s.setCsr a v) := by
  have hn := h.notCounter
  simp only [counterCsrs, List.mem_cons, List.not_mem_nil, or_false, not_or] at hn
  constructor
  · exact hi.memoryCanonical
  · exact hi.memoryInRam
  · exact Sparse.wf_put _ _ _ _ hi.csrsCanonical
  · exact Sparse.within_put _ _ _ _ _ _ (Nat.zero_le _) h.range hi.csrsInRange
  · exact hi.zeroRegister
  · exact hi.machineMode
  · rw [csr_setCsr]; split
    · next e => exact h.mstatus e.symm
    · exact hi.mstatusFields
  · rw [csr_setCsr_other _ _ (Ne.symm h.constant.1)]; exact hi.misaConstant
  · rw [csr_setCsr_other _ _ (Ne.symm h.constant.2)]; exact hi.midelegZero
  · rw [csr_setCsr]; split
    · next e => exact h.interruptBits (.inl e.symm)
    · exact hi.mieFields
  · rw [csr_setCsr]; split
    · next e => exact h.interruptBits (.inr e.symm)
    · exact hi.mipFields
  · intro b hb
    rw [csr_setCsr_other _ _ (fun e => ?_)]
    · exact hi.pmpZero b hb
    · have h1 := (isPmp_iff b).1 hb
      have h2 := h.notPmp
      rw [e] at h1
      omega
  · intro b hb
    rw [csr_setCsr_other _ _ (fun e => ?_)]
    · exact hi.readOnlyZero b hb
    · have h1 := mt (csrWritable_iff b).2 (by simp [hb])
      have h2 := h.notReadOnly
      omega
  · rw [csr_setCsr_other _ _ (by omega), csr_setCsr_other _ _ (by omega)]; exact hi.instretIsCycle
  · rw [csr_setCsr_other _ _ (by omega), csr_setCsr_other _ _ (by omega)]; exact hi.instrethIsCycleh
  · exact hi.parameters

/-- A CSR number whose raw write is free: none of the constrained ones. -/
theorem CsrAllowed.free {a : Nat} (v : Word) (h : a < 0xC00) (h1 : a ≠ 0x300 ∧ a ≠ 0x301 ∧ a ≠ 0x303 ∧ a ≠ 0x304 ∧ a ≠ 0x344)
    (h2 : ¬ (0x3A0 ≤ a ∧ a ≤ 0x3A3) ∧ ¬ (0x3B0 ≤ a ∧ a ≤ 0x3BF)) (h3 : a ∉ counterCsrs) : CsrAllowed a v where
  range := by omega
  mstatus e := absurd e h1.1
  interruptBits e := absurd e (by omega)
  constant := ⟨h1.2.1, h1.2.2.1⟩
  notPmp := h2
  notReadOnly := h
  notCounter := h3

/-- The counter step: `minstret` is `mcycle` again (R46). -/
theorem inv_counterStep {s : State} (hi : Inv s) : Inv (counterStep s) := by
  have other : ∀ {a : Nat}, a ∉ counterCsrs → (counterStep s).csr a = s.csr a := fun h => counterStep_csr_other s h
  constructor
  · rw [counterStep_mem]; exact hi.memoryCanonical
  · rw [counterStep_mem, counterStep_cfg]; exact hi.memoryInRam
  · unfold counterStep
    exact Sparse.wf_put _ _ _ _ (Sparse.wf_put _ _ _ _ (Sparse.wf_put _ _ _ _ (Sparse.wf_put _ _ _ _ hi.csrsCanonical)))
  · unfold counterStep
    exact Sparse.within_put _ _ _ _ _ _ (by decide) (by decide) (Sparse.within_put _ _ _ _ _ _ (by decide) (by decide)
      (Sparse.within_put _ _ _ _ _ _ (by decide) (by decide) (Sparse.within_put _ _ _ _ _ _ (by decide) (by decide)
        hi.csrsInRange)))
  · rw [counterStep_regs]; exact hi.zeroRegister
  · rw [counterStep_priv]; exact hi.machineMode
  · rw [other (by decide)]; exact hi.mstatusFields
  · rw [other (by decide)]; exact hi.misaConstant
  · rw [other (by decide)]; exact hi.midelegZero
  · rw [other (by decide)]; exact hi.mieFields
  · rw [other (by decide)]; exact hi.mipFields
  · intro a ha
    have h1 := (isPmp_iff a).1 ha
    rw [other (by simp [counterCsrs]; omega)]
    exact hi.pmpZero a ha
  · intro a ha
    have h1 := mt (csrWritable_iff a).2 (by simp [ha])
    rw [other (by simp [counterCsrs]; omega)]
    exact hi.readOnlyZero a ha
  · exact (counterStep_counts s).instretLow
  · exact (counterStep_counts s).instretHigh
  · rw [counterStep_cfg]; exact hi.parameters

/-! ### The bits of `mstatus`, `mie`, `mip` -/

theorem mstatusOnTrap_fields {m : Word} (h : m &&& 0x803FFE00#32 = 0x00001800#32) :
    mstatusOnTrap .machine m &&& 0x803FFE00#32 = 0x00001800#32 := by
  apply BitVec.eq_of_getLsbD_eq
  intro k hk
  have hb := congrArg (fun w => w.getLsbD k) h
  have c : ∀ k, k < 32 → (k = 3 ∨ k = 7 → (0x803FFE00#32).getLsbD k = false) := by decide
  have d : ∀ k, k < 32 → (k = 3 ∨ k = 7 → (0x00001800#32).getLsbD k = false) := by decide
  simp only [BitVec.getLsbD_and] at hb ⊢
  rw [mstatusOnTrap_bit _ _ k hk]
  split
  · next e => rw [d k hk (.inl e)]; rfl
  split
  · next e => rw [c k hk (.inr e), d k hk (.inr e)]; exact Bool.and_false _
  split
  · next e => subst e; rfl
  split
  · next e => subst e; rfl
  · exact hb

theorem mstatusOnMret_fields {m : Word} (h : m &&& 0x803FFE00#32 = 0x00001800#32) :
    mstatusOnMret m &&& 0x803FFE00#32 = 0x00001800#32 := by
  apply BitVec.eq_of_getLsbD_eq
  intro k hk
  have hb := congrArg (fun w => w.getLsbD k) h
  have c : ∀ k, k < 32 → (k = 3 ∨ k = 7 → (0x803FFE00#32).getLsbD k = false) := by decide
  have d : ∀ k, k < 32 → (k = 3 ∨ k = 7 → (0x00001800#32).getLsbD k = false) := by decide
  simp only [BitVec.getLsbD_and] at hb ⊢
  rw [mstatusOnMret_bit _ k hk]
  split
  · next e => rw [c k hk (.inl e), d k hk (.inl e)]; exact Bool.and_false _
  split
  · next e =>
    rcases e with e | e | e <;> subst e <;> rfl
  · exact hb

theorem and_and_eq_zero {m a b : Word} (h : a &&& b = 0#32) : (m &&& a) &&& b = 0#32 := by
  rw [BitVec.and_assoc, h, BitVec.and_zero]

theorem mstatusWritten_fields (v : Word) : mstatusWritten v &&& 0x803FFE00#32 = 0x00001800#32 := by
  unfold mstatusWritten
  apply BitVec.eq_of_getLsbD_eq
  intro k hk
  have c : ∀ k, k < 32 → (((0x7FC019FF#32).getLsbD k && (0x803FFE00#32).getLsbD k) = true → (0x00001800#32).getLsbD k = true) ∧
      ((0x00001800#32).getLsbD k = true → (0x803FFE00#32).getLsbD k = true) := by decide
  obtain ⟨c1, c2⟩ := c k hk
  simp only [BitVec.getLsbD_and, BitVec.getLsbD_or]
  revert c1 c2
  generalize v.getLsbD k = x, (0x7FC019FF#32).getLsbD k = y, (0x803FFE00#32).getLsbD k = z, (0x00001800#32).getLsbD k = o
  revert x y z o
  decide

/-! ### Traps, the trap return, the timer -/

theorem inv_trapSave {s : State} (cause tval : Word) (hi : Inv s) : Inv (trapSave cause tval s) := by
  have h3 : ∀ m : Word, m &&& 0x803FFE00#32 = 0x00001800#32 → CsrAllowed 0x300 m := fun m hm =>
    ⟨by decide, fun _ => hm, fun h => absurd h (by decide), by decide, by decide, by decide, by decide⟩
  refine inv_setCsr (.free _ (by decide) (by decide) (by decide) (by decide)) (inv_setCsr (h3 _ ?_)
    (inv_setCsr (.free _ (by decide) (by decide) (by decide) (by decide))
      (inv_setCsr (.free _ (by decide) (by decide) (by decide) (by decide)) hi)))
  rw [hi.machineMode]
  exact mstatusOnTrap_fields hi.mstatusFields

theorem inv_trap {s : State} (cause tval : Word) (hi : Inv s) : Inv (trap cause tval s) := by
  unfold trap
  split
  · exact inv_setPc _ (inv_trapSave _ _ hi)
  · exact inv_halt _ (inv_trapSave _ _ hi)

theorem inv_raiseException {s t : State} {e : Exception} {tval : Word} (hi : Inv s)
    (h : raiseException e tval s = .next t) : Inv t := by
  unfold raiseException at h
  split at h <;> cases h
  · exact inv_counterStep (inv_trap _ _ hi)
  · exact inv_trap _ _ hi

theorem inv_trapReturn {s : State} (hi : Inv s) : Inv (trapReturn s) := by
  refine inv_setPc _ (inv_setCsr ⟨by decide, fun _ => mstatusOnMret_fields hi.mstatusFields, fun h => absurd h (by decide),
    by decide, by decide, by decide, by decide⟩ (hi.of_same rfl rfl rfl ?_ rfl))
  exact hi.machineMode.symm

/-- A raw write of `mip` that leaves SEIP, STIP, SSIP at 0. -/
theorem inv_setMip {s : State} {v : Word} (hv : v &&& 0x00000222#32 = 0#32) (hi : Inv s) : Inv (s.setCsr 0x344 v) :=
  inv_setCsr ⟨by decide, fun h => absurd h (by decide), fun _ => hv, by decide, by decide, by decide, by decide⟩ hi

theorem inv_timerCheck {s : State} (hi : Inv s) : Inv (timerCheck s) := by
  rcases timerCheck_eq s with e | e <;> rw [e]
  · exact inv_sampleClock hi
  · refine inv_setMip ?_ (inv_sampleClock hi)
    have h := hi.mipFields
    apply BitVec.eq_of_getLsbD_eq
    intro k hk
    have hb := congrArg (fun w => w.getLsbD k) h
    have c : ∀ k, k < 32 → ((0x00000080#32).getLsbD k && (0x00000222#32).getLsbD k) = false := by decide
    simp only [BitVec.getLsbD_and, BitVec.getLsbD_or, Bool.and_or_distrib_right] at hb ⊢
    rw [c k hk, Bool.or_false]
    exact hb

theorem inv_mtipClearTest {s : State} (hi : Inv s) : Inv (mtipClearTest s) := by
  rcases mtipClearTest_eq s with e | e <;> rw [e]
  · exact inv_sampleClock hi
  · refine inv_setMip ?_ (inv_sampleClock hi)
    have h := hi.mipFields
    rw [BitVec.and_assoc, BitVec.and_comm (0xFFFFFF7F#32), ← BitVec.and_assoc, h, BitVec.zero_and]

/-- The bus: a read. -/
theorem inv_memRead {s u : State} {w : Width} {a v : Word} (h : memRead w a s = .ok v u) (hi : Inv s) : Inv u := by
  rcases memRead_ok_state h with rfl | rfl
  · exact hi
  · exact inv_sampleClock hi

/-- The bus: a write. -/
theorem inv_memWrite {s u : State} {w : Width} {a v : Word} (h : memWrite w a v s = .ok () u) (hi : Inv s) : Inv u := by
  rcases memWrite_cases w a v s with ⟨-, e⟩ | ⟨hr, e⟩ | ⟨-, ⟨_, e, hu⟩ | ⟨_, e⟩ | ⟨e, -⟩⟩ <;> rw [e] at h <;> cases h
  · exact inv_ramWrite v hr hi
  · rcases hu with rfl | ⟨b, rfl⟩ | ⟨t, rfl⟩
    · exact hi
    · exact inv_uartPut b hi
    · exact inv_mtipClearTest (inv_setMtimecmp t hi)

/-- A CSR instruction's store in a plain number. -/
theorem csrAllowed_plain {a : CsrNum} (v : Word) (hf : ¬ FixedCsr a) (hr : ¬ RecheckedCsr a) : CsrAllowed a.toNat v := by
  simp only [FixedCsr, RecheckedCsr, counterCsrs, List.mem_cons, List.not_mem_nil, or_false, not_or] at hf hr
  exact .free _ (by omega) (by omega) (by omega) (by simp [counterCsrs]; omega)

/-- A CSR instruction's store in a masked number other than `mideleg`. -/
theorem inv_maskedStore {s : State} {a : CsrNum} (new : Word) (hr : RecheckedCsr a) {t : State} (ht : Inv t)
    (hs : t.csr 0x303 = s.csr 0x303) : Inv (t.setCsr a.toNat (maskedStore a new s)) := by
  simp only [RecheckedCsr, List.mem_cons, List.not_mem_nil, or_false] at hr
  rcases hr with h | h | h | h
  · rw [h]
    have e : maskedStore a new s = mstatusWritten new := by simp [maskedStore, h, mstatusWritten]
    rw [e]
    exact inv_setCsr ⟨by decide, fun _ => mstatusWritten_fields new, fun h => absurd h (by decide), by decide, by decide,
      by decide, by decide⟩ ht
  · have e : maskedStore a new s = s.csr 0x303 := by simp [maskedStore, h]
    rw [h, e, ← hs]
    have hput : (t.setCsr 0x303 (t.csr 0x303)).csrs = t.csrs :=
      Sparse.ext_of_wf _ _ _ (Sparse.wf_put _ _ _ _ ht.csrsCanonical) ht.csrsCanonical fun b => by
        show (t.setCsr 0x303 (t.csr 0x303)).csr b = t.csr b
        rw [csr_setCsr]
        split
        · next e => rw [e]
        · rfl
    exact ht.of_same rfl hput rfl rfl rfl
  · rw [h]
    have e : maskedStore a new s = new &&& 0xFFFFFDDD#32 := by simp [maskedStore, h]
    rw [e]
    exact inv_setCsr ⟨by decide, fun h => absurd h (by decide), fun _ => and_and_eq_zero (by decide), by decide, by decide,
      by decide, by decide⟩ ht
  · rw [h]
    have e : maskedStore a new s = new &&& 0xFFFFFDDD#32 := by simp [maskedStore, h]
    rw [e]
    exact inv_setMip (and_and_eq_zero (by decide)) ht

end Sys2Proof.Machine
end

