-- ==== Sys2Proof/Laws/OpcodeTable.lean ====
section
/-!
SUPPORT. The five masks of the opcode table (30_encoding.md R132) as equalities of fields: a word matches a row exactly when
its key fields are those of the row's pattern.
-/

namespace Sys2Proof

/-- Equality under a mask, bit by bit. -/
theorem masked_eq_iff (w p m : Word) :
    w &&& m = p &&& m ↔ ∀ k, k < 32 → m.getLsbD k = true → w.getLsbD k = p.getLsbD k := by
  constructor
  · intro h k _ hm
    have := congrArg (fun v => v.getLsbD k) h
    simpa [BitVec.getLsbD_and, hm] using this
  · intro h
    apply BitVec.eq_of_getLsbD_eq
    intro k hk
    rw [BitVec.getLsbD_and, BitVec.getLsbD_and]
    cases hm : m.getLsbD k
    · simp
    · simp [h k hk hm]

/-- Equality of a field, bit by bit. -/
theorem field_eq_iff (w p : Word) (lo len : Nat) :
    w.extractLsb' lo len = p.extractLsb' lo len ↔ ∀ k, k < len → w.getLsbD (lo + k) = p.getLsbD (lo + k) := by
  constructor
  · intro h k hk
    have := congrArg (fun v => v.getLsbD k) h
    simpa [BitVec.getLsbD_extractLsb', hk] using this
  · intro h
    apply BitVec.eq_of_getLsbD_eq
    intro k hk
    rw [BitVec.getLsbD_extractLsb', BitVec.getLsbD_extractLsb']
    simp [hk, h k hk]

/-- A row's test as an equality under its mask. -/
theorem matchesWord_iff (r : OpcodeRow) (w : Word) (h : r.pattern &&& r.mask = r.pattern) :
    r.matchesWord w = true ↔ w &&& r.mask = r.pattern &&& r.mask := by
  rw [h]
  simp [OpcodeRow.matchesWord]

section

variable (w p : Word)

/-- Mask `0x0000007F`: the opcode. -/
theorem mask_opcode : w &&& 0x0000007F#32 = p &&& 0x0000007F#32 ↔ opcodeField w = opcodeField p := by
  have bits : ∀ k, k < 32 → (0x0000007F#32).getLsbD k = decide (k < 7) := by decide
  rw [masked_eq_iff, opcodeField, opcodeField, field_eq_iff]
  constructor
  · intro h k hk
    exact h (0 + k) (by omega) (by rw [bits _ (by omega)]; simp; omega)
  · intro h k hk hm
    rw [bits k hk, decide_eq_true_eq] at hm
    simpa using h k hm

/-- Mask `0x0000707F`: the opcode and `funct3`. -/
theorem mask_funct3 :
    w &&& 0x0000707F#32 = p &&& 0x0000707F#32 ↔ opcodeField w = opcodeField p ∧ funct3Field w = funct3Field p := by
  have bits : ∀ k, k < 32 → (0x0000707F#32).getLsbD k = decide (k < 7 ∨ 12 ≤ k ∧ k < 15) := by decide
  rw [masked_eq_iff, opcodeField, opcodeField, field_eq_iff, funct3Field, funct3Field, field_eq_iff]
  constructor
  · intro h
    exact ⟨fun k hk => h (0 + k) (by omega) (by rw [bits _ (by omega)]; simp; omega),
      fun k hk => h (12 + k) (by omega) (by rw [bits _ (by omega)]; simp; omega)⟩
  · intro h k hk hm
    rw [bits k hk, decide_eq_true_eq] at hm
    rcases hm with hm | hm
    · simpa using h.1 k hm
    · have := h.2 (k - 12) (by omega)
      rwa [Nat.add_sub_cancel' hm.1] at this

/-- A mask that looks at the bits from `lo` up beside the opcode and `funct3`. -/
theorem mask_upper (m : Word) (lo : Nat) (hlo : 15 ≤ lo) (hlo' : lo ≤ 32)
    (bits : ∀ k, k < 32 → m.getLsbD k = decide (k < 7 ∨ (12 ≤ k ∧ k < 15) ∨ lo ≤ k)) :
    w &&& m = p &&& m ↔
      opcodeField w = opcodeField p ∧ funct3Field w = funct3Field p ∧
        w.extractLsb' lo (32 - lo) = p.extractLsb' lo (32 - lo) := by
  rw [masked_eq_iff, opcodeField, opcodeField, field_eq_iff, funct3Field, funct3Field, field_eq_iff, field_eq_iff]
  constructor
  · intro h
    exact ⟨fun k hk => h (0 + k) (by omega) (by rw [bits _ (by omega)]; simp; omega),
      fun k hk => h (12 + k) (by omega) (by rw [bits _ (by omega)]; simp; omega),
      fun k hk => h (lo + k) (by omega) (by rw [bits _ (by omega)]; simp)⟩
  · intro h k hk hm
    rw [bits k hk, decide_eq_true_eq] at hm
    rcases hm with hm | hm | hm
    · simpa using h.1 k hm
    · have := h.2.1 (k - 12) (by omega)
      rwa [Nat.add_sub_cancel' hm.1] at this
    · have := h.2.2 (k - lo) (by omega)
      rwa [Nat.add_sub_cancel' hm] at this

/-- Mask `0xFE00707F`: the opcode, `funct3` and `funct7`. -/
theorem mask_funct7 :
    w &&& 0xFE00707F#32 = p &&& 0xFE00707F#32 ↔
      opcodeField w = opcodeField p ∧ funct3Field w = funct3Field p ∧ funct7Field w = funct7Field p :=
  mask_upper w p 0xFE00707F#32 25 (by decide) (by decide) (by decide)

/-- Mask `0xF800707F`: the opcode, `funct3` and `funct5`. -/
theorem mask_funct5 :
    w &&& 0xF800707F#32 = p &&& 0xF800707F#32 ↔
      opcodeField w = opcodeField p ∧ funct3Field w = funct3Field p ∧ funct5Field w = funct5Field p :=
  mask_upper w p 0xF800707F#32 27 (by decide) (by decide) (by decide)

/-- Mask `0xFFF0707F`: the opcode, `funct3` and `imm12`. -/
theorem mask_imm12 :
    w &&& 0xFFF0707F#32 = p &&& 0xFFF0707F#32 ↔
      opcodeField w = opcodeField p ∧ funct3Field w = funct3Field p ∧ csrField w = csrField p :=
  mask_upper w p 0xFFF0707F#32 20 (by decide) (by decide) (by decide)

end

end Sys2Proof
end

