-- ==== Sys2Proof/Laws/PerInstr.lean ====
section
/-!
SUPPORT. One lemma per instruction: its word matches the row of 30_encoding.md R132 that bears its mnemonic.
-/

namespace Sys2Proof.Laws.TableRow

/-- The word of the instruction matches the row of its mnemonic. -/
def Statement (i : Instr) : Prop := ∃ r ∈ opcodeTable, r.mnemonic = i.mnemonic ∧ r.matchesWord (encode i) = true

/-- The row at a place of the table. -/
theorem of_row (n : Nat) (i : Instr) (r : OpcodeRow) (hr : opcodeTable[n]? = some r) (hm : r.mnemonic = i.mnemonic)
    (hp : r.pattern &&& r.mask = r.pattern) (h : encode i &&& r.mask = r.pattern &&& r.mask) : Statement i :=
  ⟨r, List.mem_of_getElem? hr, hm, (matchesWord_iff r (encode i) hp).2 h⟩

theorem lui (rd : RegNum) (imm : BitVec 20) : Statement (.lui rd imm) :=
  of_row 0 _ ⟨"LUI", 0x00000037#32, 0x0000007F#32⟩ rfl rfl rfl ((mask_opcode _ _).2
    (opcodeField_encU _ _ _))

theorem auipc (rd : RegNum) (imm : BitVec 20) : Statement (.auipc rd imm) :=
  of_row 1 _ ⟨"AUIPC", 0x00000017#32, 0x0000007F#32⟩ rfl rfl rfl ((mask_opcode _ _).2
    (opcodeField_encU _ _ _))

theorem addi (rd rs1 : RegNum) (imm : BitVec 12) : Statement (.addi rd rs1 imm) :=
  of_row 2 _ ⟨"ADDI", 0x00000013#32, 0x0000707F#32⟩ rfl rfl rfl ((mask_funct3 _ _).2
    ⟨opcodeField_encI _ _ _ _ _, funct3Field_encI _ _ _ _ _⟩)

theorem slti (rd rs1 : RegNum) (imm : BitVec 12) : Statement (.slti rd rs1 imm) :=
  of_row 3 _ ⟨"SLTI", 0x00002013#32, 0x0000707F#32⟩ rfl rfl rfl ((mask_funct3 _ _).2
    ⟨opcodeField_encI _ _ _ _ _, funct3Field_encI _ _ _ _ _⟩)

theorem sltiu (rd rs1 : RegNum) (imm : BitVec 12) : Statement (.sltiu rd rs1 imm) :=
  of_row 4 _ ⟨"SLTIU", 0x00003013#32, 0x0000707F#32⟩ rfl rfl rfl ((mask_funct3 _ _).2
    ⟨opcodeField_encI _ _ _ _ _, funct3Field_encI _ _ _ _ _⟩)

theorem xori (rd rs1 : RegNum) (imm : BitVec 12) : Statement (.xori rd rs1 imm) :=
  of_row 5 _ ⟨"XORI", 0x00004013#32, 0x0000707F#32⟩ rfl rfl rfl ((mask_funct3 _ _).2
    ⟨opcodeField_encI _ _ _ _ _, funct3Field_encI _ _ _ _ _⟩)

theorem ori (rd rs1 : RegNum) (imm : BitVec 12) : Statement (.ori rd rs1 imm) :=
  of_row 6 _ ⟨"ORI", 0x00006013#32, 0x0000707F#32⟩ rfl rfl rfl ((mask_funct3 _ _).2
    ⟨opcodeField_encI _ _ _ _ _, funct3Field_encI _ _ _ _ _⟩)

theorem andi (rd rs1 : RegNum) (imm : BitVec 12) : Statement (.andi rd rs1 imm) :=
  of_row 7 _ ⟨"ANDI", 0x00007013#32, 0x0000707F#32⟩ rfl rfl rfl ((mask_funct3 _ _).2
    ⟨opcodeField_encI _ _ _ _ _, funct3Field_encI _ _ _ _ _⟩)

theorem slli (rd rs1 : RegNum) (shamt : BitVec 5) : Statement (.slli rd rs1 shamt) :=
  of_row 8 _ ⟨"SLLI", 0x00001013#32, 0xFE00707F#32⟩ rfl rfl rfl ((mask_funct7 _ _).2
    ⟨opcodeField_encShift _ _ _ _ _, funct3Field_encShift _ _ _ _ _, funct7Field_encShift _ _ _ _ _⟩)

theorem srli (rd rs1 : RegNum) (shamt : BitVec 5) : Statement (.srli rd rs1 shamt) :=
  of_row 9 _ ⟨"SRLI", 0x00005013#32, 0xFE00707F#32⟩ rfl rfl rfl ((mask_funct7 _ _).2
    ⟨opcodeField_encShift _ _ _ _ _, funct3Field_encShift _ _ _ _ _, funct7Field_encShift _ _ _ _ _⟩)

theorem srai (rd rs1 : RegNum) (shamt : BitVec 5) : Statement (.srai rd rs1 shamt) :=
  of_row 10 _ ⟨"SRAI", 0x40005013#32, 0xFE00707F#32⟩ rfl rfl rfl ((mask_funct7 _ _).2
    ⟨opcodeField_encShift _ _ _ _ _, funct3Field_encShift _ _ _ _ _, funct7Field_encShift _ _ _ _ _⟩)

theorem add (rd rs1 rs2 : RegNum) : Statement (.add rd rs1 rs2) :=
  of_row 11 _ ⟨"ADD", 0x00000033#32, 0xFE00707F#32⟩ rfl rfl rfl ((mask_funct7 _ _).2
    ⟨opcodeField_encR _ _ _ _ _ _, funct3Field_encR _ _ _ _ _ _, funct7Field_encR _ _ _ _ _ _⟩)

theorem sub (rd rs1 rs2 : RegNum) : Statement (.sub rd rs1 rs2) :=
  of_row 12 _ ⟨"SUB", 0x40000033#32, 0xFE00707F#32⟩ rfl rfl rfl ((mask_funct7 _ _).2
    ⟨opcodeField_encR _ _ _ _ _ _, funct3Field_encR _ _ _ _ _ _, funct7Field_encR _ _ _ _ _ _⟩)

theorem sll (rd rs1 rs2 : RegNum) : Statement (.sll rd rs1 rs2) :=
  of_row 13 _ ⟨"SLL", 0x00001033#32, 0xFE00707F#32⟩ rfl rfl rfl ((mask_funct7 _ _).2
    ⟨opcodeField_encR _ _ _ _ _ _, funct3Field_encR _ _ _ _ _ _, funct7Field_encR _ _ _ _ _ _⟩)

theorem slt (rd rs1 rs2 : RegNum) : Statement (.slt rd rs1 rs2) :=
  of_row 14 _ ⟨"SLT", 0x00002033#32, 0xFE00707F#32⟩ rfl rfl rfl ((mask_funct7 _ _).2
    ⟨opcodeField_encR _ _ _ _ _ _, funct3Field_encR _ _ _ _ _ _, funct7Field_encR _ _ _ _ _ _⟩)

theorem sltu (rd rs1 rs2 : RegNum) : Statement (.sltu rd rs1 rs2) :=
  of_row 15 _ ⟨"SLTU", 0x00003033#32, 0xFE00707F#32⟩ rfl rfl rfl ((mask_funct7 _ _).2
    ⟨opcodeField_encR _ _ _ _ _ _, funct3Field_encR _ _ _ _ _ _, funct7Field_encR _ _ _ _ _ _⟩)

theorem xor (rd rs1 rs2 : RegNum) : Statement (.xor rd rs1 rs2) :=
  of_row 16 _ ⟨"XOR", 0x00004033#32, 0xFE00707F#32⟩ rfl rfl rfl ((mask_funct7 _ _).2
    ⟨opcodeField_encR _ _ _ _ _ _, funct3Field_encR _ _ _ _ _ _, funct7Field_encR _ _ _ _ _ _⟩)

theorem srl (rd rs1 rs2 : RegNum) : Statement (.srl rd rs1 rs2) :=
  of_row 17 _ ⟨"SRL", 0x00005033#32, 0xFE00707F#32⟩ rfl rfl rfl ((mask_funct7 _ _).2
    ⟨opcodeField_encR _ _ _ _ _ _, funct3Field_encR _ _ _ _ _ _, funct7Field_encR _ _ _ _ _ _⟩)

theorem sra (rd rs1 rs2 : RegNum) : Statement (.sra rd rs1 rs2) :=
  of_row 18 _ ⟨"SRA", 0x40005033#32, 0xFE00707F#32⟩ rfl rfl rfl ((mask_funct7 _ _).2
    ⟨opcodeField_encR _ _ _ _ _ _, funct3Field_encR _ _ _ _ _ _, funct7Field_encR _ _ _ _ _ _⟩)

theorem or (rd rs1 rs2 : RegNum) : Statement (.or rd rs1 rs2) :=
  of_row 19 _ ⟨"OR", 0x00006033#32, 0xFE00707F#32⟩ rfl rfl rfl ((mask_funct7 _ _).2
    ⟨opcodeField_encR _ _ _ _ _ _, funct3Field_encR _ _ _ _ _ _, funct7Field_encR _ _ _ _ _ _⟩)

theorem and (rd rs1 rs2 : RegNum) : Statement (.and rd rs1 rs2) :=
  of_row 20 _ ⟨"AND", 0x00007033#32, 0xFE00707F#32⟩ rfl rfl rfl ((mask_funct7 _ _).2
    ⟨opcodeField_encR _ _ _ _ _ _, funct3Field_encR _ _ _ _ _ _, funct7Field_encR _ _ _ _ _ _⟩)

theorem jal (rd : RegNum) (offset : BitVec 21) : Statement (.jal rd offset) :=
  of_row 21 _ ⟨"JAL", 0x0000006F#32, 0x0000007F#32⟩ rfl rfl rfl ((mask_opcode _ _).2
    (opcodeField_encJ _ _))

theorem jalr (rd rs1 : RegNum) (imm : BitVec 12) : Statement (.jalr rd rs1 imm) :=
  of_row 22 _ ⟨"JALR", 0x00000067#32, 0x0000707F#32⟩ rfl rfl rfl ((mask_funct3 _ _).2
    ⟨opcodeField_encI _ _ _ _ _, funct3Field_encI _ _ _ _ _⟩)

theorem beq (rs1 rs2 : RegNum) (offset : BitVec 13) : Statement (.beq rs1 rs2 offset) :=
  of_row 23 _ ⟨"BEQ", 0x00000063#32, 0x0000707F#32⟩ rfl rfl rfl ((mask_funct3 _ _).2
    ⟨opcodeField_encB _ _ _ _, funct3Field_encB _ _ _ _⟩)

theorem bne (rs1 rs2 : RegNum) (offset : BitVec 13) : Statement (.bne rs1 rs2 offset) :=
  of_row 24 _ ⟨"BNE", 0x00001063#32, 0x0000707F#32⟩ rfl rfl rfl ((mask_funct3 _ _).2
    ⟨opcodeField_encB _ _ _ _, funct3Field_encB _ _ _ _⟩)

theorem blt (rs1 rs2 : RegNum) (offset : BitVec 13) : Statement (.blt rs1 rs2 offset) :=
  of_row 25 _ ⟨"BLT", 0x00004063#32, 0x0000707F#32⟩ rfl rfl rfl ((mask_funct3 _ _).2
    ⟨opcodeField_encB _ _ _ _, funct3Field_encB _ _ _ _⟩)

theorem bge (rs1 rs2 : RegNum) (offset : BitVec 13) : Statement (.bge rs1 rs2 offset) :=
  of_row 26 _ ⟨"BGE", 0x00005063#32, 0x0000707F#32⟩ rfl rfl rfl ((mask_funct3 _ _).2
    ⟨opcodeField_encB _ _ _ _, funct3Field_encB _ _ _ _⟩)

theorem bltu (rs1 rs2 : RegNum) (offset : BitVec 13) : Statement (.bltu rs1 rs2 offset) :=
  of_row 27 _ ⟨"BLTU", 0x00006063#32, 0x0000707F#32⟩ rfl rfl rfl ((mask_funct3 _ _).2
    ⟨opcodeField_encB _ _ _ _, funct3Field_encB _ _ _ _⟩)

theorem bgeu (rs1 rs2 : RegNum) (offset : BitVec 13) : Statement (.bgeu rs1 rs2 offset) :=
  of_row 28 _ ⟨"BGEU", 0x00007063#32, 0x0000707F#32⟩ rfl rfl rfl ((mask_funct3 _ _).2
    ⟨opcodeField_encB _ _ _ _, funct3Field_encB _ _ _ _⟩)

theorem lb (rd rs1 : RegNum) (imm : BitVec 12) : Statement (.lb rd rs1 imm) :=
  of_row 29 _ ⟨"LB", 0x00000003#32, 0x0000707F#32⟩ rfl rfl rfl ((mask_funct3 _ _).2
    ⟨opcodeField_encI _ _ _ _ _, funct3Field_encI _ _ _ _ _⟩)

theorem lh (rd rs1 : RegNum) (imm : BitVec 12) : Statement (.lh rd rs1 imm) :=
  of_row 30 _ ⟨"LH", 0x00001003#32, 0x0000707F#32⟩ rfl rfl rfl ((mask_funct3 _ _).2
    ⟨opcodeField_encI _ _ _ _ _, funct3Field_encI _ _ _ _ _⟩)

theorem lw (rd rs1 : RegNum) (imm : BitVec 12) : Statement (.lw rd rs1 imm) :=
  of_row 31 _ ⟨"LW", 0x00002003#32, 0x0000707F#32⟩ rfl rfl rfl ((mask_funct3 _ _).2
    ⟨opcodeField_encI _ _ _ _ _, funct3Field_encI _ _ _ _ _⟩)

theorem lbu (rd rs1 : RegNum) (imm : BitVec 12) : Statement (.lbu rd rs1 imm) :=
  of_row 32 _ ⟨"LBU", 0x00004003#32, 0x0000707F#32⟩ rfl rfl rfl ((mask_funct3 _ _).2
    ⟨opcodeField_encI _ _ _ _ _, funct3Field_encI _ _ _ _ _⟩)

theorem lhu (rd rs1 : RegNum) (imm : BitVec 12) : Statement (.lhu rd rs1 imm) :=
  of_row 33 _ ⟨"LHU", 0x00005003#32, 0x0000707F#32⟩ rfl rfl rfl ((mask_funct3 _ _).2
    ⟨opcodeField_encI _ _ _ _ _, funct3Field_encI _ _ _ _ _⟩)

theorem sb (rs2 rs1 : RegNum) (imm : BitVec 12) : Statement (.sb rs2 rs1 imm) :=
  of_row 34 _ ⟨"SB", 0x00000023#32, 0x0000707F#32⟩ rfl rfl rfl ((mask_funct3 _ _).2
    ⟨opcodeField_encS _ _ _ _, funct3Field_encS _ _ _ _⟩)

theorem sh (rs2 rs1 : RegNum) (imm : BitVec 12) : Statement (.sh rs2 rs1 imm) :=
  of_row 35 _ ⟨"SH", 0x00001023#32, 0x0000707F#32⟩ rfl rfl rfl ((mask_funct3 _ _).2
    ⟨opcodeField_encS _ _ _ _, funct3Field_encS _ _ _ _⟩)

theorem sw (rs2 rs1 : RegNum) (imm : BitVec 12) : Statement (.sw rs2 rs1 imm) :=
  of_row 36 _ ⟨"SW", 0x00002023#32, 0x0000707F#32⟩ rfl rfl rfl ((mask_funct3 _ _).2
    ⟨opcodeField_encS _ _ _ _, funct3Field_encS _ _ _ _⟩)

theorem fence (fm pred succ : BitVec 4) (rs1 rd : RegNum) : Statement (.fence fm pred succ rs1 rd) :=
  of_row 37 _ ⟨"FENCE", 0x0000000F#32, 0x0000707F#32⟩ rfl rfl rfl ((mask_funct3 _ _).2
    ⟨opcodeField_fence _ _ _ _ _, funct3Field_fence _ _ _ _ _⟩)

theorem fenceI (imm : BitVec 12) (rs1 rd : RegNum) : Statement (.fenceI imm rs1 rd) :=
  of_row 38 _ ⟨"FENCE.I", 0x0000100F#32, 0x0000707F#32⟩ rfl rfl rfl ((mask_funct3 _ _).2
    ⟨opcodeField_encI _ _ _ _ _, funct3Field_encI _ _ _ _ _⟩)

theorem mul (rd rs1 rs2 : RegNum) : Statement (.mul rd rs1 rs2) :=
  of_row 39 _ ⟨"MUL", 0x02000033#32, 0xFE00707F#32⟩ rfl rfl rfl ((mask_funct7 _ _).2
    ⟨opcodeField_encR _ _ _ _ _ _, funct3Field_encR _ _ _ _ _ _, funct7Field_encR _ _ _ _ _ _⟩)

theorem mulh (rd rs1 rs2 : RegNum) : Statement (.mulh rd rs1 rs2) :=
  of_row 40 _ ⟨"MULH", 0x02001033#32, 0xFE00707F#32⟩ rfl rfl rfl ((mask_funct7 _ _).2
    ⟨opcodeField_encR _ _ _ _ _ _, funct3Field_encR _ _ _ _ _ _, funct7Field_encR _ _ _ _ _ _⟩)

theorem mulhsu (rd rs1 rs2 : RegNum) : Statement (.mulhsu rd rs1 rs2) :=
  of_row 41 _ ⟨"MULHSU", 0x02002033#32, 0xFE00707F#32⟩ rfl rfl rfl ((mask_funct7 _ _).2
    ⟨opcodeField_encR _ _ _ _ _ _, funct3Field_encR _ _ _ _ _ _, funct7Field_encR _ _ _ _ _ _⟩)

theorem mulhu (rd rs1 rs2 : RegNum) : Statement (.mulhu rd rs1 rs2) :=
  of_row 42 _ ⟨"MULHU", 0x02003033#32, 0xFE00707F#32⟩ rfl rfl rfl ((mask_funct7 _ _).2
    ⟨opcodeField_encR _ _ _ _ _ _, funct3Field_encR _ _ _ _ _ _, funct7Field_encR _ _ _ _ _ _⟩)

theorem div (rd rs1 rs2 : RegNum) : Statement (.div rd rs1 rs2) :=
  of_row 43 _ ⟨"DIV", 0x02004033#32, 0xFE00707F#32⟩ rfl rfl rfl ((mask_funct7 _ _).2
    ⟨opcodeField_encR _ _ _ _ _ _, funct3Field_encR _ _ _ _ _ _, funct7Field_encR _ _ _ _ _ _⟩)

theorem divu (rd rs1 rs2 : RegNum) : Statement (.divu rd rs1 rs2) :=
  of_row 44 _ ⟨"DIVU", 0x02005033#32, 0xFE00707F#32⟩ rfl rfl rfl ((mask_funct7 _ _).2
    ⟨opcodeField_encR _ _ _ _ _ _, funct3Field_encR _ _ _ _ _ _, funct7Field_encR _ _ _ _ _ _⟩)

theorem rem (rd rs1 rs2 : RegNum) : Statement (.rem rd rs1 rs2) :=
  of_row 45 _ ⟨"REM", 0x02006033#32, 0xFE00707F#32⟩ rfl rfl rfl ((mask_funct7 _ _).2
    ⟨opcodeField_encR _ _ _ _ _ _, funct3Field_encR _ _ _ _ _ _, funct7Field_encR _ _ _ _ _ _⟩)

theorem remu (rd rs1 rs2 : RegNum) : Statement (.remu rd rs1 rs2) :=
  of_row 46 _ ⟨"REMU", 0x02007033#32, 0xFE00707F#32⟩ rfl rfl rfl ((mask_funct7 _ _).2
    ⟨opcodeField_encR _ _ _ _ _ _, funct3Field_encR _ _ _ _ _ _, funct7Field_encR _ _ _ _ _ _⟩)

theorem lrW (rd rs1 rs2 : RegNum) (aq rl : Bool) : Statement (.lrW rd rs1 rs2 aq rl) :=
  of_row 47 _ ⟨"LR.W", 0x1000202F#32, 0xF800707F#32⟩ rfl rfl rfl ((mask_funct5 _ _).2
    ⟨opcodeField_encAmo _ _ _ _ _ _, funct3Field_encAmo _ _ _ _ _ _, funct5Field_encAmo _ _ _ _ _ _⟩)

theorem scW (rd rs1 rs2 : RegNum) (aq rl : Bool) : Statement (.scW rd rs1 rs2 aq rl) :=
  of_row 48 _ ⟨"SC.W", 0x1800202F#32, 0xF800707F#32⟩ rfl rfl rfl ((mask_funct5 _ _).2
    ⟨opcodeField_encAmo _ _ _ _ _ _, funct3Field_encAmo _ _ _ _ _ _, funct5Field_encAmo _ _ _ _ _ _⟩)

theorem amoswapW (rd rs1 rs2 : RegNum) (aq rl : Bool) : Statement (.amoswapW rd rs1 rs2 aq rl) :=
  of_row 49 _ ⟨"AMOSWAP.W", 0x0800202F#32, 0xF800707F#32⟩ rfl rfl rfl ((mask_funct5 _ _).2
    ⟨opcodeField_encAmo _ _ _ _ _ _, funct3Field_encAmo _ _ _ _ _ _, funct5Field_encAmo _ _ _ _ _ _⟩)

theorem amoaddW (rd rs1 rs2 : RegNum) (aq rl : Bool) : Statement (.amoaddW rd rs1 rs2 aq rl) :=
  of_row 50 _ ⟨"AMOADD.W", 0x0000202F#32, 0xF800707F#32⟩ rfl rfl rfl ((mask_funct5 _ _).2
    ⟨opcodeField_encAmo _ _ _ _ _ _, funct3Field_encAmo _ _ _ _ _ _, funct5Field_encAmo _ _ _ _ _ _⟩)

theorem amoxorW (rd rs1 rs2 : RegNum) (aq rl : Bool) : Statement (.amoxorW rd rs1 rs2 aq rl) :=
  of_row 51 _ ⟨"AMOXOR.W", 0x2000202F#32, 0xF800707F#32⟩ rfl rfl rfl ((mask_funct5 _ _).2
    ⟨opcodeField_encAmo _ _ _ _ _ _, funct3Field_encAmo _ _ _ _ _ _, funct5Field_encAmo _ _ _ _ _ _⟩)

theorem amoandW (rd rs1 rs2 : RegNum) (aq rl : Bool) : Statement (.amoandW rd rs1 rs2 aq rl) :=
  of_row 52 _ ⟨"AMOAND.W", 0x6000202F#32, 0xF800707F#32⟩ rfl rfl rfl ((mask_funct5 _ _).2
    ⟨opcodeField_encAmo _ _ _ _ _ _, funct3Field_encAmo _ _ _ _ _ _, funct5Field_encAmo _ _ _ _ _ _⟩)

theorem amoorW (rd rs1 rs2 : RegNum) (aq rl : Bool) : Statement (.amoorW rd rs1 rs2 aq rl) :=
  of_row 53 _ ⟨"AMOOR.W", 0x4000202F#32, 0xF800707F#32⟩ rfl rfl rfl ((mask_funct5 _ _).2
    ⟨opcodeField_encAmo _ _ _ _ _ _, funct3Field_encAmo _ _ _ _ _ _, funct5Field_encAmo _ _ _ _ _ _⟩)

theorem amominW (rd rs1 rs2 : RegNum) (aq rl : Bool) : Statement (.amominW rd rs1 rs2 aq rl) :=
  of_row 54 _ ⟨"AMOMIN.W", 0x8000202F#32, 0xF800707F#32⟩ rfl rfl rfl ((mask_funct5 _ _).2
    ⟨opcodeField_encAmo _ _ _ _ _ _, funct3Field_encAmo _ _ _ _ _ _, funct5Field_encAmo _ _ _ _ _ _⟩)

theorem amomaxW (rd rs1 rs2 : RegNum) (aq rl : Bool) : Statement (.amomaxW rd rs1 rs2 aq rl) :=
  of_row 55 _ ⟨"AMOMAX.W", 0xA000202F#32, 0xF800707F#32⟩ rfl rfl rfl ((mask_funct5 _ _).2
    ⟨opcodeField_encAmo _ _ _ _ _ _, funct3Field_encAmo _ _ _ _ _ _, funct5Field_encAmo _ _ _ _ _ _⟩)

theorem amominuW (rd rs1 rs2 : RegNum) (aq rl : Bool) : Statement (.amominuW rd rs1 rs2 aq rl) :=
  of_row 56 _ ⟨"AMOMINU.W", 0xC000202F#32, 0xF800707F#32⟩ rfl rfl rfl ((mask_funct5 _ _).2
    ⟨opcodeField_encAmo _ _ _ _ _ _, funct3Field_encAmo _ _ _ _ _ _, funct5Field_encAmo _ _ _ _ _ _⟩)

theorem amomaxuW (rd rs1 rs2 : RegNum) (aq rl : Bool) : Statement (.amomaxuW rd rs1 rs2 aq rl) :=
  of_row 57 _ ⟨"AMOMAXU.W", 0xE000202F#32, 0xF800707F#32⟩ rfl rfl rfl ((mask_funct5 _ _).2
    ⟨opcodeField_encAmo _ _ _ _ _ _, funct3Field_encAmo _ _ _ _ _ _, funct5Field_encAmo _ _ _ _ _ _⟩)

theorem csrrw (rd : RegNum) (csr : CsrNum) (rs1 : RegNum) : Statement (.csrrw rd csr rs1) :=
  of_row 61 _ ⟨"CSRRW", 0x00001073#32, 0x0000707F#32⟩ rfl rfl rfl ((mask_funct3 _ _).2
    ⟨opcodeField_encI _ _ _ _ _, funct3Field_encI _ _ _ _ _⟩)

theorem csrrs (rd : RegNum) (csr : CsrNum) (rs1 : RegNum) : Statement (.csrrs rd csr rs1) :=
  of_row 62 _ ⟨"CSRRS", 0x00002073#32, 0x0000707F#32⟩ rfl rfl rfl ((mask_funct3 _ _).2
    ⟨opcodeField_encI _ _ _ _ _, funct3Field_encI _ _ _ _ _⟩)

theorem csrrc (rd : RegNum) (csr : CsrNum) (rs1 : RegNum) : Statement (.csrrc rd csr rs1) :=
  of_row 63 _ ⟨"CSRRC", 0x00003073#32, 0x0000707F#32⟩ rfl rfl rfl ((mask_funct3 _ _).2
    ⟨opcodeField_encI _ _ _ _ _, funct3Field_encI _ _ _ _ _⟩)

theorem csrrwi (rd : RegNum) (csr : CsrNum) (uimm : BitVec 5) : Statement (.csrrwi rd csr uimm) :=
  of_row 64 _ ⟨"CSRRWI", 0x00005073#32, 0x0000707F#32⟩ rfl rfl rfl ((mask_funct3 _ _).2
    ⟨opcodeField_encCsrImm _ _ _ _, funct3Field_encCsrImm _ _ _ _⟩)

theorem csrrsi (rd : RegNum) (csr : CsrNum) (uimm : BitVec 5) : Statement (.csrrsi rd csr uimm) :=
  of_row 65 _ ⟨"CSRRSI", 0x00006073#32, 0x0000707F#32⟩ rfl rfl rfl ((mask_funct3 _ _).2
    ⟨opcodeField_encCsrImm _ _ _ _, funct3Field_encCsrImm _ _ _ _⟩)

theorem csrrci (rd : RegNum) (csr : CsrNum) (uimm : BitVec 5) : Statement (.csrrci rd csr uimm) :=
  of_row 66 _ ⟨"CSRRCI", 0x00007073#32, 0x0000707F#32⟩ rfl rfl rfl ((mask_funct3 _ _).2
    ⟨opcodeField_encCsrImm _ _ _ _, funct3Field_encCsrImm _ _ _ _⟩)

theorem ecall (rs1 rd : RegNum) : Statement (.ecall rs1 rd) :=
  of_row 58 _ ⟨"ECALL", 0x00000073#32, 0xFFF0707F#32⟩ rfl rfl rfl ((mask_imm12 _ _).2
    ⟨opcodeField_encI _ _ _ _ _, funct3Field_encI _ _ _ _ _, csrField_encI _ _ _ _ _⟩)

theorem ebreak (rs1 rd : RegNum) : Statement (.ebreak rs1 rd) :=
  of_row 59 _ ⟨"EBREAK", 0x00100073#32, 0xFFF0707F#32⟩ rfl rfl rfl ((mask_imm12 _ _).2
    ⟨opcodeField_encI _ _ _ _ _, funct3Field_encI _ _ _ _ _, csrField_encI _ _ _ _ _⟩)

theorem mret (rs2 rs1 rd : RegNum) : Statement (.mret rs2 rs1 rd) :=
  of_row 60 _ ⟨"MRET", 0x30000073#32, 0xFE00707F#32⟩ rfl rfl rfl ((mask_funct7 _ _).2
    ⟨opcodeField_encR _ _ _ _ _ _, funct3Field_encR _ _ _ _ _ _, funct7Field_encR _ _ _ _ _ _⟩)

end Sys2Proof.Laws.TableRow
end

