-- ==== Sys2Proof/Tests/Slice0.lean ====
section
/-!
SUPPORT. Tests. Ill-formed instructions refused by the check; one word of each constructor, written out from the layouts of
30_encoding.md and the words of 95/96_test_vectors*.md, decoded; single cycles with the end states that those files give
(the vector's id stands at each); and for every statement of Certificates/Slice0/Obligations.lean with hypotheses a state
and operands that meet them together.
-/

namespace Sys2Proof.Tests

open Sys2Proof Sys2Proof.Machine

/-! ### Helpers -/

/-- The start state of 95_test_vectors.md section 1: reset with a silent timer. -/
def start : State := State.reset.setMtimecmp 0xFFFFFFFFFFFFFFFF#64

/-- The same with the clock input at a value. -/
def atTime (t : Dword) : State := { start with clock := ⟨t, []⟩ }

/-- A word placed at `pc` when `pc` is a multiple of 4 inside RAM, little-endian. -/
def place (w : Word) (s : State) : State :=
  if aligned4 s.pc && inRam s.pc s && !outOfRange .word s.pc s then s.ramWrite .word s.pc.toNat w else s

/-- One cycle with a word at `pc` ends in a next state with a property. -/
def runs (w : Word) (s : State) (p : State → Bool) : Bool :=
  match step (place w s) with
  | .next t => p t
  | _ => false

/-! ### Ill-formed instructions (R125, R127): bit 0 of the offset is not 0 -/

theorem test_wellFormed_jal : (Instr.jal 1 3#21).wellFormed = false := by decide
theorem test_wellFormed_beq : (Instr.beq 1 2 1#13).wellFormed = false := by decide
theorem test_wellFormed_bne : (Instr.bne 1 2 0x1FFF#13).wellFormed = false := by decide
theorem test_wellFormed_blt : (Instr.blt 1 2 5#13).wellFormed = false := by decide
theorem test_wellFormed_bge : (Instr.bge 1 2 7#13).wellFormed = false := by decide
theorem test_wellFormed_bltu : (Instr.bltu 1 2 9#13).wellFormed = false := by decide
theorem test_wellFormed_bgeu : (Instr.bgeu 1 2 0xFFF#13).wellFormed = false := by decide

/-! ### Decoding: one word of each constructor -/

theorem test_decode_compute_immediate :
    decodeWord 0xABCDE2B7#32 = some (.lui 5 0xABCDE#20) ∧ decodeWord 0x80000297#32 = some (.auipc 5 0x80000#20) ∧
    decodeWord 0xFFF08093#32 = some (.addi 1 1 0xFFF#12) ∧ decodeWord 0x80032293#32 = some (.slti 5 6 0x800#12) ∧
    decodeWord 0x00133293#32 = some (.sltiu 5 6 1#12) ∧ decodeWord 0x7FF34293#32 = some (.xori 5 6 0x7FF#12) ∧
    decodeWord 0x80036293#32 = some (.ori 5 6 0x800#12) ∧ decodeWord 0x7FF37293#32 = some (.andi 5 6 0x7FF#12) ∧
    decodeWord 0x00131293#32 = some (.slli 5 6 1#5) ∧ decodeWord 0x01F35293#32 = some (.srli 5 6 31#5) ∧
    decodeWord 0x40435293#32 = some (.srai 5 6 4#5) := by decide

theorem test_decode_compute_register :
    decodeWord 0x007302B3#32 = some (.add 5 6 7) ∧ decodeWord 0x407302B3#32 = some (.sub 5 6 7) ∧
    decodeWord 0x007312B3#32 = some (.sll 5 6 7) ∧ decodeWord 0x007322B3#32 = some (.slt 5 6 7) ∧
    decodeWord 0x007332B3#32 = some (.sltu 5 6 7) ∧ decodeWord 0x007342B3#32 = some (.xor 5 6 7) ∧
    decodeWord 0x007352B3#32 = some (.srl 5 6 7) ∧ decodeWord 0x407352B3#32 = some (.sra 5 6 7) ∧
    decodeWord 0x007362B3#32 = some (.or 5 6 7) ∧ decodeWord 0x007372B3#32 = some (.and 5 6 7) := by decide

theorem test_decode_control :
    decodeWord 0xFF9FF0EF#32 = some (.jal 1 0x1FFFF8#21) ∧ decodeWord 0x004280E7#32 = some (.jalr 1 5 4#12) ∧
    decodeWord 0x00730863#32 = some (.beq 6 7 16#13) ∧ decodeWord 0xFE731CE3#32 = some (.bne 6 7 0x1FF8#13) ∧
    decodeWord 0x00734863#32 = some (.blt 6 7 16#13) ∧ decodeWord 0x00735863#32 = some (.bge 6 7 16#13) ∧
    decodeWord 0x00736863#32 = some (.bltu 6 7 16#13) ∧ decodeWord 0x00737363#32 = some (.bgeu 6 7 6#13) := by decide

/-- The bits of the scrambled immediates one group at a time (96_test_vectors_machine.md section 4). -/
theorem test_decode_scrambled_immediates :
    decodeWord 0x000000E3#32 = some (.beq 0 0 2048#13) ∧ decodeWord 0x00000163#32 = some (.beq 0 0 2#13) ∧
    decodeWord 0x7E000063#32 = some (.beq 0 0 2016#13) ∧ decodeWord 0x00000F63#32 = some (.beq 0 0 30#13) ∧
    decodeWord 0x80000063#32 = some (.beq 0 0 0x1000#13) ∧ decodeWord 0x0010006F#32 = some (.jal 0 2048#21) ∧
    decodeWord 0x0000106F#32 = some (.jal 0 4096#21) ∧ decodeWord 0x000FF06F#32 = some (.jal 0 1044480#21) ∧
    decodeWord 0x7FE0006F#32 = some (.jal 0 2046#21) ∧ decodeWord 0x8000006F#32 = some (.jal 0 0x100000#21) := by decide

theorem test_decode_memory :
    decodeWord 0x00030283#32 = some (.lb 5 6 0#12) ∧ decodeWord 0xFFC31283#32 = some (.lh 5 6 0xFFC#12) ∧
    decodeWord 0x7FF32283#32 = some (.lw 5 6 0x7FF#12) ∧ decodeWord 0x00534283#32 = some (.lbu 5 6 5#12) ∧
    decodeWord 0x00335283#32 = some (.lhu 5 6 3#12) ∧ decodeWord 0x007302A3#32 = some (.sb 7 6 5#12) ∧
    decodeWord 0x007310A3#32 = some (.sh 7 6 1#12) ∧ decodeWord 0x7E732FA3#32 = some (.sw 7 6 0x7FF#12) ∧
    decodeWord 0x8330000F#32 = some (.fence 8#4 3#4 3#4 0 0) ∧
    decodeWord 0xFFF3128F#32 = some (.fenceI 0xFFF#12 6 5) := by decide

theorem test_decode_muldiv :
    decodeWord 0x027302B3#32 = some (.mul 5 6 7) ∧ decodeWord 0x027312B3#32 = some (.mulh 5 6 7) ∧
    decodeWord 0x027322B3#32 = some (.mulhsu 5 6 7) ∧ decodeWord 0x027332B3#32 = some (.mulhu 5 6 7) ∧
    decodeWord 0x027342B3#32 = some (.div 5 6 7) ∧ decodeWord 0x027352B3#32 = some (.divu 5 6 7) ∧
    decodeWord 0x027362B3#32 = some (.rem 5 6 7) ∧ decodeWord 0x027372B3#32 = some (.remu 5 6 7) := by decide

theorem test_decode_atomic :
    decodeWord 0x11F322AF#32 = some (.lrW 5 6 31 false false) ∧
    decodeWord 0x1E8323AF#32 = some (.scW 7 6 8 true true) ∧
    decodeWord 0x0C7322AF#32 = some (.amoswapW 5 6 7 true false) ∧
    decodeWord 0x007322AF#32 = some (.amoaddW 5 6 7 false false) ∧
    decodeWord 0x207322AF#32 = some (.amoxorW 5 6 7 false false) ∧
    decodeWord 0x627322AF#32 = some (.amoandW 5 6 7 false true) ∧
    decodeWord 0x407322AF#32 = some (.amoorW 5 6 7 false false) ∧
    decodeWord 0x807322AF#32 = some (.amominW 5 6 7 false false) ∧
    decodeWord 0xA07322AF#32 = some (.amomaxW 5 6 7 false false) ∧
    decodeWord 0xC07322AF#32 = some (.amominuW 5 6 7 false false) ∧
    decodeWord 0xE07322AF#32 = some (.amomaxuW 5 6 7 false false) := by decide

theorem test_decode_csr_and_system :
    decodeWord 0x340292F3#32 = some (.csrrw 5 0x340#12 5) ∧ decodeWord 0x340322F3#32 = some (.csrrs 5 0x340#12 6) ∧
    decodeWord 0x340332F3#32 = some (.csrrc 5 0x340#12 6) ∧ decodeWord 0x340FD2F3#32 = some (.csrrwi 5 0x340#12 31#5) ∧
    decodeWord 0x340AE2F3#32 = some (.csrrsi 5 0x340#12 21#5) ∧
    decodeWord 0x340FF2F3#32 = some (.csrrci 5 0x340#12 31#5) ∧ decodeWord 0x000302F3#32 = some (.ecall 6 5) ∧
    decodeWord 0x001302F3#32 = some (.ebreak 6 5) ∧ decodeWord 0x300F8FF3#32 = some (.mret 0 31 31) := by decide

/-- VD rows: words of instructions this hardware does not have. -/
theorem test_decode_illegal :
    [0x00000000#32, 0xFFFFFFFF#32, 0x00008082#32, 0x00003003#32, 0x00007023#32, 0x00002063#32, 0x00001067#32, 0x0000200F#32,
      0x02001013#32, 0x20005013#32, 0x40007033#32, 0x04000033#32, 0x1000302F#32, 0x2800202F#32, 0x00004073#32, 0x0000001B#32,
      0x00000053#32, 0x10500073#32, 0x10200073#32, 0x12000073#32, 0x00300073#32].all (fun w => (decodeWord w).isNone) := by
  decide

/-- An instruction's bytes in memory order, least significant first (R83). -/
theorem test_decode_bytes :
    decode [0x13#8, 0x01#8, 0x10#8, 0x00#8, 0xFF#8] = .instr (.addi 2 0 1#12) [0xFF#8] ∧
    decodeTableWord 32 0x00100113 = some (.addi 2 0 1#12) := by decide

/-! ### One cycle each, with the end state of the spec's vector -/

/-- S1: `lui x5, 0xABCDE`. -/
theorem test_lui : runs 0xABCDE2B7#32 start fun t =>
    t.x 5 == 0xABCDE000#32 && t.pc == 0x80000004#32 := by decide

/-- VC5: `auipc x5, 0x80000`. -/
theorem test_auipc : runs 0x80000297#32 (start.setPc 0x80000010#32) fun t =>
    t.x 5 == 0x00000010#32 && t.pc == 0x80000014#32 := by decide

/-- VC6: `addi x5, x6, 1`. -/
theorem test_addi_wraps : runs 0x00130293#32 (start.setX 6 0x7FFFFFFF#32) fun t =>
    t.x 5 == 0x80000000#32 && t.pc == 0x80000004#32 := by decide

/-- VC12: `slti x5, x6, -2048`. -/
theorem test_slti_most_negative : runs 0x80032293#32 (start.setX 6 0x80000000#32) fun t =>
    t.x 5 == 0x00000001#32 && t.pc == 0x80000004#32 := by decide

/-- VC17: `sltiu x5, x6, -2048`. -/
theorem test_sltiu_compares_unsigned : runs 0x80033293#32 (start.setX 6 0xFFFFF7FF#32) fun t =>
    t.x 5 == 0x00000001#32 && t.pc == 0x80000004#32 := by decide

/-- VC19: `xori x5, x6, 0x7FF`. -/
theorem test_xori : runs 0x7FF34293#32 (start.setX 6 0xFFFFFFFF#32) fun t =>
    t.x 5 == 0xFFFFF800#32 && t.pc == 0x80000004#32 := by decide

/-- VC20: `ori x5, x6, -2048`. -/
theorem test_ori_sign_extends : runs 0x80036293#32 (start.setX 6 0x00000123#32) fun t =>
    t.x 5 == 0xFFFFF923#32 && t.pc == 0x80000004#32 := by decide

/-- VC21: `andi x5, x6, 0x7FF`. -/
theorem test_andi : runs 0x7FF37293#32 (start.setX 6 0xFFFFFFFF#32) fun t =>
    t.x 5 == 0x000007FF#32 && t.pc == 0x80000004#32 := by decide

/-- VC24: `slli x5, x6, 1`. -/
theorem test_slli : runs 0x00131293#32 (start.setX 6 0xC0000001#32) fun t =>
    t.x 5 == 0x80000002#32 && t.pc == 0x80000004#32 := by decide

/-- VC25: `srli x5, x6, 31`. -/
theorem test_srli : runs 0x01F35293#32 (start.setX 6 0x80000000#32) fun t =>
    t.x 5 == 0x00000001#32 && t.pc == 0x80000004#32 := by decide

/-- VC27: `srai x5, x6, 31`. -/
theorem test_srai : runs 0x41F35293#32 (start.setX 6 0x80000000#32) fun t =>
    t.x 5 == 0xFFFFFFFF#32 && t.pc == 0x80000004#32 := by decide

/-- VC31: `add x5, x5, x5`. -/
theorem test_add_source_is_destination : runs 0x005282B3#32 (start.setX 5 0x80000001#32) fun t =>
    t.x 5 == 0x00000002#32 && t.pc == 0x80000004#32 := by decide

/-- VC32: `add x0, x6, x7`. -/
theorem test_add_discards_x0 : runs 0x00730033#32 (start.setX 6 0x00000001#32 |>.setX 7 0x00000002#32) fun t =>
    t.pc == 0x80000004#32 := by decide

/-- VC33: `sub x5, x6, x7`. -/
theorem test_sub_wraps : runs 0x407302B3#32 (start.setX 6 0x00000000#32 |>.setX 7 0x00000001#32) fun t =>
    t.x 5 == 0xFFFFFFFF#32 && t.pc == 0x80000004#32 := by decide

/-- VC37: `sll x5, x6, x7`. -/
theorem test_sll_masks_the_amount : runs 0x007312B3#32 (start.setX 6 0x00000001#32 |>.setX 7 0xFFFFFFFF#32) fun t =>
    t.x 5 == 0x80000000#32 && t.pc == 0x80000004#32 := by decide

/-- VC41: `slt x5, x6, x7`. -/
theorem test_slt : runs 0x007322B3#32 (start.setX 6 0x80000000#32 |>.setX 7 0x7FFFFFFF#32) fun t =>
    t.x 5 == 0x00000001#32 && t.pc == 0x80000004#32 := by decide

/-- VC43: `sltu x5, x6, x7`. -/
theorem test_sltu : runs 0x007332B3#32 (start.setX 5 0x00000009#32 |>.setX 6 0x80000000#32
       |>.setX 7 0x7FFFFFFF#32) fun t =>
    t.x 5 == 0x00000000#32 && t.pc == 0x80000004#32 := by decide

/-- VC45: `xor x5, x6, x6`. -/
theorem test_xor : runs 0x006342B3#32 (start.setX 5 0x00000009#32 |>.setX 6 0xDEADBEEF#32) fun t =>
    t.x 5 == 0x00000000#32 && t.pc == 0x80000004#32 := by decide

/-- VC39: `srl x5, x6, x7`. -/
theorem test_srl_masks_the_amount : runs 0x007352B3#32 (start.setX 6 0xFFFFFFFF#32 |>.setX 7 0x0000003C#32) fun t =>
    t.x 5 == 0x0000000F#32 && t.pc == 0x80000004#32 := by decide

/-- VC40: `sra x5, x6, x7`. -/
theorem test_sra_masks_the_amount : runs 0x407352B3#32 (start.setX 6 0x80000010#32 |>.setX 7 0xFFFFFFE4#32) fun t =>
    t.x 5 == 0xF8000001#32 && t.pc == 0x80000004#32 := by decide

/-- VC46: `or x5, x6, x0`. -/
theorem test_or : runs 0x000362B3#32 (start.setX 6 0xDEADBEEF#32) fun t =>
    t.x 5 == 0xDEADBEEF#32 && t.pc == 0x80000004#32 := by decide

/-- VC47: `and x5, x6, x0`. -/
theorem test_and : runs 0x000372B3#32 (start.setX 5 0x00000009#32 |>.setX 6 0xDEADBEEF#32) fun t =>
    t.x 5 == 0x00000000#32 && t.pc == 0x80000004#32 := by decide

/-- VJ2: `jal x1, -8`. -/
theorem test_jal_backwards : runs 0xFF9FF0EF#32 (start.setPc 0x80000010#32) fun t =>
    t.x 1 == 0x80000014#32 && t.pc == 0x80000008#32 := by decide

/-- VJ6: `jal x1, 2`. -/
theorem test_jal_misaligned : runs 0x002000EF#32 (start.setX 1 0x00000009#32 |>.setCsr 0x305 0x80000200#32) fun t =>
    t.pc == 0x80000200#32 && t.csr 0x300 == 0x00001880#32 && t.csr 0x341 == 0x80000000#32 &&
    t.csr 0x342 == 0x00000000#32 && t.csr 0x343 == 0x80000002#32 := by decide

/-- VJ8: `jalr x1, 4(x5)`. -/
theorem test_jalr_clears_bit_zero : runs 0x004280E7#32 (start.setX 5 0x80000101#32) fun t =>
    t.x 1 == 0x80000004#32 && t.pc == 0x80000104#32 := by decide

/-- VJ11: `jalr x1, 3(x5)`. -/
theorem test_jalr_misaligned : runs 0x003280E7#32 (start.setX 1 0x00000009#32 |>.setX 5 0x80000104#32
       |>.setCsr 0x305 0x80000200#32) fun t =>
    t.pc == 0x80000200#32 && t.csr 0x300 == 0x00001880#32 && t.csr 0x341 == 0x80000000#32 &&
    t.csr 0x342 == 0x00000000#32 && t.csr 0x343 == 0x80000106#32 := by decide

/-- VJ16: `beq x0, x0, -4096`. -/
theorem test_beq_farthest_back : runs 0x80000063#32 (start.setPc 0x80001000#32) fun t =>
    t.pc == 0x80000000#32 := by decide

/-- VJ18: `beq x0, x0, 4094`. -/
theorem test_beq_misaligned : runs 0x7E000FE3#32 (start.setCsr 0x305 0x80000200#32) fun t =>
    t.pc == 0x80000200#32 && t.csr 0x300 == 0x00001880#32 && t.csr 0x341 == 0x80000000#32 &&
    t.csr 0x342 == 0x00000000#32 && t.csr 0x343 == 0x80000FFE#32 := by decide

/-- VJ20: `bne x6, x7, -8`. -/
theorem test_bne : runs 0xFE731CE3#32 (start.setPc 0x80000020#32 |>.setX 6 0x00000001#32
       |>.setX 7 0x00000002#32) fun t =>
    t.pc == 0x80000018#32 := by decide

/-- VJ22: `blt x6, x7, 16`. -/
theorem test_blt_signed : runs 0x00734863#32 (start.setX 6 0x80000000#32 |>.setX 7 0x7FFFFFFF#32) fun t =>
    t.pc == 0x80000010#32 := by decide

/-- VJ24: `bge x6, x7, 16`. -/
theorem test_bge_equal : runs 0x00735863#32 (start.setX 6 0x00000005#32 |>.setX 7 0x00000005#32) fun t =>
    t.pc == 0x80000010#32 := by decide

/-- VJ26: `bltu x6, x7, 16`. -/
theorem test_bltu_unsigned : runs 0x00736863#32 (start.setX 6 0x80000000#32 |>.setX 7 0x7FFFFFFF#32) fun t =>
    t.pc == 0x80000004#32 := by decide

/-- VJ30: `bgeu x6, x7, 6`. -/
theorem test_bgeu_misaligned : runs 0x00737363#32 (start.setPc 0x80000010#32 |>.setX 6 0x00000002#32
       |>.setX 7 0x00000001#32 |>.setCsr 0x305 0x80000200#32) fun t =>
    t.pc == 0x80000200#32 && t.csr 0x300 == 0x00001880#32 && t.csr 0x341 == 0x80000010#32 &&
    t.csr 0x342 == 0x00000000#32 && t.csr 0x343 == 0x80000016#32 := by decide

/-- VL5: `lb x5, 0(x6)`. -/
theorem test_lb_last_byte : runs 0x00030283#32 (start.setX 6 0x80001FFF#32
       |>.ramWrite .word 0x80001FFC 0x84332211#32) fun t =>
    t.x 5 == 0xFFFFFF84#32 && t.pc == 0x80000004#32 := by decide

/-- VL3: `lh x5, 0(x6)`. -/
theorem test_lh_sign_extends : runs 0x00031283#32 (start.setX 6 0x80001FFE#32
       |>.ramWrite .word 0x80001FFC 0x84332211#32) fun t =>
    t.x 5 == 0xFFFF8433#32 && t.pc == 0x80000004#32 := by decide

/-- VL1: `lw x5, 0(x6)`. -/
theorem test_lw_last_word : runs 0x00032283#32 (start.setX 6 0x80001FFC#32
       |>.ramWrite .word 0x80001FFC 0x84332211#32) fun t =>
    t.x 5 == 0x84332211#32 && t.pc == 0x80000004#32 := by decide

/-- VL2: `lw x5, 0(x6)`. -/
theorem test_lw_past_the_end : runs 0x00032283#32 (start.setX 5 0x00000009#32 |>.setX 6 0x80001FFD#32
       |>.setCsr 0x305 0x80000200#32 |>.ramWrite .word 0x80001FFC 0x84332211#32) fun t =>
    t.pc == 0x80000200#32 && t.csr 0x300 == 0x00001880#32 && t.csr 0x341 == 0x80000000#32 &&
    t.csr 0x342 == 0x00000005#32 && t.csr 0x343 == 0x80001FFD#32 := by decide

/-- VB1: `lbu x5, 5(x6)`. -/
theorem test_lbu_uart_status : runs 0x00534283#32 (start.setX 6 0x10000000#32) fun t =>
    t.x 5 == 0x00000060#32 && t.pc == 0x80000004#32 := by decide

/-- VL11: `lhu x5, 3(x6)`. -/
theorem test_lhu_misaligned : runs 0x00335283#32 (start.setX 6 0x80001000#32
       |>.ramWrite .word 0x80001000 0x017FFF80#32 |>.ramWrite .word 0x80001004 0xDDCCBBAA#32) fun t =>
    t.x 5 == 0x0000AA01#32 && t.pc == 0x80000004#32 := by decide

/-- VL19: `sb x7, 0(x6)`. -/
theorem test_sb_last_byte : runs 0x00730023#32 (start.setX 6 0x80001FFF#32 |>.setX 7 0x000000A5#32) fun t =>
    t.pc == 0x80000004#32 && t.byte 0x80001FFF == 0xA5#8 := by decide

/-- VL24: `sh x7, 1(x6)`. -/
theorem test_sh_misaligned : runs 0x007310A3#32 (start.setX 6 0x80001000#32 |>.setX 7 0xFFFF1234#32
       |>.ramWrite .word 0x80001000 0x017FFF80#32 |>.ramWrite .word 0x80001004 0xDDCCBBAA#32) fun t =>
    t.pc == 0x80000004#32 && t.byte 0x80001001 == 0x34#8 && t.byte 0x80001002 == 0x12#8 := by decide

/-- VL26: `sw x7, 2047(x6)`. -/
theorem test_sw_farthest_offset : runs 0x7E732FA3#32 (start.setX 6 0x80000801#32 |>.setX 7 0x01020304#32) fun t =>
    t.pc == 0x80000004#32 && wordAt t 0x80001000 == 0x01020304#32 := by decide

/-- VL22: `sw x7, 0(x6)`. -/
theorem test_sw_past_the_end : runs 0x00732023#32 (start.setX 6 0x80001FFD#32 |>.setX 7 0xA5A5A5A5#32
       |>.setCsr 0x305 0x80000200#32) fun t =>
    t.pc == 0x80000200#32 && t.csr 0x300 == 0x00001880#32 && t.csr 0x341 == 0x80000000#32 &&
    t.csr 0x342 == 0x00000007#32 && t.csr 0x343 == 0x80001FFD#32 := by decide

/-- VP2: `fence with rd=x5, rs1=x6, imm=0xFFF`. -/
theorem test_fence_ignores_its_fields : runs 0xFFF3028F#32 (start.setX 5 0x00000009#32) fun t =>
    t.pc == 0x80000004#32 := by decide

/-- VP4: `fence.i with rd=x5, rs1=x6, imm=0xFFF`. -/
theorem test_fence_i_ignores_its_fields : runs 0xFFF3128F#32 (start.setX 5 0x00000009#32) fun t =>
    t.pc == 0x80000004#32 := by decide

/-- VM4: `mul x5, x6, x7`. -/
theorem test_mul : runs 0x027302B3#32 (start.setX 6 0x0000FFFF#32 |>.setX 7 0x0000FFFF#32) fun t =>
    t.x 5 == 0xFFFE0001#32 && t.pc == 0x80000004#32 := by decide

/-- VM8: `mulh x5, x6, x7`. -/
theorem test_mulh_signs : runs 0x027312B3#32 (start.setX 6 0x80000000#32 |>.setX 7 0x7FFFFFFF#32) fun t =>
    t.x 5 == 0xC0000000#32 && t.pc == 0x80000004#32 := by decide

/-- VM10: `mulhsu x5, x6, x7`. -/
theorem test_mulhsu_signs : runs 0x027322B3#32 (start.setX 6 0x80000000#32 |>.setX 7 0xFFFFFFFF#32) fun t =>
    t.x 5 == 0x80000000#32 && t.pc == 0x80000004#32 := by decide

/-- VM14: `mulhu x5, x6, x7`. -/
theorem test_mulhu : runs 0x027332B3#32 (start.setX 6 0x80000000#32 |>.setX 7 0x80000000#32) fun t =>
    t.x 5 == 0x40000000#32 && t.pc == 0x80000004#32 := by decide

/-- VM18: `div x5, x6, x7`. -/
theorem test_div_overflow : runs 0x027342B3#32 (start.setX 6 0x80000000#32 |>.setX 7 0xFFFFFFFF#32) fun t =>
    t.x 5 == 0x80000000#32 && t.pc == 0x80000004#32 := by decide

/-- VM20: `div x5, x6, x7`. -/
theorem test_div_rounds_to_zero : runs 0x027342B3#32 (start.setX 6 0xFFFFFFF9#32 |>.setX 7 0x00000002#32) fun t =>
    t.x 5 == 0xFFFFFFFD#32 && t.pc == 0x80000004#32 := by decide

/-- VM28: `divu x5, x6, x7`. -/
theorem test_divu_by_zero : runs 0x027352B3#32 (start.setX 6 0x00000007#32 |>.setX 7 0x00000000#32) fun t =>
    t.x 5 == 0xFFFFFFFF#32 && t.pc == 0x80000004#32 := by decide

/-- VM34: `rem x5, x6, x7`. -/
theorem test_rem_sign : runs 0x027362B3#32 (start.setX 6 0xFFFFFFF9#32 |>.setX 7 0xFFFFFFFE#32) fun t =>
    t.x 5 == 0xFFFFFFFF#32 && t.pc == 0x80000004#32 := by decide

/-- VM37: `rem x5, x6, x7`. -/
theorem test_rem_overflow : runs 0x027362B3#32 (start.setX 5 0x00000009#32 |>.setX 6 0x80000000#32
       |>.setX 7 0xFFFFFFFF#32) fun t =>
    t.x 5 == 0x00000000#32 && t.pc == 0x80000004#32 := by decide

/-- VM44: `remu x5, x6, x7`. -/
theorem test_remu : runs 0x027372B3#32 (start.setX 6 0xFFFFFFFF#32 |>.setX 7 0x80000000#32) fun t =>
    t.x 5 == 0x7FFFFFFF#32 && t.pc == 0x80000004#32 := by decide

/-- VA1: `lr.w x5, (x6)`. -/
theorem test_lr_sets_the_reservation : runs 0x100322AF#32 (start.setX 6 0x80001000#32
       |>.ramWrite .word 0x80001000 0x12345678#32) fun t =>
    t.x 5 == 0x12345678#32 && t.pc == 0x80000004#32 && t.reservation == true := by decide

/-- VA3: `lr.w x5, (x6)`. -/
theorem test_lr_misaligned : runs 0x100322AF#32 (start.setX 5 0x00000009#32 |>.setX 6 0x80001002#32
       |>.setCsr 0x305 0x80000200#32 |>.ramWrite .word 0x80001000 0x12345678#32) fun t =>
    t.pc == 0x80000200#32 && t.csr 0x300 == 0x00001880#32 && t.csr 0x341 == 0x80000000#32 &&
    t.csr 0x342 == 0x00000000#32 && t.csr 0x343 == 0x80001002#32 := by decide

/-- VA14: `sc.w x8, x8, (x6)`. -/
theorem test_sc_source_is_destination : runs 0x1883242F#32 (start.setX 6 0x80001000#32 |>.setX 8 0xDEADBEEF#32
       |>.setReservation true) fun t =>
    t.x 8 == 0x00000000#32 && t.pc == 0x80000004#32 && wordAt t 0x80001000 == 0xDEADBEEF#32 &&
    t.reservation == false := by decide

/-- VA10: `sc.w x7, x8, (x6)`. -/
theorem test_sc_without_reservation : runs 0x188323AF#32 (start.setX 6 0x80001000#32 |>.setX 7 0x00000009#32
       |>.setX 8 0xDEADBEEF#32 |>.ramWrite .word 0x80001000 0x12345678#32) fun t =>
    t.x 7 == 0x00000001#32 && t.pc == 0x80000004#32 && wordAt t 0x80001000 == 0x12345678#32 := by decide

/-- VA21: `amoswap.w x6, x7, (x6)`. -/
theorem test_amoswap_base_is_destination : runs 0x0873232F#32 (start.setX 6 0x80001000#32 |>.setX 7 0xCAFEBABE#32
       |>.ramWrite .word 0x80001000 0x12345678#32) fun t =>
    t.x 6 == 0x12345678#32 && t.pc == 0x80000004#32 && wordAt t 0x80001000 == 0xCAFEBABE#32 := by decide

/-- VA20: `amoadd.w x7, x7, (x6)`. -/
theorem test_amoadd_source_is_destination : runs 0x007323AF#32 (start.setX 6 0x80001000#32 |>.setX 7 0x00000010#32
       |>.ramWrite .word 0x80001000 0x12345678#32) fun t =>
    t.x 7 == 0x12345678#32 && t.pc == 0x80000004#32 && wordAt t 0x80001000 == 0x12345688#32 := by decide

/-- VA33: `amoadd.w x5, x7, (x6)`. -/
theorem test_amoadd_past_the_end : runs 0x007322AF#32 (start.setX 5 0x00000009#32 |>.setX 6 0x80002000#32
       |>.setX 7 0x00000001#32 |>.setCsr 0x305 0x80000200#32) fun t =>
    t.pc == 0x80000200#32 && t.csr 0x300 == 0x00001880#32 && t.csr 0x341 == 0x80000000#32 &&
    t.csr 0x342 == 0x00000005#32 && t.csr 0x343 == 0x80002000#32 := by decide

/-- VA24: `amoxor.w x5, x7, (x6)`. -/
theorem test_amoxor : runs 0x207322AF#32 (start.setX 6 0x80001000#32 |>.setX 7 0x12345678#32
       |>.ramWrite .word 0x80001000 0x12345678#32) fun t =>
    t.x 5 == 0x12345678#32 && t.pc == 0x80000004#32 && wordAt t 0x80001000 == 0x00000000#32 := by decide

/-- VA25: `amoand.w.rl x5, x7, (x6)`. -/
theorem test_amoand : runs 0x627322AF#32 (start.setX 6 0x80001000#32 |>.setX 7 0x0000FFFF#32
       |>.ramWrite .word 0x80001000 0x12345678#32) fun t =>
    t.x 5 == 0x12345678#32 && t.pc == 0x80000004#32 && wordAt t 0x80001000 == 0x00005678#32 := by decide

/-- VA37: `amoor.w x5, x7, (x6)`. -/
theorem test_amoor_on_the_comparator : runs 0x407322AF#32 ((atTime 3#64).setX 5 0x00000009#32
       |>.setX 6 0x11004000#32 |>.setX 7 0x000000F0#32 |>.setMtimecmp 0x0000000200000005#64) fun t =>
    t.x 5 == 0x00000005#32 && t.pc == 0x80000004#32 && t.mtimecmp == 0x00000002000000F5#64 := by decide

/-- VA27: `amomin.w x5, x7, (x6)`. -/
theorem test_amomin : runs 0x807322AF#32 (start.setX 6 0x80001000#32 |>.setX 7 0x80000000#32
       |>.ramWrite .word 0x80001000 0x7FFFFFFF#32) fun t =>
    t.x 5 == 0x7FFFFFFF#32 && t.pc == 0x80000004#32 && wordAt t 0x80001000 == 0x80000000#32 := by decide

/-- VA28: `amomax.w x5, x7, (x6)`. -/
theorem test_amomax : runs 0xA07322AF#32 (start.setX 6 0x80001000#32 |>.setX 7 0x80000000#32
       |>.ramWrite .word 0x80001000 0x7FFFFFFF#32) fun t =>
    t.x 5 == 0x7FFFFFFF#32 && t.pc == 0x80000004#32 && wordAt t 0x80001000 == 0x7FFFFFFF#32 := by decide

/-- VA29: `amominu.w x5, x7, (x6)`. -/
theorem test_amominu : runs 0xC07322AF#32 (start.setX 6 0x80001000#32 |>.setX 7 0x80000000#32
       |>.ramWrite .word 0x80001000 0x7FFFFFFF#32) fun t =>
    t.x 5 == 0x7FFFFFFF#32 && t.pc == 0x80000004#32 && wordAt t 0x80001000 == 0x7FFFFFFF#32 := by decide

/-- VA30: `amomaxu.w x5, x7, (x6)`. -/
theorem test_amomaxu : runs 0xE07322AF#32 (start.setX 6 0x80001000#32 |>.setX 7 0x80000000#32
       |>.ramWrite .word 0x80001000 0x7FFFFFFF#32) fun t =>
    t.x 5 == 0x7FFFFFFF#32 && t.pc == 0x80000004#32 && wordAt t 0x80001000 == 0x80000000#32 := by decide

/-- VZ43: `csrrw x5, mstatus, x6`. -/
theorem test_csrrw_mstatus_mask : runs 0x300312F3#32 (start.setX 6 0x807FE600#32) fun t =>
    t.x 5 == 0x00001888#32 && t.pc == 0x80000004#32 && t.csr 0x300 == 0x00401800#32 := by decide

/-- VZ37: `csrrw x5, mip, x6`. -/
theorem test_csrrw_takes_the_interrupt : runs 0x344312F3#32 (start.setPc 0x80000010#32 |>.setX 5 0x00000009#32
       |>.setX 6 0x00000888#32 |>.setCsr 0x304 0x00000888#32 |>.setCsr 0x305 0x80000200#32) fun t =>
    t.x 5 == 0x00000000#32 && t.pc == 0x80000200#32 && t.csr 0x300 == 0x00001880#32 &&
    t.csr 0x341 == 0x80000014#32 && t.csr 0x342 == 0x8000000B#32 && t.csr 0x343 == 0x00000000#32 &&
    t.csr 0x344 == 0x00000888#32 := by decide

/-- VZ5: `csrrs x5, mscratch, x6`. -/
theorem test_csrrs : runs 0x340322F3#32 (start.setX 6 0x0000F00F#32 |>.setCsr 0x340 0x22222222#32) fun t =>
    t.x 5 == 0x22222222#32 && t.pc == 0x80000004#32 && t.csr 0x340 == 0x2222F22F#32 := by decide

/-- VZ18: `csrrs x5, cycle, x0`. -/
theorem test_csrrs_reads_the_mirror : runs 0xC00022F3#32 (start.setCsr 0xB00 0x00000007#32
       |>.setCsr 0xB02 0x00000007#32) fun t =>
    t.x 5 == 0x00000007#32 && t.pc == 0x80000004#32 && t.csr 0xB00 == 0x00000008#32 &&
    t.csr 0xB02 == 0x00000008#32 && t.csr 0xB80 == 0x00000000#32 && t.csr 0xB82 == 0x00000000#32 := by decide

/-- VZ6: `csrrc x5, mscratch, x6`. -/
theorem test_csrrc : runs 0x340332F3#32 (start.setX 6 0x0000F00F#32 |>.setCsr 0x340 0x2222FFFF#32) fun t =>
    t.x 5 == 0x2222FFFF#32 && t.pc == 0x80000004#32 && t.csr 0x340 == 0x22220FF0#32 := by decide

/-- VZ7: `csrrwi x5, mscratch, 31`. -/
theorem test_csrrwi : runs 0x340FD2F3#32 (start.setCsr 0x340 0x22222222#32) fun t =>
    t.x 5 == 0x22222222#32 && t.pc == 0x80000004#32 && t.csr 0x340 == 0x0000001F#32 := by decide

/-- VZ39: `csrrsi x5, mip, 8`. -/
theorem test_csrrsi_takes_the_interrupt : runs 0x344462F3#32 (start.setPc 0x80000010#32 |>.setX 5 0x00000009#32
       |>.setCsr 0x304 0x00000008#32 |>.setCsr 0x305 0x80000200#32) fun t =>
    t.x 5 == 0x00000000#32 && t.pc == 0x80000200#32 && t.csr 0x300 == 0x00001880#32 &&
    t.csr 0x341 == 0x80000014#32 && t.csr 0x342 == 0x80000003#32 && t.csr 0x343 == 0x00000000#32 &&
    t.csr 0x344 == 0x00000008#32 := by decide

/-- VZ11: `csrrci x5, mscratch, 31`. -/
theorem test_csrrci : runs 0x340FF2F3#32 (start.setCsr 0x340 0x2222223F#32) fun t =>
    t.x 5 == 0x2222223F#32 && t.pc == 0x80000004#32 && t.csr 0x340 == 0x22222220#32 := by decide

/-- VS3: `ecall`. -/
theorem test_ecall_keeps_the_other_bits : runs 0x00000073#32 (start.setPc 0x80000010#32
       |>.setCsr 0x300 0x7FC019FF#32 |>.setCsr 0x305 0x80000200#32) fun t =>
    t.pc == 0x80000200#32 && t.csr 0x300 == 0x7FC019F7#32 && t.csr 0x341 == 0x80000010#32 &&
    t.csr 0x342 == 0x0000000B#32 && t.csr 0x343 == 0x00000000#32 := by decide

/-- VS28: `ecall`. -/
theorem test_ecall_halts_on_vector_mode : runs 0x00000073#32 (start.setPc 0x80000010#32
       |>.setCsr 0x305 0x80000201#32) fun t =>
    t.pc == 0x80000010#32 && t.csr 0x300 == 0x00001880#32 && t.csr 0x341 == 0x80000010#32 &&
    t.csr 0x342 == 0x0000000B#32 && t.csr 0x343 == 0x00000000#32 && t.run == .halted .unhandledTrapVectorMode := by decide

/-- VP9: `ebreak with rd=x5, rs1=x6`. -/
theorem test_ebreak_ignores_its_registers : runs 0x001302F3#32 (start.setPc 0x80000010#32 |>.setX 5 0x00000009#32
       |>.setCsr 0x305 0x80000200#32) fun t =>
    t.pc == 0x80000200#32 && t.csr 0x300 == 0x00001880#32 && t.csr 0x341 == 0x80000010#32 &&
    t.csr 0x342 == 0x00000003#32 && t.csr 0x343 == 0x00000000#32 := by decide

/-- VS16: `mret`. -/
theorem test_mret_keeps_the_other_bits : runs 0x30200073#32 (start.setPc 0x80000200#32 |>.setCsr 0x300 0x7FC019F7#32
       |>.setCsr 0x341 0x80000014#32) fun t =>
    t.pc == 0x80000014#32 && t.csr 0x300 == 0x7FC019FF#32 := by decide

/-- VS17: `mret`. -/
theorem test_mret_to_a_misaligned_pc : runs 0x30200073#32 (start.setPc 0x80000200#32 |>.setCsr 0x300 0x00001880#32
       |>.setCsr 0x305 0x80000200#32 |>.setCsr 0x341 0x80000016#32) fun t =>
    t.pc == 0x80000016#32 && t.csr 0x300 == 0x00001888#32 := by decide

/-! ### The cycle, the devices, the counters -/

/-- S6: `addi x5, x0, 1`. -/
theorem test_timer_interrupt_before_the_fetch : runs 0x00100293#32 ((atTime 100#64).setPc 0x80000040#32
       |>.setCsr 0x304 0x00000080#32 |>.setCsr 0x305 0x80000200#32 |>.ramWrite .word 0x80000200 0x04D00493#32
       |>.setMtimecmp 100#64) fun t =>
    t.x 9 == 0x0000004D#32 && t.pc == 0x80000204#32 && t.csr 0x300 == 0x00001880#32 &&
    t.csr 0x341 == 0x80000040#32 && t.csr 0x342 == 0x80000007#32 && t.csr 0x343 == 0x00000000#32 &&
    t.csr 0x344 == 0x00000080#32 := by decide

/-- VI14: `(none: pc misaligned)`. -/
theorem test_misaligned_pc_wins_over_the_interrupt : runs 0x00000013#32 ((atTime 100#64).setPc 0x80000042#32
       |>.setCsr 0x304 0x00000080#32 |>.setCsr 0x305 0x80000200#32 |>.ramWrite .word 0x80000200 0x04D00493#32
       |>.setMtimecmp 100#64) fun t =>
    t.pc == 0x80000200#32 && t.csr 0x300 == 0x00001880#32 && t.csr 0x341 == 0x80000042#32 &&
    t.csr 0x342 == 0x00000000#32 && t.csr 0x343 == 0x80000042#32 := by decide

/-- VI15: `addi x5, x0, 1`. -/
theorem test_interrupt_halts_on_vector_mode : runs 0x00100293#32 (start.setPc 0x80000040#32
       |>.setCsr 0x304 0x00000080#32 |>.setCsr 0x305 0x80000201#32 |>.setCsr 0x344 0x00000080#32) fun t =>
    t.pc == 0x80000040#32 && t.csr 0x300 == 0x00001880#32 && t.csr 0x341 == 0x80000040#32 &&
    t.csr 0x342 == 0x80000007#32 && t.csr 0x343 == 0x00000000#32 && t.run == .halted .unhandledTrapVectorMode := by decide

/-- VI16: `sw x7, 0(x6)`. -/
theorem test_compare_write_clears_mtip : runs 0x00732023#32 ((atTime 100#64).setX 6 0x11004000#32
       |>.setX 7 0x000000C8#32 |>.setCsr 0x344 0x00000080#32 |>.setMtimecmp 0#64) fun t =>
    t.pc == 0x80000004#32 && t.csr 0x344 == 0x00000000#32 && t.mtimecmp == 0x00000000000000C8#64 := by decide

/-- VI25: `addi x0, x0, 0`. -/
theorem test_counters_carry : runs 0x00000013#32 (start.setCsr 0xB00 0xFFFFFFFF#32 |>.setCsr 0xB02 0xFFFFFFFF#32
       |>.setCsr 0xB80 0xFFFFFFFF#32 |>.setCsr 0xB82 0xFFFFFFFF#32) fun t =>
    t.pc == 0x80000004#32 && t.csr 0xB00 == 0x00000000#32 && t.csr 0xB02 == 0x00000000#32 &&
    t.csr 0xB80 == 0x00000000#32 && t.csr 0xB82 == 0x00000000#32 := by decide

/-- VB21: `sh x7, 0(x6)`. -/
theorem test_syscon_halfword : runs 0x00731023#32 (start.setX 6 0x11100000#32 |>.setX 7 0x00015555#32) fun t =>
    t.pc == 0x80000000#32 && t.run == .halted .poweroff := by decide

/-- VS24: `(fetch from mtime low)`. -/
theorem test_fetch_from_a_device : runs 0x00500293#32 ((atTime 0x500293#64).setPc 0x1100BFF8#32
       |>.setX 5 0x00000009#32) fun t =>
    t.x 5 == 0x00000005#32 && t.pc == 0x1100BFFC#32 := by decide

/-- VS21: `(none: pc = END)`. -/
theorem test_fetch_at_the_end : runs 0x00000013#32 (start.setPc 0x80002000#32
       |>.setCsr 0x305 0x80000200#32) fun t =>
    t.pc == 0x80000200#32 && t.csr 0x300 == 0x00001880#32 && t.csr 0x341 == 0x80002000#32 &&
    t.csr 0x342 == 0x00000005#32 && t.csr 0x343 == 0x80002000#32 := by decide

/-- VS9: `wfi`. -/
theorem test_illegal_word : runs 0x10500073#32 (start.setPc 0x80000010#32 |>.setCsr 0x305 0x80000200#32) fun t =>
    t.pc == 0x80000200#32 && t.csr 0x300 == 0x00001880#32 && t.csr 0x341 == 0x80000010#32 &&
    t.csr 0x342 == 0x00000002#32 && t.csr 0x343 == 0x10500073#32 := by decide

/-! ### Witnesses: the hypotheses of each statement can be met, each clause at a boundary of its range -/

/-- A running machine at the first word of RAM, at the last word, and at a word further on, all with nothing to take. -/
def atFirst (w : Word) : State := place w start
/-- See `atFirst`. -/
def atLast (w : Word) : State := place w (start.setPc 0x80001FFC#32)

/-- A machine with the timer interrupt enabled and pending. -/
def ticking (mtvec : Word) : State := ((start.setCsr 0x304 0x80#32).setCsr 0x344 0x80#32).setCsr 0x305 mtvec

/-- A machine with `x6` at an address. -/
def pointing (a : Word) : State := start.setX 6 a

/-- The same with the other value of `UNMAPPED_MMIO`. -/
def refusing (a : Word) : State := { pointing a with cfg := { defaultConfig with unmappedMmio := .refuse } }

/-- A machine in User mode: no run reaches it (R26), the statements hold there too. -/
def inUserMode : State := start.setPriv .user


theorem witness_EncodeThenDecode :
    (Instr.jal 31 0x100000#21).wellFormed = true ∧ (Instr.bgeu 31 31 0x1FFE#13).wellFormed = true ∧
    (Instr.fence 15#4 15#4 15#4 31 31).wellFormed = true := by decide

theorem witness_DecodeThenEncode :
    decodeWord 0xFFF3028F#32 = some (.fence 15#4 15#4 15#4 6 5) ∧
    decodeWord 0x31FF8FF3#32 = some (.mret 31 31 31) := by decide

theorem witness_DecoderIsTheOpcodeTable :
    decodeWord 0x31FF8FF3#32 = some (.mret 31 31 31) ∧ ⟨"MRET", 0x30000073#32, 0xFE00707F#32⟩ ∈ opcodeTable := by decide

/-- One word for each clause, in the order of the clauses. -/
theorem witness_IllegalWordFamilies :
    (0xFFFFFFFE#32).toNat % 4 ≠ 3 ∧ opcodeField 0xFFFFFFFF#32 = 0x7F#7 ∧
    (opcodeField 0x00007003#32 = 0x03#7 ∧ funct3Field 0x00007003#32 ∈ [3#3, 6#3, 7#3]) ∧
    (opcodeField 0x00003023#32 = 0x23#7 ∧ 3 ≤ (funct3Field 0x00003023#32).toNat) ∧
    (opcodeField 0x00003063#32 = 0x63#7 ∧ funct3Field 0x00003063#32 ∈ [2#3, 3#3]) ∧
    (opcodeField 0x00001067#32 = 0x67#7 ∧ funct3Field 0x00001067#32 ≠ 0#3) ∧
    (opcodeField 0x0000200F#32 = 0x0F#7 ∧ 2 ≤ (funct3Field 0x0000200F#32).toNat) ∧
    (opcodeField 0x02001013#32 = 0x13#7 ∧ funct3Field 0x02001013#32 = 1#3 ∧ funct7Field 0x02001013#32 ≠ 0x00#7) ∧
    (opcodeField 0x20005013#32 = 0x13#7 ∧ funct3Field 0x20005013#32 = 5#3 ∧
      funct7Field 0x20005013#32 ∉ [0x00#7, 0x20#7]) ∧
    (opcodeField 0x04000033#32 = 0x33#7 ∧ funct7Field 0x04000033#32 ∉ [0x00#7, 0x01#7, 0x20#7]) ∧
    (opcodeField 0x40007033#32 = 0x33#7 ∧ funct7Field 0x40007033#32 = 0x20#7 ∧
      funct3Field 0x40007033#32 ∉ [0#3, 5#3]) ∧
    (opcodeField 0x1000302F#32 = 0x2F#7 ∧ funct3Field 0x1000302F#32 ≠ 2#3) ∧
    (opcodeField 0x2800202F#32 = 0x2F#7 ∧ funct5Field 0x2800202F#32 = 0b00101#5) ∧
    (opcodeField 0x00004073#32 = 0x73#7 ∧ funct3Field 0x00004073#32 = 4#3) ∧
    (opcodeField 0x10500073#32 = 0x73#7 ∧ funct3Field 0x10500073#32 = 0#3 ∧
      funct7Field 0x10500073#32 ∉ [0x00#7, 0x18#7]) ∧
    (opcodeField 0x00200073#32 = 0x73#7 ∧ funct3Field 0x00200073#32 = 0#3 ∧ funct7Field 0x00200073#32 = 0x00#7 ∧
      2 ≤ (csrField 0x00200073#32).toNat) := by decide

/-- At the first and at the last word of RAM. -/
theorem witness_StepRunsTheDecodedInstruction :
    (∃ s i, s.run = .running ∧ s.pc.toNat % 4 = 0 ∧ s.pc ≠ 0#32 ∧ RamAccess s .word s.pc ∧
      decode [s.byte s.pc.toNat, s.byte (s.pc.toNat + 1), s.byte (s.pc.toNat + 2), s.byte (s.pc.toNat + 3)] = .instr i [] ∧
      pendingInterrupt (timerCheck s) = none ∧ s.pc = 0x80000000#32) ∧
    (∃ s i, s.run = .running ∧ s.pc.toNat % 4 = 0 ∧ s.pc ≠ 0#32 ∧ RamAccess s .word s.pc ∧
      decode [s.byte s.pc.toNat, s.byte (s.pc.toNat + 1), s.byte (s.pc.toNat + 2), s.byte (s.pc.toNat + 3)] = .instr i [] ∧
      pendingInterrupt (timerCheck s) = none ∧ s.pc = 0x80001FFC#32) :=
  ⟨⟨atFirst 0x00100093#32, .addi 1 0 1#12, by simp only [RamAccess]; decide⟩,
    ⟨atLast 0x00000073#32, .ecall 0 0, by simp only [RamAccess]; decide⟩⟩

theorem witness_StepTakesTheInterruptFirst :
    (∃ s k, s.run = .running ∧ s.pc.toNat % 4 = 0 ∧ pendingInterrupt (timerCheck s) = some k ∧ ¬ VectorDirect s) ∧
    (∃ s k, s.run = .running ∧ s.pc.toNat % 4 = 0 ∧ pendingInterrupt (timerCheck s) = some k ∧ VectorDirect s ∧
      s.cfg.irqEntryEndsCycle = true) ∧
    (∃ s k i a, s.run = .running ∧ s.pc.toNat % 4 = 0 ∧ pendingInterrupt (timerCheck s) = some k ∧ VectorDirect s ∧
      s.cfg.irqEntryEndsCycle = false ∧ a = (s.csr 0x305).toNat ∧ a ≠ 0 ∧ RamAccess s .word (s.csr 0x305) ∧
      decode [s.byte a, s.byte (a + 1), s.byte (a + 2), s.byte (a + 3)] = .instr i []) := by
  exact ⟨⟨ticking 0x80000203#32, .timer, by simp only [VectorDirect]; decide⟩,
    ⟨{ ticking 0x80000200#32 with cfg := { defaultConfig with irqEntryEndsCycle := true } }, .timer, by simp only [VectorDirect]; decide⟩,
    ⟨(ticking 0x80001FFC#32).ramWrite .word 0x80001FFC 0x04D00493#32, .timer, .addi 9 0 77#12, 0x80001FFC,
      by simp only [VectorDirect, RamAccess]; decide⟩⟩

/-- A machine that fetches after the timer check, and one that fetches at `mtvec` after an interrupt's entry. -/
theorem fetchesIn_start (a : Word) (h : a.toNat % 4 = 0 := by decide) :
    FetchesIn (start.setPc a) (timerCheck (start.setPc a)) := ⟨rfl, h, .inl ⟨rfl, rfl⟩⟩
/-- See `fetchesIn_start`. -/
theorem fetchesIn_ticking (mtvec : Word) (h : (((ticking mtvec).csr 0x305).toNat % 4 = 0) := by decide)
    (hp : pendingInterrupt (timerCheck (ticking mtvec)) = some .timer := by decide) :
    FetchesIn (ticking mtvec) (trap Interrupt.timer.cause 0#32 (timerCheck (ticking mtvec))) :=
  ⟨rfl, show (0x80000000#32).toNat % 4 = 0 by decide, .inr ⟨.timer, hp, h, rfl, rfl⟩⟩

/-- With MEI and MTI pending and enabled. -/
theorem witness_InterruptPriority :
    ∃ (s : State) (enabled : Prop) (both : Nat → Prop),
      (enabled ↔ s.priv = .machine ∧ (s.csr 0x300).getLsbD 3 = true) ∧
      (∀ k, both k ↔ (s.csr 0x344).getLsbD k = true ∧ (s.csr 0x304).getLsbD k = true) ∧ enabled ∧ both 11 ∧ both 7 :=
  ⟨(start.setCsr 0x304 0x880#32).setCsr 0x344 0x880#32, _, _, Iff.rfl, fun _ => Iff.rfl, by decide, by decide, by decide⟩

/-- A sample equal to the one before it, and the held clock. -/
theorem witness_TimerCheckSetsMtip :
    (∃ (s : State) (next : Dword) (rest : List Dword), s.clock.future = next :: rest ∧ s.clock.mtime ≤ next ∧
      s.mtimecmp = next) ∧
    (∃ s : State, s.clock.future = []) :=
  ⟨⟨{ start with clock := ⟨100#64, [100#64, 110#64]⟩, mtimecmp := 100#64 }, 100#64, [110#64], by decide⟩,
    ⟨start, rfl⟩⟩

/-- A misaligned `pc`; and an MRET to one. -/
theorem witness_MisalignedPc :
    (∃ s : State, s.run = .running ∧ s.pc.toNat % 4 ≠ 0) ∧
    (∃ s t : State, step s = .next t ∧ t.run = .running ∧ t.pc.toNat % 4 ≠ 0) :=
  ⟨⟨start.setPc 0x80001FFE#32, by decide⟩,
    ⟨(atFirst 0x30200073#32).setCsr 0x341 0x80000016#32, _, rfl, by decide⟩⟩

/-- `pc` at `END`, at 0, and at the last device word. -/
theorem witness_FetchFaults :
    (∃ s f, FetchesIn s f ∧ BeyondEnd f .word f.pc ∧ f = timerCheck s) ∧
    (∃ s f, FetchesIn s f ∧ BeyondEnd f .word f.pc ∧ f.csr 0x342 = Interrupt.timer.cause) ∧
    (∃ s f, FetchesIn s f ∧ ¬ BeyondEnd f .word f.pc ∧ f.pc = 0#32 ∧ f = timerCheck s) ∧
    (∃ s f, FetchesIn s f ∧ ¬ BeyondEnd f .word f.pc ∧ f.pc = 0#32 ∧ f.csr 0x342 = Interrupt.timer.cause) ∧
    (∃ s f, FetchesIn s f ∧ DeviceAccess f .word f.pc ∧ f.pc ≠ 0#32 ∧ deviceAt f.pc = none ∧
      f.cfg.unmappedMmio = .readZeroWriteIgnored ∧ f = timerCheck s) ∧
    (∃ s f, FetchesIn s f ∧ DeviceAccess f .word f.pc ∧ f.pc ≠ 0#32 ∧ deviceAt f.pc = none ∧
      f.cfg.unmappedMmio = .readZeroWriteIgnored ∧ f.csr 0x342 = Interrupt.timer.cause) :=
  ⟨⟨_, _, fetchesIn_start 0x80002000#32, by simp only [BeyondEnd]; decide, rfl⟩,
    ⟨_, _, fetchesIn_ticking 0x80002000#32, by simp only [BeyondEnd]; decide, by decide⟩,
    ⟨_, _, fetchesIn_start 0#32, by simp only [BeyondEnd]; decide, rfl, rfl⟩,
    ⟨_, _, fetchesIn_ticking 0#32, by simp only [BeyondEnd]; decide, by decide, by decide⟩,
    ⟨_, _, fetchesIn_start 0x7FFFFFFC#32, by simp only [DeviceAccess]; decide, by decide, by decide, rfl, rfl⟩,
    ⟨_, _, fetchesIn_ticking 0x7FFFFFFC#32, by simp only [DeviceAccess]; decide, by decide, by decide, rfl, by decide⟩⟩

theorem witness_IllegalWordTraps :
    (∃ s f, FetchesIn s f ∧ f.pc ≠ 0#32 ∧ RamAccess f .word f.pc ∧ decodeWord (wordAt f f.pc.toNat) = none ∧
      f = timerCheck s) ∧
    (∃ s f, FetchesIn s f ∧ f.pc ≠ 0#32 ∧ RamAccess f .word f.pc ∧ decodeWord (wordAt f f.pc.toNat) = none ∧
      f.csr 0x342 = Interrupt.timer.cause) ∧
    (∃ s f w u, FetchesIn s f ∧ memRead .word f.pc f = .ok w u ∧ decodeWord w = none ∧ f.pc = 0x10000000#32) :=
  ⟨⟨_, _, fetchesIn_start 0x80001FFC#32, by simp only [RamAccess]; decide⟩,
    ⟨_, _, fetchesIn_ticking 0x80001FFC#32, by simp only [RamAccess]; decide⟩,
    ⟨_, _, 0#32, _, fetchesIn_start 0x10000000#32, rfl, by decide, rfl⟩⟩

/-- The clock's low half, read by the fetch, holds the word of an instruction. -/
theorem witness_FetchFollowsTheBus :
    (∃ s f u w i, FetchesIn s f ∧ memRead .word f.pc f = .ok w u ∧ decodeWord w = some i ∧ f = timerCheck s) ∧
    (∃ s f u w i, FetchesIn s f ∧ memRead .word f.pc f = .ok w u ∧ decodeWord w = some i ∧
      f.csr 0x342 = Interrupt.timer.cause) ∧
    (∃ s f e tval, FetchesIn s f ∧ memRead .word f.pc f = .raise e tval) ∧
    (∃ s f u, FetchesIn s f ∧ memRead .word f.pc f = .halt u) ∧
    (∃ s f r, FetchesIn s f ∧ memRead .word f.pc f = .refuse r) :=
  ⟨⟨(atTime 0x500293#64).setPc 0x1100BFF8#32, _, _, 0x00500293#32, .addi 5 0 5#12, ⟨rfl, by decide, .inl ⟨by decide, rfl⟩⟩,
      rfl, by decide, rfl⟩,
    ⟨(ticking 0x80001FFC#32).ramWrite .word 0x80001FFC 0x04D00493#32, _, _, 0x04D00493#32, .addi 9 0 77#12,
      ⟨rfl, by decide, .inr ⟨.timer, by decide, by simp only [VectorDirect]; decide, rfl, rfl⟩⟩, rfl, by decide, by decide⟩,
    ⟨_, _, _, _, fetchesIn_ticking 0x80002000#32, rfl⟩,
    ⟨_, _, _, fetchesIn_ticking 0#32, rfl⟩,
    ⟨State.resetWith { defaultConfig with unmappedMmio := .refuse } [] ⟨0#64, []⟩ |>.setPc 0x10000008#32, _,
      .unmappedMmio 0x10000008#32, ⟨rfl, by decide, .inl ⟨by decide, rfl⟩⟩, rfl⟩⟩

theorem witness_HaltedTakesNoCycle : ∃ (s : State) (why : HaltReason), s.run = .halted why :=
  ⟨start.halt .poweroff, .poweroff, rfl⟩

theorem witness_ResetStateValues :
    ∃ (c : Config) (ram : List Host.Cell) (clock : Clock) (s : State), s = State.resetWith c ram clock ∧
      s.x 11 = 0x80001000#32 :=
  ⟨{ defaultConfig with dtbAddr := 0x80001000#32 }, [], ⟨0#64, []⟩, _, rfl, rfl⟩

/-- RAM up to the end of the address space, its last byte listed. -/
theorem witness_ResetHasInvariant :
    ∃ (c : Config) (ram : List Host.Cell), c.wf = true ∧ Memory.wf ram = true ∧
      Sparse.within c.pageOffset.toNat c.ramEnd ram = true ∧ c.ramEnd = 2 ^ 32 :=
  ⟨{ defaultConfig with memSize := 0x80000000 }, [(0x80000000, 1#8), (0xFFFFFFFF, 2#8)], by decide⟩

theorem witness_UpperImmediates :
    opcodeField 0xFFFFFFB7#32 = 0x37#7 ∧ opcodeField 0x00000017#32 = 0x17#7 := by decide

theorem witness_WrappingAddSub :
    (opcodeField 0xFFF08093#32 = 0x13#7 ∧ funct3Field 0xFFF08093#32 = 0#3) ∧
    (opcodeField 0x007302B3#32 = 0x33#7 ∧ funct3Field 0x007302B3#32 = 0#3 ∧ funct7Field 0x007302B3#32 = 0x00#7) ∧
    (opcodeField 0x407302B3#32 = 0x33#7 ∧ funct3Field 0x407302B3#32 = 0#3 ∧ funct7Field 0x407302B3#32 = 0x20#7) := by
  decide

/-- With `funct7` of an instruction and of none. -/
theorem witness_ImmediateShifts :
    (opcodeField 0x01F31293#32 = 0x13#7 ∧ funct3Field 0x01F31293#32 = 1#3 ∧ funct7Field 0x01F31293#32 = 0x00#7) ∧
    (opcodeField 0x02001013#32 = 0x13#7 ∧ funct3Field 0x02001013#32 = 1#3 ∧ funct7Field 0x02001013#32 ≠ 0x00#7) ∧
    (opcodeField 0x41F35293#32 = 0x13#7 ∧ funct3Field 0x41F35293#32 = 5#3 ∧ funct7Field 0x41F35293#32 = 0x20#7) := by decide

/-- The amounts 31 and, from a register that holds 32, 0. -/
theorem witness_RegisterShifts :
    (∃ (s : State) (rs2 : RegNum) (n : Nat), n = (s.x rs2).toNat % 32 ∧ n = 31) ∧
    (∃ (s : State) (rs2 : RegNum) (n : Nat), n = (s.x rs2).toNat % 32 ∧ n = 0 ∧ s.x rs2 ≠ 0#32) :=
  ⟨⟨pointing 0xFFFFFFFF#32, 6, 31, by decide⟩, ⟨pointing 32#32, 6, 0, by decide⟩⟩

theorem witness_MultiplyResults :
    ∃ (s : State) (rs1 rs2 : RegNum) (a b : Word), a = s.x rs1 ∧ b = s.x rs2 ∧ a = 0x80000000#32 :=
  ⟨pointing 0x80000000#32, 6, 6, _, _, rfl, rfl, by decide⟩

theorem witness_UnsignedDivision :
    (∃ (s : State) (rs1 rs2 : RegNum) (a b : Word), a = s.x rs1 ∧ b = s.x rs2 ∧ b = 0#32) ∧
    (opcodeField 0x027352B3#32 = 0x33#7 ∧ funct7Field 0x027352B3#32 = 0x01#7 ∧ funct3Field 0x027352B3#32 = 5#3) ∧
    (opcodeField 0x027372B3#32 = 0x33#7 ∧ funct7Field 0x027372B3#32 = 0x01#7 ∧ funct3Field 0x027372B3#32 = 7#3) :=
  ⟨⟨pointing 7#32, 6, 0, _, _, rfl, rfl, by decide⟩, by decide, by decide⟩

/-- The overflow. -/
theorem witness_SignedDivision :
    ∃ (s : State) (rs1 rs2 : RegNum) (a b : Word), a = s.x rs1 ∧ b = s.x rs2 ∧ a = 0x80000000#32 ∧ b = 0xFFFFFFFF#32 :=
  ⟨(pointing 0x80000000#32).setX 7 0xFFFFFFFF#32, 6, 7, _, _, rfl, rfl, by decide⟩

theorem witness_MulDivLaws :
    (∃ a b : Word, b ≠ 0#32 ∧ ¬ (a = 0x80000000#32 ∧ b = 0xFFFFFFFF#32) ∧ b = 0x80000000#32) ∧
    (∃ b : Word, b ≠ 0#32 ∧ b = 0xFFFFFFFF#32) ∧
    (∃ a b : Word, b = 0#32 ∨ (a = 0x80000000#32 ∧ b = 0xFFFFFFFF#32)) :=
  ⟨⟨7#32, 0x80000000#32, by decide⟩, ⟨0xFFFFFFFF#32, by decide⟩, ⟨0x80000000#32, 0xFFFFFFFF#32, by decide⟩⟩

/-- The farthest aligned and misaligned targets (VJ3, VJ5). -/
theorem witness_JalLinksAndJumps :
    (∃ (s : State) (offset : BitVec 21) (target : Word), target = BitVec.ofInt 32 (s.pc.toNat + offset.toInt) ∧
      target.toNat % 4 = 0 ∧ target = 0x7FF00000#32) ∧
    (∃ (s : State) (offset : BitVec 21) (target : Word), target = BitVec.ofInt 32 (s.pc.toNat + offset.toInt) ∧
      target.toNat % 4 ≠ 0 ∧ target = 0x800FFFFE#32) :=
  ⟨⟨start, 0x100000#21, _, rfl, by decide⟩, ⟨start, 0x0FFFFE#21, _, rfl, by decide⟩⟩

/-- A sum with bit 0 set, aligned once it is cleared (VJ8), and the last halfword of the address space (VJ13). -/
theorem witness_JalrLinksAndJumps :
    (∃ (s : State) (rs1 : RegNum) (imm : BitVec 12) (sum target : Word),
      sum = BitVec.ofInt 32 ((s.x rs1).toNat + imm.toInt) ∧ target = BitVec.ofNat 32 (sum.toNat / 2 * 2) ∧
      target.toNat % 4 = 0 ∧ sum ≠ target) ∧
    (∃ (s : State) (rs1 : RegNum) (imm : BitVec 12) (sum target : Word),
      sum = BitVec.ofInt 32 ((s.x rs1).toNat + imm.toInt) ∧ target = BitVec.ofNat 32 (sum.toNat / 2 * 2) ∧
      target.toNat % 4 ≠ 0) :=
  ⟨⟨pointing 0x80000101#32, 6, 4#12, _, _, rfl, rfl, by decide⟩, ⟨start, 0, 0xFFF#12, _, _, rfl, rfl, by decide⟩⟩

/-- A branch not taken, one taken to an aligned target, one taken to a misaligned one; the same offsets serve all six. -/
theorem witness_BranchesFollowTheirCondition :
    (∃ (s : State) (rs1 rs2 : RegNum) (target : Word) (offset : BitVec 13),
      target = BitVec.ofInt 32 (s.pc.toNat + offset.toInt) ∧ s.x rs1 ≠ s.x rs2 ∧ (s.x rs2).toInt < (s.x rs1).toInt ∧
      (s.x rs1).toNat < (s.x rs2).toNat ∧ target.toNat % 4 = 0) ∧
    (∃ (s : State) (rs1 rs2 : RegNum) (target : Word) (offset : BitVec 13),
      target = BitVec.ofInt 32 (s.pc.toNat + offset.toInt) ∧ s.x rs1 = s.x rs2 ∧ target.toNat % 4 ≠ 0) :=
  ⟨⟨pointing 0x80000000#32, 0, 6, _, 0x1000#13, rfl, by decide⟩, ⟨start, 0, 0, _, 0x0FFE#13, rfl, by decide⟩⟩

/-- The last byte, the last halfword, the last word of RAM, each the boundary of its width; and a misaligned word. -/
theorem witness_RamLoads :
    (RamAccess (pointing 0x80001FFF#32) .byte (effectiveAddress ((pointing 0x80001FFF#32).x 6) 0#12)) ∧
    (RamAccess (pointing 0x80001FFE#32) .half (effectiveAddress ((pointing 0x80001FFE#32).x 6) 0#12)) ∧
    (RamAccess (pointing 0x80001FFC#32) .word (effectiveAddress ((pointing 0x80001FFC#32).x 6) 0#12)) ∧
    (∃ (s : State) (rs1 : RegNum) (imm : BitVec 12) (a : Word) (b0 b1 : Byte), a = effectiveAddress (s.x rs1) imm ∧
      a ≠ 0#32 ∧ b0 = s.byte a.toNat ∧ b1 = s.byte (a.toNat + 1) ∧ RamAccess s .byte a ∧ RamAccess s .half a ∧
      RamAccess s .word a ∧ a = 0x80000001#32) :=
  ⟨by simp only [RamAccess]; decide, by simp only [RamAccess]; decide, by simp only [RamAccess]; decide,
    ⟨pointing 0x80000000#32, 6, 1#12, _, _, _, rfl, by decide, rfl, rfl, by simp only [RamAccess]; decide⟩⟩

/-- Reads that answer, from RAM and from devices; a halt at address 0; a refusal when the parameter says so. -/
theorem witness_LoadsFollowTheBus :
    (∃ (s u : State) (a v : Word), a = effectiveAddress (s.x 6) 0#12 ∧ memRead .byte a s = .ok v u ∧
      memRead .half a s = .ok v u ∧ memRead .word a s = .ok v u) ∧
    (∃ (s u : State) (i : Instr) (w : Width) (addr : Word), readAccess i s = some (w, addr) ∧ atomicAddress i s = none ∧
      memRead w addr s = .halt u) ∧
    (∃ (s : State) (i : Instr) (w : Width) (addr : Word) (e : Exception) (tval : Word),
      readAccess i s = some (w, addr) ∧ atomicAddress i s = none ∧ memRead w addr s = .raise e tval) ∧
    (∃ (s : State) (i : Instr) (w : Width) (addr : Word) (r : Refusal), readAccess i s = some (w, addr) ∧
      atomicAddress i s = none ∧ memRead w addr s = .refuse r) :=
  ⟨⟨pointing 0x10000005#32, _, _, 0x60#32, rfl, rfl, rfl, rfl⟩, ⟨start, _, .lw 5 0 0#12, _, _, rfl, rfl, rfl⟩,
    ⟨pointing 0x80001FFD#32, .lw 5 6 0#12, _, _, _, _, rfl, rfl, rfl⟩,
    ⟨{ start with cfg := { defaultConfig with unmappedMmio := .refuse } }, .lw 5 0 4#12, _, _, _, rfl, rfl, rfl⟩⟩

/-- A word load three bytes before `END`, an AMO at `END`, an LR.W at 0. -/
theorem witness_ReadFaultsAndNullReads :
    (∃ (i : Instr) (s : State) (w : Width) (a : Word), readAccess i s = some (w, a) ∧ atomicAddress i s = none ∧
      BeyondEnd s w a ∧ a = 0x80001FFD#32) ∧
    (∃ (i : Instr) (s : State) (w : Width) (a : Word), readAccess i s = some (w, a) ∧ atomicAddress i s = some a ∧
      a.toNat % 4 = 0 ∧ BeyondEnd s w a ∧ a = 0x80002000#32) ∧
    (∃ (i : Instr) (s : State) (w : Width) (a : Word), readAccess i s = some (w, a) ∧ atomicAddress i s = some a ∧
      a.toNat % 4 = 0 ∧ ¬ BeyondEnd s w a ∧ a = 0#32) :=
  ⟨⟨.lw 5 6 0#12, pointing 0x80001FFD#32, .word, 0x80001FFD#32, by simp only [BeyondEnd]; decide⟩,
    ⟨.amoaddW 5 6 7 false false, pointing 0x80002000#32, .word, 0x80002000#32, by simp only [BeyondEnd]; decide⟩,
    ⟨.lrW 5 0 0 false false, start, .word, 0#32, by simp only [BeyondEnd]; decide⟩⟩

theorem witness_RamStores :
    (RamAccess (pointing 0x80001FFF#32) .byte (effectiveAddress ((pointing 0x80001FFF#32).x 6) 0#12)) ∧
    (RamAccess (pointing 0x80001FFE#32) .half (effectiveAddress ((pointing 0x80001FFE#32).x 6) 0#12)) ∧
    (RamAccess (pointing 0x80001FFC#32) .word (effectiveAddress ((pointing 0x80001FFC#32).x 6) 0#12)) ∧
    (RamAccess (pointing 0x80000000#32) .word (effectiveAddress ((pointing 0x80000000#32).x 6) 0#12)) :=
  ⟨by simp only [RamAccess]; decide, by simp only [RamAccess]; decide, by simp only [RamAccess]; decide,
    by simp only [RamAccess]; decide⟩

/-- A write that answers, one that halts, one that is refused. -/
theorem witness_StoresFollowTheBus :
    (∃ (s u : State) (i : Instr) (w : Width),
      (i, w) ∈ [(Instr.sb 7 6 0#12, Width.byte), (Instr.sh 7 6 0#12, Width.half), (Instr.sw 7 6 0#12, Width.word)] ∧
      memWrite w (effectiveAddress (s.x 6) 0#12) (s.x 7) s = .ok () u) ∧
    (∃ (s u : State) (i : Instr) (w : Width),
      (i, w) ∈ [(Instr.sb 7 6 0#12, Width.byte), (Instr.sh 7 6 0#12, Width.half), (Instr.sw 7 6 0#12, Width.word)] ∧
      memWrite w (effectiveAddress (s.x 6) 0#12) (s.x 7) s = .halt u) ∧
    (∃ (s : State) (i : Instr) (w : Width) (e : Exception) (tval : Word),
      (i, w) ∈ [(Instr.sb 7 6 0#12, Width.byte), (Instr.sh 7 6 0#12, Width.half), (Instr.sw 7 6 0#12, Width.word)] ∧
      memWrite w (effectiveAddress (s.x 6) 0#12) (s.x 7) s = .raise e tval) ∧
    (∃ (s : State) (i : Instr) (w : Width) (r : Refusal),
      (i, w) ∈ [(Instr.sb 7 6 0#12, Width.byte), (Instr.sh 7 6 0#12, Width.half), (Instr.sw 7 6 0#12, Width.word)] ∧
      memWrite w (effectiveAddress (s.x 6) 0#12) (s.x 7) s = .refuse r) :=
  ⟨⟨pointing 0x10000000#32, _, .sb 7 6 0#12, .byte, by decide, rfl⟩,
    ⟨(pointing 0x11100000#32).setX 7 0x7777#32, _, .sh 7 6 0#12, .half, by decide, rfl⟩,
    ⟨pointing 0x80001FFF#32, .sh 7 6 0#12, .half, _, _, by decide, rfl⟩,
    ⟨{ pointing 4#32 with cfg := { defaultConfig with unmappedMmio := .refuse } }, .sw 7 6 0#12, .word, _, by decide, rfl⟩⟩

/-- A halfword store one byte before `END`; an SC.W at `END`. -/
theorem witness_StoreFaults :
    (∃ (i : Instr) (s : State) (w : Width) (a : Word), storeAccess i s = some (w, a) ∧ atomicAddress i s = none ∧
      BeyondEnd s w a ∧ a = 0x80001FFF#32) ∧
    (∃ (i : Instr) (s : State) (w : Width) (a : Word), storeAccess i s = some (w, a) ∧ atomicAddress i s = some a ∧
      a.toNat % 4 = 0 ∧ BeyondEnd s w a) :=
  ⟨⟨.sh 7 6 0#12, pointing 0x80001FFF#32, .half, 0x80001FFF#32, by simp only [BeyondEnd]; decide⟩,
    ⟨.scW 7 6 8 false false, (pointing 0x80002000#32).setReservation true, .word, 0x80002000#32,
      by simp only [BeyondEnd]; decide⟩⟩

/-- The last byte of the last word of RAM. -/
theorem witness_NarrowReadsOfAStoredWord :
    ∃ (s u : State) (a v : Word) (w : Width) (k : Nat), s.cfg.wf = true ∧ RamAccess s .word a ∧ k + w.bytes ≤ 4 ∧
      a + BitVec.ofNat 32 k ≠ 0#32 ∧ memWrite .word a v s = .ok () u ∧ k = 3 :=
  ⟨start, _, 0x80001FFC#32, 0x12345678#32, .byte, 3, by decide, by simp only [RamAccess]; decide, by decide, by decide,
    rfl, rfl⟩

theorem witness_StoredWordIsFetched :
    ∃ (s t u : State) (rs2 rs1 : RegNum) (imm : BitVec 12) (i : Instr) (a : Word), a = effectiveAddress (s.x rs1) imm ∧
      RamAccess s .word a ∧ a ≠ 0#32 ∧ a.toNat % 4 = 0 ∧ s.run = .running ∧ exec (.sw rs2 rs1 imm) s = .next t ∧
      decodeWord (s.x rs2) = some i ∧ u = t.setPc a ∧ pendingInterrupt (timerCheck u) = none :=
  ⟨(pointing 0x80001FFC#32).setX 7 0x00100093#32, _, _, 7, 6, 0#12, .addi 1 0 1#12, _, rfl,
    by simp only [RamAccess]; decide, by decide, by decide, rfl, rfl, by decide, rfl, by decide⟩

theorem witness_FencesOnlyAdvancePc :
    (opcodeField 0xFFF3028F#32 = 0x0F#7 ∧ funct3Field 0xFFF3028F#32 = 0#3) ∧
    (opcodeField 0xFFF3128F#32 = 0x0F#7 ∧ funct3Field 0xFFF3128F#32 = 1#3) := by decide

theorem witness_UartAndMsip :
    DeviceAccess start .word 0x10000000#32 ∧ DeviceAccess start .byte 0x10000005#32 ∧
    DeviceAccess start .half 0x11000000#32 := by
  simp only [DeviceAccess]
  decide

theorem witness_ClintTimerRegisters :
    (∃ (s : State) (now : Nat), now = s.clock.sample.mtime.toNat ∧ now = 100) ∧
    DeviceAccess start .word 0x1100BFF8#32 ∧ DeviceAccess start .word 0x1100BFFC#32 ∧
    DeviceAccess start .word 0x11004000#32 ∧ DeviceAccess start .byte 0x11004004#32 :=
  ⟨⟨atTime 100#64, 100, by decide⟩, by simp only [DeviceAccess]; decide⟩

theorem witness_SysconHaltsOnMagicValues :
    DeviceAccess start .half 0x11100000#32 ∧ lowBytes .half 0x15555 = 0x5555 ∧ lowBytes .word 0x7777 = 0x7777 ∧
    lowBytes .byte 0x5555 ≠ 0x5555 ∧ lowBytes .byte 0x5555 ≠ 0x7777 := by
  simp only [DeviceAccess]
  decide

/-- The last device byte, the first word above address 0, and address 0 for a write; both values of the parameter. -/
theorem witness_UnclaimedDeviceAddresses :
    (∃ (s : State) (w : Width) (a : Word), DeviceAccess s w a ∧ a ≠ 0#32 ∧
      a ∉ [0x10000000#32, 0x10000005#32, 0x11000000#32, 0x11004000#32, 0x11004004#32, 0x1100BFF8#32, 0x1100BFFC#32] ∧
      s.cfg.unmappedMmio = .readZeroWriteIgnored ∧ a = 0x7FFFFFFF#32) ∧
    (∃ (s : State) (w : Width) (a : Word), DeviceAccess s w a ∧
      a ∉ [0x10000000#32, 0x11000000#32, 0x11004000#32, 0x11004004#32, 0x11100000#32] ∧
      s.cfg.unmappedMmio = .refuse ∧ a = 0#32) :=
  ⟨⟨start, .byte, 0x7FFFFFFF#32, by simp only [DeviceAccess]; decide⟩,
    ⟨{ start with cfg := { defaultConfig with unmappedMmio := .refuse } }, .word, 0#32,
      by simp only [DeviceAccess]; decide⟩⟩

theorem witness_LoadReserved :
    ∃ (s : State) (rs1 : RegNum) (a : Word), a = s.x rs1 ∧ a.toNat % 4 = 0 ∧ a ≠ 0#32 ∧ RamAccess s .word a ∧
      a = 0x80001FFC#32 :=
  ⟨pointing 0x80001FFC#32, 6, 0x80001FFC#32, by simp only [RamAccess]; decide⟩

/-- With the reservation held at the last word of RAM; without it past the end. -/
theorem witness_StoreConditional :
    (∃ (s : State) (rs1 : RegNum) (a : Word), a = s.x rs1 ∧ a.toNat % 4 = 0 ∧ s.reservation = true ∧
      RamAccess s .word a) ∧
    (∃ (s : State) (rs1 : RegNum) (a : Word), a = s.x rs1 ∧ a.toNat % 4 = 0 ∧ s.reservation = false ∧
      BeyondEnd s .word a) :=
  ⟨⟨(pointing 0x80001FFC#32).setReservation true, 6, 0x80001FFC#32, by simp only [RamAccess]; decide⟩,
    ⟨pointing 0x80002000#32, 6, 0x80002000#32, by simp only [BeyondEnd]; decide⟩⟩

theorem witness_AmosInRam :
    ∃ (i : Instr) (f : AmoForm) (s : State) (a : Word), amoForm i = some f ∧ a = s.x f.rs1 ∧ a.toNat % 4 = 0 ∧ a ≠ 0#32 ∧
      RamAccess s .word a :=
  ⟨.amomaxuW 6 6 6 true true, _, pointing 0x80000000#32, 0x80000000#32, rfl, by decide, by decide, by decide,
    by simp only [RamAccess]; decide⟩

/-- The comparator, read and written; a write of SYSCON that halts. -/
theorem witness_AtomicsFollowTheBus :
    ((∃ (s u : State) (v a : Word), a.toNat % 4 = 0 ∧ a = s.x 6 ∧ memRead .word a s = .ok v u) ∧
      (∃ (s : State) (a : Word) (e : Exception) (tval : Word), a.toNat % 4 = 0 ∧ a = s.x 6 ∧
        memRead .word a s = .raise e tval) ∧
      (∃ (s u : State) (a : Word), a.toNat % 4 = 0 ∧ a = s.x 6 ∧ memRead .word a s = .halt u) ∧
      (∃ (s : State) (a : Word) (r : Refusal), a.toNat % 4 = 0 ∧ a = s.x 6 ∧ memRead .word a s = .refuse r)) ∧
    ((∃ (s z : State) (a : Word), a.toNat % 4 = 0 ∧ a = s.x 6 ∧ s.reservation = true ∧
        memWrite .word a (s.x 8) s = .ok () z) ∧
      (∃ (s : State) (a : Word) (e : Exception) (tval : Word), a.toNat % 4 = 0 ∧ a = s.x 6 ∧ s.reservation = true ∧
        memWrite .word a (s.x 8) s = .raise e tval) ∧
      (∃ (s z : State) (a : Word), a.toNat % 4 = 0 ∧ a = s.x 6 ∧ s.reservation = true ∧
        memWrite .word a (s.x 8) s = .halt z) ∧
      (∃ (s : State) (a : Word) (r : Refusal), a.toNat % 4 = 0 ∧ a = s.x 6 ∧ s.reservation = true ∧
        memWrite .word a (s.x 8) s = .refuse r)) ∧
    ((∃ (s u z : State) (v a : Word) (i : Instr) (f : AmoForm), a.toNat % 4 = 0 ∧ amoForm i = some f ∧ a = s.x f.rs1 ∧
        memRead .word a s = .ok v u ∧ memWrite .word a (f.op v (s.x f.rs2)) u = .ok () z) ∧
      (∃ (s u z : State) (v a : Word) (i : Instr) (f : AmoForm), a.toNat % 4 = 0 ∧ amoForm i = some f ∧ a = s.x f.rs1 ∧
        memRead .word a s = .ok v u ∧ memWrite .word a (f.op v (s.x f.rs2)) u = .halt z) ∧
      (∃ (s u : State) (v a : Word) (i : Instr) (f : AmoForm) (r : Refusal), a.toNat % 4 = 0 ∧ amoForm i = some f ∧
        a = s.x f.rs1 ∧ memRead .word a s = .ok v u ∧ memWrite .word a (f.op v (s.x f.rs2)) u = .refuse r) ∧
      (∃ (s : State) (a : Word) (i : Instr) (f : AmoForm) (e : Exception) (tval : Word), a.toNat % 4 = 0 ∧
        amoForm i = some f ∧ a = s.x f.rs1 ∧ memRead .word a s = .raise e tval) ∧
      (∃ (s u : State) (a : Word) (i : Instr) (f : AmoForm), a.toNat % 4 = 0 ∧ amoForm i = some f ∧ a = s.x f.rs1 ∧
        memRead .word a s = .halt u) ∧
      (∃ (s : State) (a : Word) (i : Instr) (f : AmoForm) (r : Refusal), a.toNat % 4 = 0 ∧ amoForm i = some f ∧
        a = s.x f.rs1 ∧ memRead .word a s = .refuse r)) :=
  ⟨⟨⟨pointing 0x11004000#32, _, 0xFFFFFFFF#32, 0x11004000#32, by decide, rfl, rfl⟩,
      ⟨pointing 0x80002000#32, 0x80002000#32, _, _, by decide, rfl, rfl⟩,
      ⟨pointing 0#32, _, 0#32, by decide, rfl, rfl⟩,
      ⟨refusing 0x10000008#32, 0x10000008#32, _, by decide, rfl, rfl⟩⟩,
    ⟨⟨(pointing 0x10000000#32).setReservation true, _, 0x10000000#32, by decide, rfl, rfl, rfl⟩,
      ⟨(pointing 0x80002000#32).setReservation true, 0x80002000#32, _, _, by decide, rfl, rfl, rfl⟩,
      ⟨((pointing 0x11100000#32).setX 8 0x5555#32).setReservation true, _, 0x11100000#32, by decide, rfl, rfl, rfl⟩,
      ⟨(refusing 0x1100BFF8#32).setReservation true, 0x1100BFF8#32, _, by decide, rfl, rfl, rfl⟩⟩,
    ⟨pointing 0x11004000#32, _, _, 0xFFFFFFFF#32, 0x11004000#32, .amoorW 5 6 7 false false, _, by decide, rfl, rfl, rfl, rfl⟩,
    ⟨(pointing 0x11100000#32).setX 7 0x5555#32, _, _, 0#32, 0x11100000#32, .amoswapW 5 6 7 false false, _, by decide, rfl,
      rfl, rfl, rfl⟩,
    ⟨refusing 0x1100BFF8#32, _, 0#32, 0x1100BFF8#32, .amoaddW 5 6 7 false false, _, _, by decide, rfl, rfl, rfl, rfl⟩,
    ⟨pointing 0x80002000#32, 0x80002000#32, .amoxorW 5 6 7 false false, _, _, _, by decide, rfl, rfl, rfl⟩,
    ⟨pointing 0#32, _, 0#32, .amominW 5 6 7 false false, _, by decide, rfl, rfl, rfl⟩,
    ⟨refusing 0x11100000#32, 0x11100000#32, .amomaxuW 5 6 7 false false, _, _, by decide, rfl, rfl, rfl⟩⟩

/-- An SC.W without a reservation, past the end, and an AMO at the last address. -/
theorem witness_MisalignedAtomics :
    (∃ (i : Instr) (s : State) (a : Word), atomicAddress i s = some a ∧ a.toNat % 4 ≠ 0 ∧ a = 0x80002001#32) ∧
    (∃ (i : Instr) (s : State) (a : Word), atomicAddress i s = some a ∧ a.toNat % 4 ≠ 0 ∧ a = 0xFFFFFFFF#32) :=
  ⟨⟨.scW 7 6 8 false false, pointing 0x80002001#32, 0x80002001#32, by decide⟩,
    ⟨.amoaddW 5 6 7 false false, pointing 0xFFFFFFFF#32, 0xFFFFFFFF#32, by decide⟩⟩

/-- In Machine mode every number is permitted, and CSRRWI requests a write. -/
theorem requested_and_permitted (n : CsrNum) :
    (csrForm (.csrrwi 5 n 1#5) start).map (·.requested) = some true ∧ ¬ start.priv.bits.toNat < n.toNat / 256 % 4 :=
  ⟨rfl, by show ¬ 3 < _; omega⟩

/-- The first and the last number of each range of R271's fixed class, a write being requested of each
(`requested_and_permitted`); and no write requested. -/
theorem witness_CsrReads :
    (∃ (i : Instr) (s : State) (f : CsrForm), csrForm i s = some f ∧ ¬ s.priv.bits.toNat < f.number.toNat / 256 % 4 ∧
      f.requested = false) ∧
    (∀ n ∈ [0x301#12, 0x3A0#12, 0x3A3#12, 0x3B0#12, 0x3BF#12, 0xB00#12, 0xB02#12, 0xB80#12, 0xB82#12, 0xC00#12, 0xFFF#12],
      FixedCsr n ∧ ¬ RecheckedCsr n) :=
  ⟨⟨.csrrs 5 0x344#12 0, start, _, rfl, by decide⟩, by simp [FixedCsr, RecheckedCsr, counterCsrs]⟩

/-- Numbers just outside the other classes, a write being requested of each (`requested_and_permitted`). -/
theorem witness_CsrPlainWrites :
    ∀ n ∈ [0x000#12, 0x302#12, 0x305#12, 0x39F#12, 0x3A4#12, 0x3AF#12, 0x3C0#12, 0xB01#12, 0xBFF#12],
      ¬ FixedCsr n ∧ ¬ RecheckedCsr n := by
  simp [FixedCsr, RecheckedCsr, counterCsrs]

theorem witness_CsrMaskedWrites :
    ∃ (i : Instr) (s : State) (f : CsrForm) (stored : Word), csrForm i s = some f ∧
      ¬ s.priv.bits.toNat < f.number.toNat / 256 % 4 ∧ f.requested = true ∧ RecheckedCsr f.number ∧
      stored = maskedStore f.number f.new s ∧ pendingInterrupt (s.setCsr f.number.toNat stored) = none ∧
      f.new = 0xFFFFFFFF#32 ∧ stored = 0x7FC019FF#32 :=
  ⟨.csrrw 5 0x300#12 6, pointing 0xFFFFFFFF#32, _, _, rfl, by decide, rfl, by simp only [RecheckedCsr]; decide, rfl,
    by decide, by decide, by decide⟩

/-- VZ37, and the same with a vector mode that halts. -/
theorem witness_CsrWriteTakesTheInterrupt :
    (∃ (i : Instr) (s : State) (f : CsrForm) (k : Interrupt) (written : State), csrForm i s = some f ∧
      ¬ s.priv.bits.toNat < f.number.toNat / 256 % 4 ∧ f.requested = true ∧ RecheckedCsr f.number ∧
      written = (s.setCsr f.number.toNat (maskedStore f.number f.new s)).setPc (s.pc + 4#32) ∧
      pendingInterrupt written = some k ∧ VectorDirect s) ∧
    (∃ (i : Instr) (s : State) (f : CsrForm) (k : Interrupt) (written : State), csrForm i s = some f ∧
      ¬ s.priv.bits.toNat < f.number.toNat / 256 % 4 ∧ f.requested = true ∧ RecheckedCsr f.number ∧
      written = (s.setCsr f.number.toNat (maskedStore f.number f.new s)).setPc (s.pc + 4#32) ∧
      pendingInterrupt written = some k ∧ ¬ VectorDirect s) :=
  ⟨⟨.csrrw 5 0x344#12 6, ((pointing 0x888#32).setCsr 0x304 0x888#32).setCsr 0x305 0x80000200#32, _, .external, _, rfl,
      by decide, rfl, by simp only [RecheckedCsr]; decide, rfl, by decide, by simp only [VectorDirect]; decide⟩,
    ⟨.csrrw 5 0x344#12 6, ((pointing 0x888#32).setCsr 0x304 0x888#32).setCsr 0x305 0x80000203#32, _, .external, _, rfl,
      by decide, rfl, by simp only [RecheckedCsr]; decide, rfl, by decide, by simp only [VectorDirect]; decide⟩⟩

/-- User mode and a number of minimum privilege 1; Machine mode and one of minimum privilege 3. -/
theorem witness_CsrPrivilege :
    (∃ (i : Instr) (s : State) (f : CsrForm), csrForm i s = some f ∧ s.priv.bits.toNat < f.number.toNat / 256 % 4 ∧
      f.number = 0x100#12) ∧
    (∃ (i : Instr) (s : State) (f : CsrForm), csrForm i s = some f ∧ s.priv = .machine ∧ f.number = 0xF14#12) :=
  ⟨⟨.csrrs 5 0x100#12 0, inUserMode, _, rfl, by decide⟩, ⟨.csrrs 5 0xF14#12 0, start, _, rfl, by decide⟩⟩

theorem witness_MretUndoesATrap :
    ∃ (s u : State) (cause tval : Word), s.priv = .machine ∧ VectorDirect s ∧ u = trap cause tval s :=
  ⟨start, _, 11#32, 0#32, rfl, by simp only [VectorDirect]; decide, rfl⟩

/-- A reservation set, one cleared, a cycle that runs an instruction, one that ends before. -/
theorem witness_ReservationOnlyByLrAndSc :
    (∃ (i : Instr) (s t : State), exec i s = .next t ∧ t.reservation ≠ s.reservation ∧ t.reservation = true) ∧
    (∃ (i : Instr) (s t : State), exec i s = .next t ∧ t.reservation ≠ s.reservation ∧ t.reservation = false) ∧
    (∃ (i : Instr) (s u : State), cycleFront s = .run i u) ∧
    (∃ s t : State, cycleFront s = .ended (.next t)) :=
  ⟨⟨.lrW 5 6 0 false false, pointing 0x80000000#32, _, rfl, by decide, by decide⟩,
    ⟨.scW 5 6 0 false false, (pointing 0x80000000#32).setReservation true, _, rfl, by decide, by decide⟩,
    ⟨_, atFirst 0x00100093#32, _, rfl⟩, ⟨start, _, rfl⟩⟩

/-- A register, a byte and (by an ECALL) a CSR that change. -/
theorem witness_OnlyDestinationsChange :
    (∃ (i : Instr) (s t : State) (r : RegNum), exec i s = .next t ∧ t.x r ≠ s.x r) ∧
    (∃ (i : Instr) (s t : State) (a : Nat), exec i s = .next t ∧ t.byte a ≠ s.byte a) ∧
    (∃ (i : Instr) (s t : State), exec i s = .next t ∧ csrForm i s = none ∧ t.csr 0x342 ≠ s.csr 0x342) :=
  ⟨⟨.addi 5 0 1#12, start, _, 5, rfl, by decide⟩, ⟨.sb 6 6 0#12, pointing 0x80001FFF#32, _, 0x80001FFF, rfl, by decide⟩,
    ⟨.ecall 0 0, start, _, rfl, rfl, by decide⟩⟩

/-- A state of the invariant that holds a program word, and the cycle that runs it. -/
theorem witness_StepKeepsInvariant : ∃ s t : State, Inv s ∧ step s = .next t := by
  refine ⟨atFirst 0x00100093#32, _, ?_, rfl⟩
  have hcsr : ∀ a, a ≠ 0x300 → a ≠ 0x301 → (atFirst 0x00100093#32).csr a = 0#32 := fun a h0 h1 => by
    show Sparse.get csrUnlisted resetCsrs a = 0#32
    simp [resetCsrs, Sparse.get, csrUnlisted, h0, h1]
  exact {
    memoryCanonical := by decide
    memoryInRam := by decide
    csrsCanonical := by decide
    csrsInRange := by decide
    zeroRegister := by decide
    machineMode := rfl
    mstatusFields := by decide
    misaConstant := by decide
    midelegZero := by decide
    mieFields := by decide
    mipFields := by decide
    pmpZero := fun a h => hcsr _ (fun e => absurd h (by rw [show a = 0x300#12 from BitVec.eq_of_toNat_eq e]; decide))
      (fun e => absurd h (by rw [show a = 0x301#12 from BitVec.eq_of_toNat_eq e]; decide))
    readOnlyZero := fun a h => hcsr _ (fun e => absurd h (by rw [show a = 0x300#12 from BitVec.eq_of_toNat_eq e]; decide))
      (fun e => absurd h (by rw [show a = 0x301#12 from BitVec.eq_of_toNat_eq e]; decide))
    instretIsCycle := by decide
    instrethIsCycleh := by decide
    parameters := by decide }

theorem witness_StepExtends : ∃ s t : State, step s = .next t := ⟨atLast 0x00100093#32, _, rfl⟩

theorem witness_StepAlwaysAnswers :
    (∃ s : State, s.cfg.unmappedMmio = .readZeroWriteIgnored ∧ s.run = .running) ∧
    (∃ (s : State) (r : Refusal), step s = .refused r) ∧ (∃ (s : State) (f : Fault), step s = .fault f) :=
  ⟨⟨start, rfl, rfl⟩,
    ⟨{ start with cfg := { defaultConfig with unmappedMmio := .refuse }, pc := 4#32 }, _, rfl⟩,
    ⟨start.halt .poweroff, _, rfl⟩⟩

end Sys2Proof.Tests
end

/-!
PROOFS. RV32I computational instructions (40_rv32i_compute.md): LUI and AUIPC, the wrapping sums, the shifts by an
immediate. Two layers come first: which part of the decoder reads a word (R129), and what an instruction writes (R150).
-/

namespace Sys2Proof

/-! ### Decoding by opcode, `funct3` and `funct7` (R129) -/

section

variable {w : Word}

/-- The opcode of OP-IMM selects `decodeOpImm`. -/
theorem decodeWord_of_opImm (hop : opcodeField w = 0x13#7) : decodeWord w = decodeOpImm w := by
  simp only [decodeWord, hop]

/-- The opcode of OP selects `decodeOp`. -/
theorem decodeWord_of_op (hop : opcodeField w = 0x33#7) : decodeWord w = decodeOp w := by
  simp only [decodeWord, hop]

/-- OP with `funct7 = 0x00` selects `decodeOpBase`. -/
theorem decodeWord_of_opBase (hop : opcodeField w = 0x33#7) (h7 : funct7Field w = 0x00#7) :
    decodeWord w = some (decodeOpBase w) := by
  simp only [decodeWord_of_op hop, decodeOp, h7]

/-- OP with `funct7 = 0x20` selects `decodeOpAlt`. -/
theorem decodeWord_of_opAlt (hop : opcodeField w = 0x33#7) (h7 : funct7Field w = 0x20#7) :
    decodeWord w = decodeOpAlt w := by
  simp only [decodeWord_of_op hop, decodeOp, h7]

theorem decodeWord_lui (hop : opcodeField w = 0x37#7) : decodeWord w = some (.lui (rdField w) (immUField w)) := by
  simp only [decodeWord, hop]

theorem decodeWord_auipc (hop : opcodeField w = 0x17#7) : decodeWord w = some (.auipc (rdField w) (immUField w)) := by
  simp only [decodeWord, hop]

theorem decodeWord_addi (hop : opcodeField w = 0x13#7) (h3 : funct3Field w = 0#3) :
    decodeWord w = some (.addi (rdField w) (rs1Field w) (immIField w)) := by
  simp only [decodeWord_of_opImm hop, decodeOpImm, h3]

theorem decodeWord_add (hop : opcodeField w = 0x33#7) (h3 : funct3Field w = 0#3) (h7 : funct7Field w = 0x00#7) :
    decodeWord w = some (.add (rdField w) (rs1Field w) (rs2Field w)) := by
  simp only [decodeWord_of_opBase hop h7, decodeOpBase, h3]

theorem decodeWord_sub (hop : opcodeField w = 0x33#7) (h3 : funct3Field w = 0#3) (h7 : funct7Field w = 0x20#7) :
    decodeWord w = some (.sub (rdField w) (rs1Field w) (rs2Field w)) := by
  simp only [decodeWord_of_opAlt hop h7, decodeOpAlt, h3]

/-- OP-IMM with `funct3 = 1`: SLLI, or no instruction (R133). -/
theorem decodeWord_shiftLeftImm (hop : opcodeField w = 0x13#7) (h3 : funct3Field w = 1#3) :
    decodeWord w =
      if funct7Field w = 0x00#7 then some (.slli (rdField w) (rs1Field w) (shamtField w)) else none := by
  simp only [decodeWord_of_opImm hop, decodeOpImm, h3]

/-- OP-IMM with `funct3 = 5`: SRLI, SRAI, or no instruction (R133). -/
theorem decodeWord_shiftRightImm (hop : opcodeField w = 0x13#7) (h3 : funct3Field w = 5#3) :
    decodeWord w =
      if funct7Field w = 0x00#7 then some (.srli (rdField w) (rs1Field w) (shamtField w))
      else if funct7Field w = 0x20#7 then some (.srai (rdField w) (rs1Field w) (shamtField w)) else none := by
  simp only [decodeWord_of_opImm hop, decodeOpImm, h3]

end

end Sys2Proof

namespace Sys2Proof.Machine

/-! ### What an instruction writes (R150 to R153, R159 to R163)

Each of these arms of `exec` is `writeResult` of a bit-vector value; the lemmas state that value as integer arithmetic
reduced to 32 bits. -/

section

variable (s : State) (rd rs1 rs2 : RegNum)

theorem exec_lui (imm : BitVec 20) :
    exec (.lui rd imm) s = writeResult rd (BitVec.ofNat 32 (imm.toNat * 2 ^ 12)) s :=
  congrArg (writeResult rd · s) (immU_eq imm)

theorem pc_add_immU (pc : Word) (imm : BitVec 20) :
    pc + immU imm = BitVec.ofNat 32 (pc.toNat + imm.toNat * 2 ^ 12) := by
  rw [immU_eq, BitVec.ofNat_add, BitVec.ofNat_toNat, BitVec.setWidth_eq]

theorem exec_auipc (imm : BitVec 20) :
    exec (.auipc rd imm) s = writeResult rd (BitVec.ofNat 32 (s.pc.toNat + imm.toNat * 2 ^ 12)) s :=
  congrArg (writeResult rd · s) (pc_add_immU s.pc imm)

theorem exec_addi (imm : BitVec 12) :
    exec (.addi rd rs1 imm) s = writeResult rd (BitVec.ofInt 32 ((s.x rs1).toNat + imm.toInt)) s :=
  congrArg (writeResult rd · s) (add_ofInt (s.x rs1) imm.toInt)

theorem exec_add :
    exec (.add rd rs1 rs2) s = writeResult rd (BitVec.ofNat 32 ((s.x rs1).toNat + (s.x rs2).toNat)) s :=
  congrArg (writeResult rd · s) (add_eq_ofNat (s.x rs1) (s.x rs2))

theorem exec_sub :
    exec (.sub rd rs1 rs2) s = writeResult rd (BitVec.ofInt 32 ((s.x rs1).toNat - (s.x rs2).toNat)) s :=
  congrArg (writeResult rd · s) (sub_eq_ofInt (s.x rs1) (s.x rs2))

theorem exec_slli (shamt : BitVec 5) :
    exec (.slli rd rs1 shamt) s = writeResult rd (BitVec.ofNat 32 ((s.x rs1).toNat * 2 ^ shamt.toNat)) s :=
  congrArg (writeResult rd · s) (shiftLeft_eq_ofNat (s.x rs1) shamt.toNat)

theorem exec_srli (shamt : BitVec 5) :
    exec (.srli rd rs1 shamt) s = writeResult rd (BitVec.ofNat 32 ((s.x rs1).toNat / 2 ^ shamt.toNat)) s :=
  congrArg (writeResult rd · s) (shiftRight_eq_ofNat (s.x rs1) shamt.toNat)

theorem exec_srai (shamt : BitVec 5) :
    exec (.srai rd rs1 shamt) s = writeResult rd (BitVec.ofInt 32 ((s.x rs1).toInt / 2 ^ shamt.toNat)) s :=
  congrArg (writeResult rd · s) (sshiftRight_eq_ofInt (s.x rs1) shamt.toNat)

end

/-- An instruction whose whole meaning is `writeResult` completes with that result (R150). -/
theorem completes_of_exec_eq_writeResult {i : Instr} {s : State} {rd : RegNum} {v : Word}
    (h : exec i s = writeResult rd v s) : ∃ t, exec i s = .next t ∧ Completes s t rd v (s.pc + 4#32) := by
  rw [h]
  exact writeResult_completes rd v s

/-! ### The statements -/

/-- Settles O17: LUI and AUIPC end by `writeResult` with the value of `exec_lui` and `exec_auipc`, and their opcodes alone
select them. -/
theorem upperImmediates : Obligations.UpperImmediates := by
  unfold Obligations.UpperImmediates
  refine ⟨fun s rd imm => ⟨?lui, ?auipc⟩, fun _ => decodeWord_lui, fun _ => decodeWord_auipc⟩
  case lui => exact completes_of_exec_eq_writeResult (exec_lui s rd imm)
  case auipc => exact completes_of_exec_eq_writeResult (exec_auipc s rd imm)

/-- Settles O18: ADDI, ADD and SUB end by `writeResult` with the value that `exec_addi`, `exec_add` and `exec_sub` state as
integer arithmetic reduced to 32 bits. -/
theorem wrappingAddSub : Obligations.WrappingAddSub := by
  unfold Obligations.WrappingAddSub
  refine ⟨fun s rd rs1 rs2 imm => ⟨?addi, ?add, ?sub⟩, fun _ => decodeWord_addi, fun _ => decodeWord_add,
    fun _ => decodeWord_sub⟩
  case addi => exact completes_of_exec_eq_writeResult (exec_addi s rd rs1 imm)
  case add => exact completes_of_exec_eq_writeResult (exec_add s rd rs1 rs2)
  case sub => exact completes_of_exec_eq_writeResult (exec_sub s rd rs1 rs2)

/-- Settles O19: the shifts end by `writeResult` with a product or a quotient by `2 ^ shamt`, signed for SRAI, and their
`funct7` selects one of them or none. -/
theorem immediateShifts : Obligations.ImmediateShifts := by
  unfold Obligations.ImmediateShifts
  refine ⟨fun s rd rs1 shamt => ⟨?slli, ?srli, ?srai⟩, fun _ => decodeWord_shiftLeftImm,
    fun _ => decodeWord_shiftRightImm⟩
  case slli => exact completes_of_exec_eq_writeResult (exec_slli s rd rs1 shamt)
  case srli => exact completes_of_exec_eq_writeResult (exec_srli s rd rs1 shamt)
  case srai => exact completes_of_exec_eq_writeResult (exec_srai s rd rs1 shamt)

end Sys2Proof.Machine

/-!
PROOFS. RV32I fences (42_rv32i_loadstore_fence.md R209, R210): which words they are, and that they retire with `pc`
advanced and nothing else changed.
-/

namespace Sys2Proof

/-! ### Decoding of MISC-MEM (R129) -/

section

variable {w : Word}

/-- The opcode of MISC-MEM selects `decodeMiscMem`. -/
theorem decodeWord_of_miscMem (hop : opcodeField w = 0x0F#7) : decodeWord w = decodeMiscMem w := by
  simp only [decodeWord, hop]

theorem decodeWord_fence (hop : opcodeField w = 0x0F#7) (h3 : funct3Field w = 0#3) :
    decodeWord w = some (.fence (fmField w) (predField w) (succField w) (rs1Field w) (rdField w)) := by
  simp only [decodeWord_of_miscMem hop, decodeMiscMem, h3]

theorem decodeWord_fenceI (hop : opcodeField w = 0x0F#7) (h3 : funct3Field w = 1#3) :
    decodeWord w = some (.fenceI (immIField w) (rs1Field w) (rdField w)) := by
  simp only [decodeWord_of_miscMem hop, decodeMiscMem, h3]

end

end Sys2Proof

namespace Sys2Proof.Machine

/-! ### What a fence does (R209, R210) -/

section

variable (s : State) (rs1 rd : RegNum)

/-- No field of FENCE has a part in its meaning (R209). -/
theorem exec_fence (fm pred succ : BitVec 4) : exec (.fence fm pred succ rs1 rd) s = retire s.advancePc := rfl

/-- No field of FENCE.I has a part in its meaning (R210). -/
theorem exec_fenceI (imm : BitVec 12) : exec (.fenceI imm rs1 rd) s = retire s.advancePc := rfl

end

/-- An instruction whose whole meaning is to advance `pc` and retire changes only `pc` and the counters. -/
theorem advances_of_exec_eq_retire {i : Instr} {s : State} (h : exec i s = retire s.advancePc) :
    ∃ t, exec i s = .next t ∧ Advances s t (s.pc + 4#32) :=
  ⟨counterStep s.advancePc, h, advances_retired s (s.pc + 4#32)⟩

/-- Settles O38: both fences only retire with `pc` advanced, and within MISC-MEM `funct3` alone tells them apart. -/
theorem fencesOnlyAdvancePc : Obligations.FencesOnlyAdvancePc := by
  unfold Obligations.FencesOnlyAdvancePc
  refine ⟨fun s fm pred succ imm rs1 rd => ⟨?fence, ?fenceI⟩, fun _ => decodeWord_fence, fun _ => decodeWord_fenceI⟩
  case fence => exact advances_of_exec_eq_retire (exec_fence s rs1 rd fm pred succ)
  case fenceI => exact advances_of_exec_eq_retire (exec_fenceI s rs1 rd imm)

end Sys2Proof.Machine

/-!
PROOFS. M extension, the unsigned divisions (43_m_muldiv.md R226, R228): which words they are, and the quotient and the
remainder that they write.
-/

namespace Sys2Proof

/-! ### Decoding of OP with `funct7 = 0x01` (R129) -/

section

variable {w : Word}

/-- OP with `funct7 = 0x01` selects `decodeOpM`. -/
theorem decodeWord_of_opM (hop : opcodeField w = 0x33#7) (h7 : funct7Field w = 0x01#7) :
    decodeWord w = some (decodeOpM w) := by
  simp only [decodeWord_of_op hop, decodeOp, h7]

theorem decodeWord_divu (hop : opcodeField w = 0x33#7) (h7 : funct7Field w = 0x01#7) (h3 : funct3Field w = 5#3) :
    decodeWord w = some (.divu (rdField w) (rs1Field w) (rs2Field w)) := by
  simp only [decodeWord_of_opM hop h7, decodeOpM, h3]

/-- REMU is the arm of `decodeOpM` that remains after `funct3 = 0` to `6`. -/
theorem decodeWord_remu (hop : opcodeField w = 0x33#7) (h7 : funct7Field w = 0x01#7) (h3 : funct3Field w = 7#3) :
    decodeWord w = some (.remu (rdField w) (rs1Field w) (rs2Field w)) := by
  simp [decodeWord_of_opM hop h7, decodeOpM, h3]

end

end Sys2Proof

namespace Sys2Proof.Machine

/-! ### What an unsigned division writes (R226, R228) -/

section

variable (s : State) (rd rs1 rs2 : RegNum)

/-- A divisor of 0 is the only special case: there is no overflow (R226). -/
theorem exec_divu :
    exec (.divu rd rs1 rs2) s = writeResult rd (if (s.x rs2).toNat = 0 then 0xFFFFFFFF#32
      else BitVec.ofNat 32 ((s.x rs1).toNat / (s.x rs2).toNat)) s := rfl

/-- By 0 the remainder is the dividend (R228). -/
theorem exec_remu :
    exec (.remu rd rs1 rs2) s = writeResult rd (if (s.x rs2).toNat = 0 then s.x rs1
      else BitVec.ofNat 32 ((s.x rs1).toNat % (s.x rs2).toNat)) s := rfl

end

/-- Settles O24: DIVU and REMU end by `writeResult` with the value of `exec_divu` and `exec_remu`, and within OP with
`funct7 = 0x01` their `funct3` alone selects them. -/
theorem unsignedDivision : Obligations.UnsignedDivision := by
  unfold Obligations.UnsignedDivision
  refine ⟨?results, fun _ => decodeWord_divu, fun _ => decodeWord_remu⟩
  case results =>
    rintro s rd rs1 rs2 _ _ rfl rfl
    exact ⟨completes_of_exec_eq_writeResult (exec_divu s rd rs1 rs2),
      completes_of_exec_eq_writeResult (exec_remu s rd rs1 rs2)⟩

end Sys2Proof.Machine

/-!
PROOFS. Exceptions of the cycle's front (60_exceptions.md R301, R305): the misaligned `pc`, with where one can come from,
and the fetched word that is no instruction.
-/

namespace Sys2Proof.Machine

open State

/-! ### A word that is no instruction (R305) -/

/-- A fetch that answered a word that is no instruction ends the cycle, whichever memory or device answered. -/
theorem fetchDecode_illegal {f u : State} {w : Word} (h : memRead .word f.pc f = .ok w u) (hd : decodeWord w = none) :
    fetchDecode f = .ended (raiseException .illegalInstruction w u) := by
  simp only [fetchDecode, h, decodeStep_none u hd]

/-- The cycle of such a fetch raises IllegalInstruction with the word. -/
theorem step_illegal {s f u : State} {w : Word} (hf : FetchesIn s f) (h : memRead .word f.pc f = .ok w u)
    (hd : decodeWord w = none) : ∃ t, step s = .next t ∧ Raises u t 2#32 w := by
  rw [step_fetchesIn hf, fetchDecode_illegal h hd]
  exact raiseException_raises .illegalInstruction w u

/-- Settles O12: a fetch from RAM is a bus read that answers the word at `pc`, so both clauses are `step_illegal`. -/
theorem illegalWordTraps : Obligations.IllegalWordTraps := by
  unfold Obligations.IllegalWordTraps
  refine fun s f hf => ⟨?ram, ?bus⟩
  case ram =>
    intro h0 hram hd
    have hread : memRead .word f.pc f = .ok (wordAt f f.pc.toNat) f := memRead_ram hram h0
    exact step_illegal hf hread hd
  case bus => exact fun w u h hd => step_illegal hf h hd

/-! ### Where a misaligned `pc` comes from (R301)

Every operation that ends a cycle but the trap return leaves the machine halted or its `pc` at a multiple of 4. -/

/-- The machine has halted, or its next cycle passes the alignment test of R301. -/
def RunsAligned (t : State) : Prop := t.run = .running → t.pc.toNat % 4 = 0

/-- It is a matter of `run` and `pc` alone. -/
theorem RunsAligned.congr {t u : State} (h : RunsAligned t) (hp : u.pc = t.pc) (hr : u.run = t.run) : RunsAligned u := by
  rwa [RunsAligned, hp, hr]

theorem RunsAligned.of_halted {t : State} {why : HaltReason} (h : t.run = .halted why) : RunsAligned t := fun hr => by
  rw [h] at hr; cases hr

/-- The address of the next instruction, or an aligned target (R25, R180). -/
theorem target_aligned {pc target : Word} (ha : pc.toNat % 4 = 0) (h : target = pc + 4#32 ∨ target.toNat % 4 = 0) :
    target.toNat % 4 = 0 := by
  rcases h with rfl | h
  · rw [BitVec.toNat_add, BitVec.toNat_ofNat]
    omega
  · exact h

/-- A trap entry goes to `mtvec` with MODE 0, or halts (R313). -/
theorem runsAligned_trap (cause tval : Word) (s : State) : RunsAligned (trap cause tval s) := by
  have h := trap_entered cause tval s
  by_cases hv : VectorDirect s
  · intro _
    rw [(h.vectored hv).1]
    exact hv
  · exact .of_halted (h.unvectored hv).2

theorem runsAligned_counterStep {s : State} (h : RunsAligned s) : RunsAligned (counterStep s) :=
  h.congr (counterStep_pc s) (counterStep_run s)

/-- A raise ends at `mtvec` or halts (R309). -/
theorem runsAligned_raise {s t : State} {e : Exception} {tval : Word} (h : raiseException e tval s = .next t) :
    RunsAligned t := by
  unfold raiseException at h
  split at h <;> cases h
  · exact runsAligned_counterStep (runsAligned_trap _ _ s)
  · exact runsAligned_trap _ _ s

/-- Of the effects of an instruction at an aligned `pc`, the trap return alone can leave `pc` misaligned: at `mepc`. -/
theorem Effect.runsAligned {i : Instr} {s t : State} (he : Effect i s t) (ha : s.pc.toNat % 4 = 0) :
    RunsAligned t ∨ ((∃ rs2 rs1 rd, i = .mret rs2 rs1 rd) ∧ t.pc = s.csr 0x341) := by
  have hnext : (s.pc + 4#32).toNat % 4 = 0 := target_aligned ha (.inl rfl)
  cases he with
  | returned hi => exact .inr ⟨hi, counterStep_pc _⟩
  | raised e tval t h => exact .inl (runsAligned_raise h)
  | halted u why _ => exact .inl (.of_halted (halt_run u why))
  | csrHalted a new w k _ _ _ _ => exact .inl (runsAligned_trap _ _ w)
  | csrTook rd a v new w k _ _ _ _ _ =>
    exact .inl (runsAligned_counterStep ((runsAligned_trap _ _ w).congr (setX_pc ..) (setX_run ..)))
  | wrote rd v target _ hp => exact .inl fun _ => by simpa using target_aligned ha hp
  | moved target _ hp => exact .inl fun _ => by simpa using target_aligned ha hp
  | csrMasked rd a v new w _ _ _ hw =>
    have hpc : w.pc = s.pc + 4#32 := by rcases hw with rfl | rfl <;> rfl
    exact .inl fun _ => by rwa [counterStep_pc, setX_pc, hpc]
  | loaded | loadReserved | stored | storeConditional | amo | csrPlain =>
    exact .inl fun _ => by simpa only [counterStep_pc, setPc_pc, setX_pc, setCsr_pc, advancePc_pc] using hnext

/-- A fetch at an aligned `pc` hands on an aligned `pc`, or ends the cycle in a halt or at `mtvec`. -/
theorem fetchDecode_aligned {s : State} (ha : s.pc.toNat % 4 = 0) :
    (∀ i u, fetchDecode s = .run i u → u.pc.toNat % 4 = 0) ∧
    (∀ t, fetchDecode s = .ended (.next t) → RunsAligned t) := by
  rcases fetchDecode_cases s with ⟨i, u, e, hu⟩ | ⟨w, u, e, -⟩ | e | e | ⟨e, -⟩ <;> rw [e]
  · have hpc : u.pc = s.pc := by rcases hu with rfl | rfl <;> rfl
    simp [hpc, ha]
  · simpa using fun t => runsAligned_raise
  · simpa using fun t => runsAligned_raise
  · simpa using RunsAligned.of_halted (halt_run s .nullRead)
  · simp

/-- The front hands on an aligned `pc`, or ends the cycle in a halt or at `mtvec`. -/
theorem cycleFront_aligned (s : State) :
    (∀ i u, cycleFront s = .run i u → u.pc.toNat % 4 = 0) ∧
    (∀ t, cycleFront s = .ended (.next t) → RunsAligned t) := by
  rcases cycleFront_cases s with ⟨-, e⟩ | ⟨ha, -, e⟩ | ⟨-, k, -, ⟨-, e⟩ | ⟨-, -, e⟩ | ⟨hv, -, e⟩⟩ <;> rw [e]
  · simpa using fun t => runsAligned_raise
  · exact fetchDecode_aligned (by rwa [timerCheck_pc])
  · simpa using runsAligned_trap _ _ _
  · simpa using runsAligned_counterStep (runsAligned_trap _ _ _)
  · have hv' : VectorDirect (timerCheck s) := by rwa [VectorDirect, timerCheck_csr_other s (by decide)]
    refine fetchDecode_aligned ?_
    rw [((trap_entered k.cause 0#32 (timerCheck s)).vectored hv').1]
    exact hv'

/-- A misaligned `pc` raises from the state as it stands: neither the timer check nor an interrupt comes first. -/
theorem step_misaligned {s : State} (hr : s.run = .running) (h : s.pc.toNat % 4 ≠ 0) :
    ∃ t, step s = .next t ∧ Raises s t 0#32 s.pc := by
  have hfront : cycleFront s = .ended (raiseException .instructionAddressMisaligned s.pc s) := by
    rcases cycleFront_cases s with ⟨-, e⟩ | ⟨ha, -⟩ | ⟨ha, -⟩
    · exact e
    · exact absurd ha h
    · exact absurd ha h
  rw [step_running hr, hfront]
  exact raiseException_raises .instructionAddressMisaligned s.pc s

/-- A step ends halted, at an aligned `pc`, or by an MRET at `mepc`. -/
theorem step_runsAligned {s t : State} (h : step s = .next t) :
    RunsAligned t ∨ ∃ u rs2 rs1 rd, cycleFront s = .run (.mret rs2 rs1 rd) u ∧ u.csr 0x341 = t.pc := by
  obtain ⟨hrun, hended⟩ := cycleFront_aligned s
  rw [step_running (running_of_step h)] at h
  cases hf : cycleFront s with
  | ended o =>
    rw [hf] at h
    exact .inl (hended t (hf.trans (congrArg Front.ended h)))
  | run i u =>
    rw [hf] at h
    rcases (exec_effect h).runsAligned (hrun i u hf) with ht | ⟨⟨rs2, rs1, rd, rfl⟩, hpc⟩
    · exact .inl ht
    · exact .inr ⟨u, rs2, rs1, rd, rfl, hpc.symm⟩

/-- Settles O10: the front tests `pc` first (`step_misaligned`), and by cases on what a step can do only the trap return
sets a running machine's `pc` without a test (`step_runsAligned`). -/
theorem misalignedPc : Obligations.MisalignedPc := by
  unfold Obligations.MisalignedPc
  refine ⟨fun s => step_misaligned, fun s t h hr hm => ?_⟩
  exact (step_runsAligned h).resolve_left fun ht => hm (ht hr)

end Sys2Proof.Machine

/-!
PROOFS. The encoding (30_encoding.md): the decoder against the encoder, both ways, and against the opcode table of R132.
Three layers come first: which part of the decoder reads a word (R129), when each part refuses one (R133), and that each
part's answers encode to the word it read.
-/

namespace Sys2Proof

/-! ### Decoding by opcode (R129) -/

section

variable {w : Word}

theorem decodeWord_of_load (hop : opcodeField w = 0x03#7) : decodeWord w = decodeLoad w := by
  simp only [decodeWord, hop]

theorem decodeWord_of_store (hop : opcodeField w = 0x23#7) : decodeWord w = decodeStore w := by
  simp only [decodeWord, hop]

theorem decodeWord_of_amo (hop : opcodeField w = 0x2F#7) : decodeWord w = decodeAmo w := by
  simp only [decodeWord, hop]

theorem decodeWord_of_branch (hop : opcodeField w = 0x63#7) : decodeWord w = decodeBranch w := by
  simp only [decodeWord, hop]

theorem decodeWord_jalr (hop : opcodeField w = 0x67#7) :
    decodeWord w = if funct3Field w = 0#3 then some (.jalr (rdField w) (rs1Field w) (immIField w)) else none := by
  simp only [decodeWord, hop]

theorem decodeWord_jal (hop : opcodeField w = 0x6F#7) : decodeWord w = some (.jal (rdField w) (immJField w)) := by
  simp only [decodeWord, hop]

theorem decodeWord_of_system (hop : opcodeField w = 0x73#7) : decodeWord w = decodeSystem w := by
  simp only [decodeWord, hop]

/-- The opcodes in use (R129). -/
def usedOpcodes : List (BitVec 7) :=
  [0x03#7, 0x0F#7, 0x13#7, 0x17#7, 0x23#7, 0x2F#7, 0x33#7, 0x37#7, 0x63#7, 0x67#7, 0x6F#7, 0x73#7]

theorem decodeWord_of_unused (h : opcodeField w ∉ usedOpcodes) : decodeWord w = none := by
  simp only [usedOpcodes, List.mem_cons, List.not_mem_nil, or_false, not_or] at h
  unfold decodeWord
  split <;> simp_all

end

/-- `funct7` is the upper seven bits of `imm12`. -/
theorem funct7Field_eq (w : Word) : funct7Field w = (csrField w).extractLsb' 5 7 := by
  rw [csrField_split, field_high _ _ (Nat.le_refl 5), field_all]

/-- MRET's `funct7` is that of no ECALL record (R280). -/
theorem decodeSystem0_mret {w : Word} (h7 : funct7Field w = 0x18#7) :
    decodeSystem0 w = some (.mret (rs2Field w) (rs1Field w) (rdField w)) := by
  have hne : ∀ c : CsrNum, c.extractLsb' 5 7 ≠ 0x18#7 → csrField w ≠ c := by
    rintro _ hc rfl
    exact hc (funct7Field_eq w ▸ h7)
  rw [decodeSystem0, if_neg (hne 0x000#12 (by decide)), if_neg (hne 0x001#12 (by decide)), if_pos h7]

/-! ### Decoding what was encoded (R122) -/

theorem decodeWord_encode (i : Instr) (h : i.wellFormed = true) : decodeWord (encode i) = some i := by
  cases i
  case lui | auipc => simp [encode, decodeWord]
  case jal => simp [encode, decodeWord, immJField_encJ _ _ h]
  case jalr => simp [encode, decodeWord]
  case lb | lh | lw | lbu | lhu => simp [encode, decodeWord_of_load, decodeLoad]
  case sb | sh | sw => simp [encode, decodeWord_of_store, decodeStore]
  case beq | bne | blt | bge | bltu | bgeu => simp [encode, decodeWord_of_branch, decodeBranch, immBField_encB _ _ _ _ h]
  case addi | slti | sltiu | xori | ori | andi | slli | srli | srai => simp [encode, decodeWord_of_opImm, decodeOpImm]
  case add | sll | slt | sltu | xor | srl | or | and => simp [encode, decodeWord_of_opBase, decodeOpBase]
  case sub | sra => simp [encode, decodeWord_of_opAlt, decodeOpAlt]
  case mul | mulh | mulhsu | mulhu | div | divu | rem | remu => simp [encode, decodeWord_of_opM, decodeOpM]
  case fence fm pred succ rs1 rd =>
    rw [decodeWord_fence (opcodeField_fence ..) (funct3Field_fence ..)]
    simp only [fmField_fence, predField_fence, succField_fence, rs1Field_fence, rdField_fence]
  case fenceI => simp [encode, decodeWord_of_miscMem, decodeMiscMem]
  case lrW | scW | amoswapW | amoaddW | amoxorW | amoandW | amoorW | amominW | amomaxW | amominuW | amomaxuW =>
    simp [encode, decodeWord_of_amo, decodeAmo]
  case csrrw | csrrs | csrrc => simp [encode, encCsr, decodeWord_of_system, decodeSystem]
  case csrrwi | csrrsi | csrrci => simp [encode, decodeWord_of_system, decodeSystem]
  case ecall | ebreak => simp [encode, decodeWord_of_system, decodeSystem, decodeSystem0]
  case mret => simp [encode, decodeWord_of_system, decodeSystem, decodeSystem0_mret]

theorem tableWord_toNat (w : Word) : tableWord 32 w.toNat = w := by
  rw [tableWord, Nat.mod_eq_of_lt w.isLt, BitVec.ofNat_toNat, BitVec.setWidth_eq]

/-- Settles O1: the word of each constructor has the fields that select its constructor (`decodeWord_encode`), and the bytes
of a word are read back as the word (`decode_bytesOfWord`). -/
theorem encodeThenDecode : Obligations.EncodeThenDecode := by
  unfold Obligations.EncodeThenDecode
  intro i rest h
  have hw := decodeWord_encode i h
  refine ⟨hw, ?bytes, ?table⟩
  case bytes => rw [decode_bytesOfWord, hw]
  case table => rw [decodeTableWord, tableWord_toNat, ← List.append_nil (bytesOfWord _), decode_bytesOfWord, hw]

/-! ### Encoding what was decoded (R131)

For each part of the decoder, of a word with its opcode: the arm taken fixes the other key fields, and the word is its fields
put together. -/

/-- The word is that of the instruction, which is one. -/
def Encodes (i : Instr) (w : Word) : Prop := i.wellFormed = true ∧ encode i = w

section

variable {w : Word} {i : Instr}

/-- The value of `funct3` that a `match` leaves for its last arm. -/
theorem funct3_eq_seven {f : BitVec 3} (h0 : f ≠ 0#3) (h1 : f ≠ 1#3) (h2 : f ≠ 2#3) (h3 : f ≠ 3#3) (h4 : f ≠ 4#3)
    (h5 : f ≠ 5#3) (h6 : f ≠ 6#3) : f = 7#3 := by
  have hlt := f.isLt
  simp only [ne_eq, ← BitVec.toNat_inj, BitVec.toNat_ofNat] at *
  omega

theorem encI_of_fields {f3 : BitVec 3} {op : BitVec 7} (h3 : funct3Field w = f3) (hop : opcodeField w = op) :
    encI (immIField w) (rs1Field w) f3 (rdField w) op = w := by
  subst h3 hop
  exact encI_fields w

theorem encR_of_fields {f7 : BitVec 7} {f3 : BitVec 3} {op : BitVec 7} (h7 : funct7Field w = f7)
    (h3 : funct3Field w = f3) (hop : opcodeField w = op) :
    encR f7 (rs2Field w) (rs1Field w) f3 (rdField w) op = w := by
  subst h7 h3 hop
  exact encR_fields w

theorem encShift_of_fields {f7 : BitVec 7} {f3 : BitVec 3} (h7 : funct7Field w = f7) (h3 : funct3Field w = f3)
    (hop : opcodeField w = 0x13#7) : encShift f7 (shamtField w) (rs1Field w) f3 (rdField w) = w := by
  subst h7 h3
  exact encShift_fields w hop

theorem encU_of_fields {op : BitVec 7} (hop : opcodeField w = op) : encU (immUField w) (rdField w) op = w := by
  subst hop
  exact encU_fields w

theorem encS_of_fields {f3 : BitVec 3} (h3 : funct3Field w = f3) (hop : opcodeField w = 0x23#7) :
    encS (immSField w) (rs2Field w) (rs1Field w) f3 = w := by
  subst h3
  exact encS_fields w hop

theorem encB_of_fields {f3 : BitVec 3} (h3 : funct3Field w = f3) (hop : opcodeField w = 0x63#7) :
    encB (immBField w) (rs2Field w) (rs1Field w) f3 = w := by
  subst h3
  exact encB_fields w hop

theorem encAmo_of_fields {f5 : BitVec 5} (h5 : funct5Field w = f5) (h3 : funct3Field w = 2#3)
    (hop : opcodeField w = 0x2F#7) :
    encAmo f5 (aqField w) (rlField w) (rs2Field w) (rs1Field w) (rdField w) = w := by
  subst h5
  exact encAmo_fields w h3 hop

theorem encCsr_of_fields {f3 : BitVec 3} (h3 : funct3Field w = f3) (hop : opcodeField w = 0x73#7) :
    encCsr (csrField w) (rs1Field w) f3 (rdField w) = w := by
  subst h3
  exact encCsr_fields w hop

theorem encCsrImm_of_fields {f3 : BitVec 3} (h3 : funct3Field w = f3) (hop : opcodeField w = 0x73#7) :
    encCsrImm (csrField w) (uimmField w) f3 (rdField w) = w := by
  subst h3
  exact encCsrImm_fields w hop

theorem encodes_load (hop : opcodeField w = 0x03#7) (h : decodeLoad w = some i) : Encodes i w := by
  unfold decodeLoad at h
  split at h <;> cases h
  all_goals next h3 => exact ⟨rfl, encI_of_fields h3 hop⟩

theorem encodes_miscMem (hop : opcodeField w = 0x0F#7) (h : decodeMiscMem w = some i) : Encodes i w := by
  unfold decodeMiscMem at h
  split at h <;> cases h
  · next h3 => exact ⟨rfl, encFence_fields w h3 hop⟩
  · next h3 => exact ⟨rfl, encI_of_fields h3 hop⟩

theorem encodes_opImm (hop : opcodeField w = 0x13#7) (h : decodeOpImm w = some i) : Encodes i w := by
  unfold decodeOpImm at h
  split at h
  case h_2 h3 =>
    split at h <;> cases h
    next h7 => exact ⟨rfl, encShift_of_fields h7 h3 hop⟩
  case h_6 h3 =>
    split at h
    · next h7 => cases h; exact ⟨rfl, encShift_of_fields h7 h3 hop⟩
    · split at h <;> cases h
      next h7 => exact ⟨rfl, encShift_of_fields h7 h3 hop⟩
  case h_8 h0 h1 h2 h3 h4 h5 h6 =>
    cases h
    exact ⟨rfl, encI_of_fields (funct3_eq_seven h0 h1 h2 h3 h4 h5 h6) hop⟩
  all_goals next h3 => cases h; exact ⟨rfl, encI_of_fields h3 hop⟩

theorem encodes_store (hop : opcodeField w = 0x23#7) (h : decodeStore w = some i) : Encodes i w := by
  unfold decodeStore at h
  split at h <;> cases h
  all_goals next h3 => exact ⟨rfl, encS_of_fields h3 hop⟩

theorem encodes_branch (hop : opcodeField w = 0x63#7) (h : decodeBranch w = some i) : Encodes i w := by
  unfold decodeBranch at h
  split at h <;> cases h
  all_goals next h3 => exact ⟨branchOffsetOk_immBField w, encB_of_fields h3 hop⟩

theorem encodes_amo (hop : opcodeField w = 0x2F#7) (h : decodeAmo w = some i) : Encodes i w := by
  unfold decodeAmo at h
  split at h
  · next h3 =>
    split at h <;> cases h
    all_goals next h5 => exact ⟨rfl, encAmo_of_fields h5 h3 hop⟩
  · cases h

theorem encodes_opBase (hop : opcodeField w = 0x33#7) (h7 : funct7Field w = 0x00#7) : Encodes (decodeOpBase w) w := by
  unfold decodeOpBase
  split
  case h_8 h0 h1 h2 h3 h4 h5 h6 => exact ⟨rfl, encR_of_fields h7 (funct3_eq_seven h0 h1 h2 h3 h4 h5 h6) hop⟩
  all_goals next h3 => exact ⟨rfl, encR_of_fields h7 h3 hop⟩

theorem encodes_opM (hop : opcodeField w = 0x33#7) (h7 : funct7Field w = 0x01#7) : Encodes (decodeOpM w) w := by
  unfold decodeOpM
  split
  case h_8 h0 h1 h2 h3 h4 h5 h6 => exact ⟨rfl, encR_of_fields h7 (funct3_eq_seven h0 h1 h2 h3 h4 h5 h6) hop⟩
  all_goals next h3 => exact ⟨rfl, encR_of_fields h7 h3 hop⟩

theorem encodes_opAlt (hop : opcodeField w = 0x33#7) (h7 : funct7Field w = 0x20#7) (h : decodeOpAlt w = some i) :
    Encodes i w := by
  unfold decodeOpAlt at h
  split at h <;> cases h
  all_goals next h3 => exact ⟨rfl, encR_of_fields h7 h3 hop⟩

theorem encodes_op (hop : opcodeField w = 0x33#7) (h : decodeOp w = some i) : Encodes i w := by
  unfold decodeOp at h
  split at h
  · next h7 => cases h; exact encodes_opBase hop h7
  · next h7 => cases h; exact encodes_opM hop h7
  · next h7 => exact encodes_opAlt hop h7 h
  · cases h

theorem encodes_system0 (hop : opcodeField w = 0x73#7) (h3 : funct3Field w = 0#3) (h : decodeSystem0 w = some i) :
    Encodes i w := by
  unfold decodeSystem0 at h
  split at h
  · next hc => cases h; exact ⟨rfl, (congrArg (encI · _ _ _ _) hc).symm.trans (encI_of_fields h3 hop)⟩
  split at h
  · next hc => cases h; exact ⟨rfl, (congrArg (encI · _ _ _ _) hc).symm.trans (encI_of_fields h3 hop)⟩
  split at h <;> cases h
  next h7 => exact ⟨rfl, encR_of_fields h7 h3 hop⟩

theorem encodes_system (hop : opcodeField w = 0x73#7) (h : decodeSystem w = some i) : Encodes i w := by
  unfold decodeSystem at h
  split at h
  case h_1 h3 => exact encodes_system0 hop h3 h
  case h_2 h3 | h_3 h3 | h_4 h3 => cases h; exact ⟨rfl, encCsr_of_fields h3 hop⟩
  case h_5 h3 | h_6 h3 | h_7 h3 => cases h; exact ⟨rfl, encCsrImm_of_fields h3 hop⟩
  case h_8 => cases h

theorem encodes_of_decodeWord (h : decodeWord w = some i) : Encodes i w := by
  unfold decodeWord at h
  split at h
  · next hop => exact encodes_load hop h
  · next hop => exact encodes_miscMem hop h
  · next hop => exact encodes_opImm hop h
  · next hop => cases h; exact ⟨rfl, encU_of_fields hop⟩
  · next hop => exact encodes_store hop h
  · next hop => exact encodes_amo hop h
  · next hop => exact encodes_op hop h
  · next hop => cases h; exact ⟨rfl, encU_of_fields hop⟩
  · next hop => exact encodes_branch hop h
  · next hop =>
    split at h <;> cases h
    next h3 => exact ⟨rfl, encI_of_fields h3 hop⟩
  · next hop => cases h; exact ⟨jumpOffsetOk_immJField w, encJ_fields w hop⟩
  · next hop => exact encodes_system hop h
  · cases h

end

/-- Settles O2: the key fields of the arm taken and the operand fields it reads are together the whole word, in every format
(`encodes_of_decodeWord`). -/
theorem decodeThenEncode : Obligations.DecodeThenEncode := by
  unfold Obligations.DecodeThenEncode
  exact fun w i => encodes_of_decodeWord

end Sys2Proof

/-!
PROOFS. What is no instruction (30_encoding.md R133, R135), and the opcode table of R132. First, for each part of the
decoder, exactly the key fields that it refuses.
-/

namespace Sys2Proof

/-! ### What each part of the decoder refuses (R133) -/

section

variable {w : Word}

theorem funct3_cases (f : BitVec 3) :
    f = 0#3 ∨ f = 1#3 ∨ f = 2#3 ∨ f = 3#3 ∨ f = 4#3 ∨ f = 5#3 ∨ f = 6#3 ∨ f = 7#3 := by
  revert f
  decide

theorem load_illegal_iff (hop : opcodeField w = 0x03#7) : decodeWord w = none ↔ funct3Field w ∈ [3#3, 6#3, 7#3] := by
  rw [decodeWord_of_load hop]
  rcases funct3_cases (funct3Field w) with h | h | h | h | h | h | h | h <;> simp [decodeLoad, h]

theorem miscMem_illegal_iff (hop : opcodeField w = 0x0F#7) : decodeWord w = none ↔ 2 ≤ (funct3Field w).toNat := by
  rw [decodeWord_of_miscMem hop]
  rcases funct3_cases (funct3Field w) with h | h | h | h | h | h | h | h <;> simp [decodeMiscMem, h]

theorem opImm_illegal_iff (hop : opcodeField w = 0x13#7) :
    decodeWord w = none ↔ funct3Field w = 1#3 ∧ funct7Field w ≠ 0x00#7 ∨
      funct3Field w = 5#3 ∧ funct7Field w ∉ [0x00#7, 0x20#7] := by
  by_cases h5 : funct3Field w = 5#3
  · rw [decodeWord_shiftRightImm hop h5]
    split_ifs <;> simp_all
  · rw [decodeWord_of_opImm hop]
    rcases funct3_cases (funct3Field w) with h | h | h | h | h | h | h | h <;> simp_all [decodeOpImm]

theorem store_illegal_iff (hop : opcodeField w = 0x23#7) : decodeWord w = none ↔ 3 ≤ (funct3Field w).toNat := by
  rw [decodeWord_of_store hop]
  rcases funct3_cases (funct3Field w) with h | h | h | h | h | h | h | h <;> simp [decodeStore, h]

/-- The values of `funct5` in use (R129). -/
def usedFunct5 : List (BitVec 5) :=
  [0b00010#5, 0b00011#5, 0b00001#5, 0b00000#5, 0b00100#5, 0b01100#5, 0b01000#5, 0b10000#5, 0b10100#5, 0b11000#5, 0b11100#5]

theorem amo_illegal_iff (hop : opcodeField w = 0x2F#7) :
    decodeWord w = none ↔ funct3Field w ≠ 2#3 ∨ funct5Field w ∉ usedFunct5 := by
  rw [decodeWord_of_amo hop, decodeAmo]
  split
  · next h3 => split <;> simp_all [usedFunct5]
  · next h3 => simp [h3]

theorem op_illegal_iff (hop : opcodeField w = 0x33#7) :
    decodeWord w = none ↔ funct7Field w ∉ [0x00#7, 0x01#7, 0x20#7] ∨
      funct7Field w = 0x20#7 ∧ funct3Field w ∉ [0#3, 5#3] := by
  rw [decodeWord_of_op hop, decodeOp]
  split
  · next h7 => simp [h7]
  · next h7 => simp [h7]
  · next h7 => rcases funct3_cases (funct3Field w) with h | h | h | h | h | h | h | h <;> simp [decodeOpAlt, h, h7]
  · next h0 h1 h20 => simp_all

theorem branch_illegal_iff (hop : opcodeField w = 0x63#7) : decodeWord w = none ↔ funct3Field w ∈ [2#3, 3#3] := by
  rw [decodeWord_of_branch hop]
  rcases funct3_cases (funct3Field w) with h | h | h | h | h | h | h | h <;> simp [decodeBranch, h]

theorem jalr_illegal_iff (hop : opcodeField w = 0x67#7) : decodeWord w = none ↔ funct3Field w ≠ 0#3 := by
  rw [decodeWord_jalr hop]
  split <;> simp_all

theorem decodeSystem0_eq_none_iff :
    decodeSystem0 w = none ↔ csrField w ≠ 0x000#12 ∧ csrField w ≠ 0x001#12 ∧ funct7Field w ≠ 0x18#7 := by
  unfold decodeSystem0
  split_ifs <;> simp_all

theorem system_illegal_iff (hop : opcodeField w = 0x73#7) :
    decodeWord w = none ↔ funct3Field w = 4#3 ∨
      funct3Field w = 0#3 ∧ csrField w ≠ 0x000#12 ∧ csrField w ≠ 0x001#12 ∧ funct7Field w ≠ 0x18#7 := by
  rw [decodeWord_of_system hop]
  rcases funct3_cases (funct3Field w) with h | h | h | h | h | h | h | h <;>
    simp [decodeSystem, decodeSystem0_eq_none_iff, h]

end

/-- The opcodes in use all end in 11. -/
theorem usedOpcodes_mod_four : ∀ op ∈ usedOpcodes, op.toNat % 4 = 3 := by decide

theorem opcodeField_toNat (w : Word) : (opcodeField w).toNat = w.toNat % 128 := by
  rw [opcodeField, BitVec.extractLsb'_toNat, Nat.shiftRight_zero]

/-- Settles O4: the low two bits are those of the opcode, and every other family is one of the refusals of the `_illegal_iff`
lemmas. -/
theorem illegalWordFamilies : Obligations.IllegalWordFamilies := by
  unfold Obligations.IllegalWordFamilies
  intro w
  refine ⟨?lowBits, decodeWord_of_unused, fun h => (load_illegal_iff h).2, fun h => (store_illegal_iff h).2,
    fun h => (branch_illegal_iff h).2, fun h => (jalr_illegal_iff h).2, fun h => (miscMem_illegal_iff h).2,
    fun h h3 h7 => (opImm_illegal_iff h).2 (.inl ⟨h3, h7⟩), fun h h3 h7 => (opImm_illegal_iff h).2 (.inr ⟨h3, h7⟩),
    fun h h7 => (op_illegal_iff h).2 (.inl h7), fun h h7 h3 => (op_illegal_iff h).2 (.inr ⟨h7, h3⟩),
    fun h h3 => (amo_illegal_iff h).2 (.inl h3), fun h h5 => (amo_illegal_iff h).2 (.inr h5),
    fun h h3 => (system_illegal_iff h).2 (.inl h3), ?systemFunct7, ?ecallRecord⟩
  case lowBits =>
    intro hw
    refine decodeWord_of_unused fun hop => hw ?_
    have h := usedOpcodes_mod_four _ hop
    rw [opcodeField_toNat] at h
    omega
  case systemFunct7 =>
    intro hop h3 h7
    rw [funct7Field_eq] at h7
    refine (system_illegal_iff hop).2 (.inr ⟨h3, ?_, ?_, ?_⟩)
    · exact fun hc => h7 (by rw [hc]; decide)
    · exact fun hc => h7 (by rw [hc]; decide)
    · exact fun hc => h7 (by rw [← funct7Field_eq, hc]; decide)
  case ecallRecord =>
    intro hop h3 h7 hc
    refine (system_illegal_iff hop).2 (.inr ⟨h3, ?_, ?_, by rw [h7]; decide⟩) <;>
    · intro he
      rw [he] at hc
      exact absurd hc (by decide)

/-! ### The opcode table (R132) -/

/-- Every pattern lies in its mask, so a row's test is an equality of key fields. -/
theorem row_pattern_masked : ∀ r ∈ opcodeTable, r.pattern &&& r.mask = r.pattern := by decide +kernel

/-- Two different rows differ at a bit that both look at. -/
theorem rows_disjoint :
    ∀ r ∈ opcodeTable, ∀ q ∈ opcodeTable, r.pattern &&& q.mask = q.pattern &&& r.mask → r = q := by decide +kernel

theorem row_mnemonic_inj : ∀ r ∈ opcodeTable, ∀ q ∈ opcodeTable, r.mnemonic = q.mnemonic → r = q := by decide +kernel

/-- No word matches two rows. -/
theorem row_of_match_unique {r q : OpcodeRow} {w : Word} (hr : r ∈ opcodeTable) (hq : q ∈ opcodeTable)
    (hrw : r.matchesWord w = true) (hqw : q.matchesWord w = true) : r = q := by
  simp only [OpcodeRow.matchesWord, beq_iff_eq] at hrw hqw
  refine rows_disjoint r hr q hq ?_
  rw [← hrw, ← hqw, BitVec.and_assoc, BitVec.and_assoc, BitVec.and_comm r.mask]

/-- The word of every instruction matches the row of its mnemonic. -/
theorem encode_matches_row : ∀ i : Instr, Laws.TableRow.Statement i
  | .lui .. => Laws.TableRow.lui ..
  | .auipc .. => Laws.TableRow.auipc ..
  | .addi .. => Laws.TableRow.addi ..
  | .slti .. => Laws.TableRow.slti ..
  | .sltiu .. => Laws.TableRow.sltiu ..
  | .xori .. => Laws.TableRow.xori ..
  | .ori .. => Laws.TableRow.ori ..
  | .andi .. => Laws.TableRow.andi ..
  | .slli .. => Laws.TableRow.slli ..
  | .srli .. => Laws.TableRow.srli ..
  | .srai .. => Laws.TableRow.srai ..
  | .add .. => Laws.TableRow.add ..
  | .sub .. => Laws.TableRow.sub ..
  | .sll .. => Laws.TableRow.sll ..
  | .slt .. => Laws.TableRow.slt ..
  | .sltu .. => Laws.TableRow.sltu ..
  | .xor .. => Laws.TableRow.xor ..
  | .srl .. => Laws.TableRow.srl ..
  | .sra .. => Laws.TableRow.sra ..
  | .or .. => Laws.TableRow.or ..
  | .and .. => Laws.TableRow.and ..
  | .jal .. => Laws.TableRow.jal ..
  | .jalr .. => Laws.TableRow.jalr ..
  | .beq .. => Laws.TableRow.beq ..
  | .bne .. => Laws.TableRow.bne ..
  | .blt .. => Laws.TableRow.blt ..
  | .bge .. => Laws.TableRow.bge ..
  | .bltu .. => Laws.TableRow.bltu ..
  | .bgeu .. => Laws.TableRow.bgeu ..
  | .lb .. => Laws.TableRow.lb ..
  | .lh .. => Laws.TableRow.lh ..
  | .lw .. => Laws.TableRow.lw ..
  | .lbu .. => Laws.TableRow.lbu ..
  | .lhu .. => Laws.TableRow.lhu ..
  | .sb .. => Laws.TableRow.sb ..
  | .sh .. => Laws.TableRow.sh ..
  | .sw .. => Laws.TableRow.sw ..
  | .fence .. => Laws.TableRow.fence ..
  | .fenceI .. => Laws.TableRow.fenceI ..
  | .mul .. => Laws.TableRow.mul ..
  | .mulh .. => Laws.TableRow.mulh ..
  | .mulhsu .. => Laws.TableRow.mulhsu ..
  | .mulhu .. => Laws.TableRow.mulhu ..
  | .div .. => Laws.TableRow.div ..
  | .divu .. => Laws.TableRow.divu ..
  | .rem .. => Laws.TableRow.rem ..
  | .remu .. => Laws.TableRow.remu ..
  | .lrW .. => Laws.TableRow.lrW ..
  | .scW .. => Laws.TableRow.scW ..
  | .amoswapW .. => Laws.TableRow.amoswapW ..
  | .amoaddW .. => Laws.TableRow.amoaddW ..
  | .amoxorW .. => Laws.TableRow.amoxorW ..
  | .amoandW .. => Laws.TableRow.amoandW ..
  | .amoorW .. => Laws.TableRow.amoorW ..
  | .amominW .. => Laws.TableRow.amominW ..
  | .amomaxW .. => Laws.TableRow.amomaxW ..
  | .amominuW .. => Laws.TableRow.amominuW ..
  | .amomaxuW .. => Laws.TableRow.amomaxuW ..
  | .csrrw .. => Laws.TableRow.csrrw ..
  | .csrrs .. => Laws.TableRow.csrrs ..
  | .csrrc .. => Laws.TableRow.csrrc ..
  | .csrrwi .. => Laws.TableRow.csrrwi ..
  | .csrrsi .. => Laws.TableRow.csrrsi ..
  | .csrrci .. => Laws.TableRow.csrrci ..
  | .ecall .. => Laws.TableRow.ecall ..
  | .ebreak .. => Laws.TableRow.ebreak ..
  | .mret .. => Laws.TableRow.mret ..

/-- The opcodes that select an instruction alone. -/
def LegalByOpcode (op : BitVec 7) : Prop := op ∈ [0x17#7, 0x37#7, 0x6F#7]

/-- The values of opcode and `funct3` that select an instruction, or a CSR instruction of any number. -/
def LegalByFunct3 (op : BitVec 7) (f3 : BitVec 3) : Prop :=
  op = 0x03#7 ∧ f3 ∉ [3#3, 6#3, 7#3] ∨ op = 0x0F#7 ∧ ¬ 2 ≤ f3.toNat ∨ op = 0x13#7 ∧ f3 ≠ 1#3 ∧ f3 ≠ 5#3 ∨
    op = 0x23#7 ∧ ¬ 3 ≤ f3.toNat ∨ op = 0x63#7 ∧ f3 ∉ [2#3, 3#3] ∨ op = 0x67#7 ∧ f3 = 0#3 ∨
    op = 0x73#7 ∧ f3 ≠ 0#3 ∧ f3 ≠ 4#3

/-- The values of opcode, `funct3` and `funct7` that do: the shifts by an immediate, OP, MRET. -/
def LegalByFunct7 (op : BitVec 7) (f3 : BitVec 3) (f7 : BitVec 7) : Prop :=
  op = 0x13#7 ∧ (f3 = 1#3 ∧ f7 = 0x00#7 ∨ f3 = 5#3 ∧ (f7 = 0x00#7 ∨ f7 = 0x20#7)) ∨
    op = 0x33#7 ∧ (f7 = 0x00#7 ∨ f7 = 0x01#7 ∨ f7 = 0x20#7 ∧ f3 ∈ [0#3, 5#3]) ∨
    op = 0x73#7 ∧ f3 = 0#3 ∧ f7 = 0x18#7

section

variable {w : Word}

theorem decodeWord_ne_none_of_opcode (h : LegalByOpcode (opcodeField w)) : decodeWord w ≠ none := by
  simp only [LegalByOpcode, List.mem_cons, List.not_mem_nil, or_false] at h
  rcases h with hop | hop | hop
  · simp [decodeWord_auipc hop]
  · simp [decodeWord_lui hop]
  · simp [decodeWord_jal hop]

theorem decodeWord_ne_none_of_funct3 (h : LegalByFunct3 (opcodeField w) (funct3Field w)) : decodeWord w ≠ none := by
  rcases h with ⟨hop, h3⟩ | ⟨hop, h3⟩ | ⟨hop, h3⟩ | ⟨hop, h3⟩ | ⟨hop, h3⟩ | ⟨hop, h3⟩ | ⟨hop, h3⟩
  · exact mt (load_illegal_iff hop).1 h3
  · exact mt (miscMem_illegal_iff hop).1 h3
  · exact mt (opImm_illegal_iff hop).1 (by simp [h3])
  · exact mt (store_illegal_iff hop).1 h3
  · exact mt (branch_illegal_iff hop).1 h3
  · exact mt (jalr_illegal_iff hop).1 (not_not_intro h3)
  · exact mt (system_illegal_iff hop).1 (by simp [h3])

theorem decodeWord_ne_none_of_funct7 (h : LegalByFunct7 (opcodeField w) (funct3Field w) (funct7Field w)) :
    decodeWord w ≠ none := by
  rcases h with ⟨hop, ⟨h3, h7⟩ | ⟨h3, h7 | h7⟩⟩ | ⟨hop, h7 | h7 | ⟨h7, h3⟩⟩ | ⟨hop, h3, h7⟩
  · exact mt (opImm_illegal_iff hop).1 (by simp [h3, h7])
  · exact mt (opImm_illegal_iff hop).1 (by simp [h3, h7])
  · exact mt (opImm_illegal_iff hop).1 (by simp [h3, h7])
  · exact mt (op_illegal_iff hop).1 (by simp [h7])
  · exact mt (op_illegal_iff hop).1 (by simp [h7])
  · exact mt (op_illegal_iff hop).1 (by simp [h7, h3])
  · exact mt (system_illegal_iff hop).1 (by simp [h3, h7])

theorem decodeWord_ne_none_of_funct5 (hop : opcodeField w = 0x2F#7) (h3 : funct3Field w = 2#3)
    (h5 : funct5Field w ∈ usedFunct5) : decodeWord w ≠ none :=
  mt (amo_illegal_iff hop).1 (by simp [h3, h5])

theorem decodeWord_ne_none_of_imm12 (hop : opcodeField w = 0x73#7) (h3 : funct3Field w = 0#3)
    (hc : csrField w = 0x000#12 ∨ csrField w = 0x001#12) : decodeWord w ≠ none := by
  refine mt (system_illegal_iff hop).1 ?_
  rcases hc with hc | hc <;> simp [h3, hc]

end

/-- The mask of a row is one of five, and the key fields it looks at are legal. -/
def OpcodeRow.Legal (r : OpcodeRow) : Prop :=
  (r.mask = 0x0000007F#32 ∧ LegalByOpcode (opcodeField r.pattern)) ∨
  (r.mask = 0x0000707F#32 ∧ LegalByFunct3 (opcodeField r.pattern) (funct3Field r.pattern)) ∨
  (r.mask = 0xFE00707F#32 ∧ LegalByFunct7 (opcodeField r.pattern) (funct3Field r.pattern) (funct7Field r.pattern)) ∨
  (r.mask = 0xF800707F#32 ∧
    opcodeField r.pattern = 0x2F#7 ∧ funct3Field r.pattern = 2#3 ∧ funct5Field r.pattern ∈ usedFunct5) ∨
  (r.mask = 0xFFF0707F#32 ∧ opcodeField r.pattern = 0x73#7 ∧ funct3Field r.pattern = 0#3 ∧
    (csrField r.pattern = 0x000#12 ∨ csrField r.pattern = 0x001#12))

theorem row_legal : ∀ r ∈ opcodeTable, r.Legal := by
  unfold OpcodeRow.Legal LegalByOpcode LegalByFunct3 LegalByFunct7
  decide +kernel

/-- A word that matches a row is an instruction: it has the key fields of the row. -/
theorem decodeWord_ne_none_of_match {r : OpcodeRow} {w : Word} (hr : r ∈ opcodeTable) (h : r.matchesWord w = true) :
    decodeWord w ≠ none := by
  rw [matchesWord_iff r w (row_pattern_masked r hr)] at h
  rcases row_legal r hr with ⟨hm, hl⟩ | ⟨hm, hl⟩ | ⟨hm, hl⟩ | ⟨hm, hop, h3, h5⟩ | ⟨hm, hop, h3, hc⟩ <;> rw [hm] at h
  · rw [← (mask_opcode _ _).1 h] at hl
    exact decodeWord_ne_none_of_opcode hl
  · obtain ⟨eop, e3⟩ := (mask_funct3 _ _).1 h
    rw [← eop, ← e3] at hl
    exact decodeWord_ne_none_of_funct3 hl
  · obtain ⟨eop, e3, e7⟩ := (mask_funct7 _ _).1 h
    rw [← eop, ← e3, ← e7] at hl
    exact decodeWord_ne_none_of_funct7 hl
  · obtain ⟨eop, e3, e5⟩ := (mask_funct5 _ _).1 h
    exact decodeWord_ne_none_of_funct5 (eop.trans hop) (e3.trans h3) (e5 ▸ h5)
  · obtain ⟨eop, e3, ec⟩ := (mask_imm12 _ _).1 h
    exact decodeWord_ne_none_of_imm12 (eop.trans hop) (e3.trans h3) (ec ▸ hc)

/-- Settles O3: the word an instruction came from is its encoding, which matches the row of its mnemonic and no other; and a
word that matches a row is an instruction (`decodeWord_ne_none_of_match`). -/
theorem decoderIsTheOpcodeTable : Obligations.DecoderIsTheOpcodeTable := by
  unfold Obligations.DecoderIsTheOpcodeTable
  intro w
  have row : ∀ i, decodeWord w = some i → ∃ r ∈ opcodeTable, r.mnemonic = i.mnemonic ∧ r.matchesWord w = true := by
    intro i hi
    have h := encode_matches_row i
    rwa [Laws.TableRow.Statement, (encodes_of_decodeWord hi).2] at h
  refine ⟨?rows, ?illegal⟩
  case rows =>
    intro i hi r hr
    obtain ⟨q, hq, hqm, hqw⟩ := row i hi
    refine ⟨fun h => ?_, fun h => ?_⟩
    · rw [row_of_match_unique hr hq h hqw, hqm]
    · rwa [row_mnemonic_inj r hr q hq (h.trans hqm.symm)]
  case illegal =>
    refine ⟨fun hn r hr => Bool.eq_false_iff.2 fun h => decodeWord_ne_none_of_match hr h hn, fun hf => ?_⟩
    cases hi : decodeWord w with
    | none => rfl
    | some i =>
      obtain ⟨r, hr, -, hrw⟩ := row i hi
      rw [hf r hr] at hrw
      cases hrw

end Sys2Proof

/-!
PROOFS. The rules that every step keeps (10_state.md R7, R21, R26 to R28, R30, R46, R53): the invariant, what only grows, the
reservation. A step is its front and an instruction; the front is made of five operations (`FrontKeeps`), an instruction ends
in one of fourteen effects (`Effect`), so each rule is those few cases.
-/

namespace Sys2Proof.Machine

open State

/-! ### What a step is made of (R300) -/

/-- The operations that the front of a cycle is made of keep a property. -/
structure FrontKeeps (P : State → Prop) : Prop where
  timerCheck : ∀ s, P s → P (timerCheck s)
  trap : ∀ cause tval s, P s → P (trap cause tval s)
  counterStep : ∀ s, P s → P (counterStep s)
  sampleClock : ∀ s, P s → P s.sampleClock
  halt : ∀ why s, P s → P (s.halt why)

/-- A raise is the trap entry, with or without the counter step after it (R309). -/
theorem raiseException_next {e : Exception} {tval : Word} {s t : State} (h : raiseException e tval s = .next t) :
    t = counterStep (trap e.code tval s) ∨ t = trap e.code tval s := by
  unfold raiseException at h
  split at h <;> cases h
  · exact .inl rfl
  · exact .inr rfl

namespace FrontKeeps

variable {P : State → Prop} (k : FrontKeeps P) {s : State}

include k

theorem raise {e : Exception} {tval : Word} {t : State} (h : raiseException e tval s = .next t) (hs : P s) : P t := by
  rcases raiseException_next h with rfl | rfl
  · exact k.counterStep _ (k.trap _ _ _ hs)
  · exact k.trap _ _ _ hs

theorem fetchDecode (hs : P s) :
    (∀ i u, fetchDecode s = .run i u → P u) ∧ (∀ t, fetchDecode s = .ended (.next t) → P t) := by
  have sampled : ∀ u, u = s ∨ u = s.sampleClock → P u := by
    rintro u (rfl | rfl)
    · exact hs
    · exact k.sampleClock _ hs
  rcases fetchDecode_cases s with ⟨i, u, e, hu⟩ | ⟨w, u, e, hu⟩ | e | e | ⟨e, -⟩ <;> rw [e]
  · simpa using sampled u hu
  · simpa using fun t h => k.raise h (sampled u hu)
  · simpa using fun t h => k.raise h hs
  · simpa using k.halt .nullRead s hs
  · simp

/-- The front hands on, or ends the cycle in, a state with the property. -/
theorem cycleFront (hs : P s) :
    (∀ i u, cycleFront s = .run i u → P u) ∧ (∀ t, cycleFront s = .ended (.next t) → P t) := by
  have ht := k.timerCheck s hs
  rcases cycleFront_cases s with ⟨-, e⟩ | ⟨-, -, e⟩ | ⟨-, i, -, ⟨-, e⟩ | ⟨-, -, e⟩ | ⟨-, -, e⟩⟩ <;> rw [e]
  · simpa using fun t h => k.raise h hs
  · exact k.fetchDecode ht
  · simpa using k.trap _ _ _ ht
  · simpa using k.counterStep _ (k.trap _ _ _ ht)
  · exact k.fetchDecode (k.trap _ _ _ ht)

/-- A property that the front and every instruction keep is kept by every step. -/
theorem step (hexec : ∀ i u t, P u → exec i u = .next t → P t) {t : State} (h : step s = .next t) (hs : P s) : P t := by
  obtain ⟨hrun, hended⟩ := k.cycleFront hs
  rw [step_running (running_of_step h)] at h
  cases hf : Machine.cycleFront s with
  | run i u =>
    rw [hf] at h
    exact hexec i u t (hrun i u hf) h
  | ended o =>
    rw [hf] at h
    exact hended t (hf.trans (congrArg Front.ended h))

end FrontKeeps

/-! ### The invariant -/

theorem front_keeps_inv : FrontKeeps Inv where
  timerCheck _ := inv_timerCheck
  trap _ _ _ := inv_trap _ _
  counterStep _ := inv_counterStep
  sampleClock _ := inv_sampleClock
  halt why _ := inv_halt why

/-- The store of a CSR instruction in a masked number, before its re-check. -/
theorem inv_masked {s w : State} {a : CsrNum} {new : Word} (hr : RecheckedCsr a) (hi : Inv s)
    (hw : w = (s.advancePc).setCsr a.toNat (maskedStore a new s) ∨ w = s.advancePc) : Inv w := by
  have ha : Inv s.advancePc := inv_setPc _ hi
  rcases hw with rfl | rfl
  · exact inv_maskedStore new hr ha rfl
  · exact ha

theorem Effect.inv {i : Instr} {s t : State} (he : Effect i s t) (hi : Inv s) : Inv t := by
  cases he with
  | raised e tval t h => exact inv_raiseException hi h
  | wrote => exact inv_counterStep (inv_setPc _ (inv_setX _ _ hi))
  | moved => exact inv_counterStep (inv_setPc _ hi)
  | loaded rd w a v x u _ hr => exact inv_counterStep (inv_setPc _ (inv_setX _ _ (inv_memRead hr hi)))
  | loadReserved rd a v u _ hr =>
    exact inv_counterStep (inv_setPc _ (inv_setReservation _ (inv_setX _ _ (inv_memRead hr hi))))
  | stored w a v u _ _ hw => exact inv_counterStep (inv_setPc _ (inv_memWrite hw hi))
  | storeConditional rd a v u _ _ hw =>
    exact inv_counterStep (inv_setPc _ (inv_setReservation _ (inv_setX _ _ (inv_memWrite hw hi))))
  | amo rd a v x u z _ _ hr hw =>
    exact inv_counterStep (inv_setPc _ (inv_setX _ _ (inv_memWrite hw (inv_memRead hr hi))))
  | halted u why hu =>
    rcases hu with rfl | rfl
    · exact inv_halt _ hi
    · exact inv_halt _ (inv_sampleClock hi)
  | csrPlain rd a v new _ _ hf hr =>
    exact inv_counterStep (inv_setX _ _ (inv_setCsr (csrAllowed_plain new hf hr) (inv_setPc _ hi)))
  | csrMasked rd a v new w _ _ hr hw => exact inv_counterStep (inv_setX _ _ (inv_masked hr hi hw))
  | csrTook rd a v new w k _ _ hr hw =>
    exact inv_counterStep (inv_setX _ _ (inv_trap _ _ (inv_masked hr hi hw)))
  | csrHalted a new w k _ hr hw => exact inv_trap _ _ (inv_masked hr hi hw)
  | returned => exact inv_counterStep (inv_trapReturn hi)

/-- Settles O58: the operations of the front keep the invariant, and so does each of the effects of an instruction. -/
theorem stepKeepsInvariant : Obligations.StepKeepsInvariant := by
  unfold Obligations.StepKeepsInvariant
  exact fun s t hi h => front_keeps_inv.step (fun _ _ _ hu he => (exec_effect he).inv hu) h hi

/-! ### What only grows or never changes (R7, R26, R28, R30) -/

namespace Extends

theorem refl (s : State) : Extends s s := ⟨rfl, id, ⟨[], (List.append_nil _).symm⟩, BitVec.le_refl _⟩

theorem trans {s t u : State} (h : Extends s t) (h' : Extends t u) : Extends s u where
  cfg := h'.cfg.trans h.cfg
  mode hs := h'.mode (h.mode hs)
  uartOut := by
    obtain ⟨a, ha⟩ := h.uartOut
    obtain ⟨b, hb⟩ := h'.uartOut
    exact ⟨a ++ b, by rw [hb, ha, List.append_assoc]⟩
  clock := BitVec.le_trans h.clock h'.clock

/-- An operation that leaves all four parts alone. -/
theorem of_same {s t : State} (hg : t.cfg = s.cfg) (hp : t.priv = s.priv) (ho : t.uartOut = s.uartOut)
    (hc : t.clock = s.clock) : Extends s t where
  cfg := hg
  mode h := hp.trans h
  uartOut := ⟨[], by rw [ho, List.append_nil]⟩
  clock := by rw [hc]; exact BitVec.le_refl _

end Extends

theorem extends_setX (s : State) (r : RegNum) (v : Word) : Extends s (s.setX r v) :=
  .of_same (by simp) (by simp) (by simp) (by simp)

theorem extends_sampleClock (s : State) : Extends s s.sampleClock :=
  ⟨rfl, id, ⟨[], (List.append_nil _).symm⟩, s.clock.mtime_le_sample⟩

theorem extends_timerCheck (s : State) : Extends s (timerCheck s) := by
  rcases timerCheck_eq s with e | e <;> rw [e]
  · exact extends_sampleClock s
  · exact (extends_sampleClock s).trans (.of_same rfl rfl rfl rfl)

theorem extends_trap (cause tval : Word) (s : State) : Extends s (trap cause tval s) :=
  .of_same (by simp) (by simp) (by simp) (by simp)

theorem extends_counterStep (s : State) : Extends s (counterStep s) := .of_same (by simp) (by simp) (by simp) (by simp)

theorem extends_memRead {w : Width} {a v : Word} {s u : State} (h : memRead w a s = .ok v u) : Extends s u := by
  rcases memRead_ok_state h with rfl | rfl
  · exact .refl _
  · exact extends_sampleClock s

theorem extends_memWrite {w : Width} {a v : Word} {s u : State} (h : memWrite w a v s = .ok () u) : Extends s u := by
  obtain ⟨-, -, hp, -, -, hg, hc, ho, -⟩ := memWrite_ok_kept h
  exact ⟨hg, fun hs => hp.trans hs, ho, hc⟩

/-- The front, from a state that extends the one the cycle began in. -/
theorem front_keeps_extends (s : State) : FrontKeeps (Extends s) where
  timerCheck _ h := h.trans (extends_timerCheck _)
  trap _ _ _ h := h.trans (extends_trap _ _ _)
  counterStep _ h := h.trans (extends_counterStep _)
  sampleClock _ h := h.trans (extends_sampleClock _)
  halt _ _ h := h.trans (.of_same rfl rfl rfl rfl)

/-- The state that the interrupts are checked in after the store in a masked number. -/
theorem extends_masked {s w : State} {a : CsrNum} {m : Word}
    (hw : w = (s.advancePc).setCsr a.toNat m ∨ w = s.advancePc) : Extends s w := by
  rcases hw with rfl | rfl <;> exact .of_same rfl rfl rfl rfl

theorem Effect.extends {i : Instr} {s t : State} (he : Effect i s t) : Extends s t := by
  have retired : ∀ {u : State}, Extends s u → Extends s (counterStep u) := fun h => h.trans (extends_counterStep _)
  have moved : ∀ {u : State} (p : Word), Extends s u → Extends s (u.setPc p) :=
    fun p h => h.trans (.of_same rfl rfl rfl rfl)
  have reserved : ∀ {u : State} (b : Bool), Extends s u → Extends s (u.setReservation b) :=
    fun b h => h.trans (.of_same rfl rfl rfl rfl)
  have wrote : ∀ {u : State} (r : RegNum) (v : Word), Extends s u → Extends s (u.setX r v) :=
    fun r v h => h.trans (extends_setX _ _ _)
  cases he with
  | raised e tval t h => exact (front_keeps_extends s).raise h (.refl s)
  | wrote => exact retired (moved _ (wrote _ _ (.refl s)))
  | moved => exact retired (moved _ (.refl s))
  | loaded rd w a v x u _ hr => exact retired (moved _ (wrote _ _ (extends_memRead hr)))
  | loadReserved rd a v u _ hr => exact retired (moved _ (reserved _ (wrote _ _ (extends_memRead hr))))
  | stored w a v u _ _ hw => exact retired (moved _ (extends_memWrite hw))
  | storeConditional rd a v u _ _ hw => exact retired (moved _ (reserved _ (wrote _ _ (extends_memWrite hw))))
  | amo rd a v x u z _ _ hr hw => exact retired (moved _ (wrote _ _ ((extends_memRead hr).trans (extends_memWrite hw))))
  | halted u why hu =>
    have h : Extends s u := by
      rcases hu with rfl | rfl
      · exact .refl _
      · exact extends_sampleClock s
    exact h.trans (.of_same rfl rfl rfl rfl)
  | csrPlain rd a v new => exact retired (wrote _ _ (.of_same rfl rfl rfl rfl))
  | csrMasked rd a v new w _ _ _ hw => exact retired (wrote _ _ (extends_masked hw))
  | csrTook rd a v new w k _ _ _ hw => exact retired (wrote _ _ ((extends_masked hw).trans (extends_trap _ _ _)))
  | csrHalted a new w k _ _ hw => exact (extends_masked hw).trans (extends_trap _ _ _)
  | returned => exact retired ⟨rfl, fun _ => rfl, ⟨[], (List.append_nil _).symm⟩, BitVec.le_refl _⟩

/-- Settles O59: the operations of the front and the effects of an instruction leave the four parts alone, but for a clock
sample, a byte put to the UART and the trap return, which enters Machine mode. -/
theorem stepExtends : Obligations.StepExtends := by
  unfold Obligations.StepExtends
  exact fun s t h => (front_keeps_extends s).step (fun _ _ _ hu he => hu.trans (exec_effect he).extends) h (.refl s)

/-! ### The reservation (R27, R99) -/

theorem front_keeps_reservation (b : Bool) : FrontKeeps (fun u => u.reservation = b) where
  timerCheck u h := (timerCheck_reservation u).trans h
  trap cause tval u h := (trap_reservation cause tval u).trans h
  counterStep u h := (counterStep_reservation u).trans h
  sampleClock _ h := h
  halt _ _ h := h

theorem Effect.reservation {i : Instr} {s t : State} (he : Effect i s t) :
    t.reservation = s.reservation ∨
    (t.reservation = true ∧ ∃ rd rs1 rs2 aq rl, i = .lrW rd rs1 rs2 aq rl) ∨
    (t.reservation = false ∧ ∃ rd rs1 rs2 aq rl, i = .scW rd rs1 rs2 aq rl) := by
  cases he with
  | loadReserved rd a v u hi => exact .inr (.inl ⟨by simp, rd, hi⟩)
  | storeConditional rd a v u hi => exact .inr (.inr ⟨by simp, rd, hi⟩)
  | raised e tval t h => exact .inl ((front_keeps_reservation s.reservation).raise h rfl)
  | wrote | moved | csrPlain | returned => exact .inl (by simp [trapReturn])
  | loaded rd w a v x u _ hr =>
    obtain ⟨-, -, -, -, hk, -⟩ := memRead_ok_kept hr
    exact .inl (by simp [hk])
  | stored w a v u _ _ hw =>
    obtain ⟨-, -, -, hk, -⟩ := memWrite_ok_kept hw
    exact .inl (by simp [hk])
  | amo rd a v x u z _ _ hr hw =>
    obtain ⟨-, -, -, -, hk, -⟩ := memRead_ok_kept hr
    obtain ⟨-, -, -, hk', -⟩ := memWrite_ok_kept hw
    exact .inl (by simp [hk, hk'])
  | halted u why hu => rcases hu with rfl | rfl <;> exact .inl rfl
  | csrMasked rd a v new w _ _ _ hw | csrTook rd a v new w k _ _ _ hw | csrHalted a new w k _ _ hw =>
    rcases hw with rfl | rfl <;> exact .inl (by simp)

/-- Settles O56: of the effects of an instruction two write the reservation, and no operation of the front does. -/
theorem reservationOnlyByLrAndSc : Obligations.ReservationOnlyByLrAndSc := by
  unfold Obligations.ReservationOnlyByLrAndSc
  refine ⟨fun i s t h hne => (exec_effect h).reservation.resolve_left hne, ?run, ?ended, trap_reservation⟩
  case run => exact fun i s u => ((front_keeps_reservation s.reservation).cycleFront rfl).1 i u
  case ended => exact fun s t => ((front_keeps_reservation s.reservation).cycleFront rfl).2 t

end Sys2Proof.Machine

/-!
PROOFS. What an instruction changes (00_scope.md R13, 20_memory.md R97, 40_rv32i_compute.md R150), by cases on its effect,
and that every cycle and every instruction answers (60_exceptions.md R300, R309).
-/

namespace Sys2Proof.Machine

open State

/-! ### Registers -/

theorem x_of_regs {s t : State} (h : t.regs = s.regs) (r : RegNum) : t.x r = s.x r := by unfold x; rw [h]

/-- A register that changed over a write of `rd` is `rd`. -/
theorem x_setX_kept_or (s : State) (rd r : RegNum) (v : Word) : (s.setX rd v).x r = s.x r ∨ rd = r := by
  by_cases h : r = rd
  · exact .inr h.symm
  · exact .inl (x_setX_other s v h)

theorem Effect.registers {i : Instr} {s t : State} (he : Effect i s t) (r : RegNum) :
    t.x r = s.x r ∨ destination i = some r := by
  have wrote : ∀ {rd : RegNum} {u : State} (v : Word), destination i = some rd → u.regs = s.regs →
      (u.setX rd v).x r = s.x r ∨ destination i = some r := by
    intro rd u v hd hu
    rcases x_setX_kept_or u rd r v with h | rfl
    · exact .inl (h.trans (x_of_regs hu r))
    · exact .inr hd
  cases he with
  | raised e tval t h => rcases raiseException_next h with rfl | rfl <;> exact .inl (x_of_regs (by simp) r)
  | wrote rd v target hd => simpa using wrote v hd rfl
  | moved => exact .inl (by simp)
  | loaded rd w a v x u hd hr => simpa using wrote x hd (memRead_ok_kept hr).1
  | loadReserved rd a v u hi hr =>
    obtain ⟨rs1, rs2, aq, rl, rfl⟩ := hi
    simpa using wrote v rfl (memRead_ok_kept hr).1
  | stored w a v u _ _ hw => exact .inl (by simpa using x_of_regs (memWrite_ok_kept hw).1 r)
  | storeConditional rd a v u hi _ hw =>
    obtain ⟨rs1, rs2, aq, rl, rfl⟩ := hi
    simpa using wrote 0#32 rfl (memWrite_ok_kept hw).1
  | amo rd a v x u z hd _ hr hw => simpa using wrote v hd ((memWrite_ok_kept hw).1.trans (memRead_ok_kept hr).1)
  | halted u why hu => rcases hu with rfl | rfl <;> exact .inl rfl
  | csrPlain rd a v new hd => simpa using wrote (u := (s.advancePc).setCsr a.toNat new) v hd rfl
  | csrMasked rd a v new w hd _ _ hw =>
    simpa using wrote v hd (show w.regs = s.regs by rcases hw with rfl | rfl <;> rfl)
  | csrTook rd a v new w k hd _ _ hw =>
    simpa using wrote (u := trap k.cause 0#32 w) v hd
      ((trap_regs _ _ w).trans (by rcases hw with rfl | rfl <;> rfl))
  | csrHalted a new w k _ _ hw =>
    exact .inl (x_of_regs ((trap_regs _ _ w).trans (by rcases hw with rfl | rfl <;> rfl)) r)
  | returned => exact .inl (by simp [trapReturn])

/-! ### Bytes of memory -/

/-- Memory is as it was, or as the access that `MemWrite` made in RAM left it. -/
def MemoryWritten (i : Instr) (s t : State) : Prop :=
  t.mem = s.mem ∨
    ∃ w a v, writeAccess i s = some (w, a) ∧ RamAccess s w a ∧ t.mem = (s.ramWrite w a.toNat v).mem

theorem Effect.memory {i : Instr} {s t : State} (he : Effect i s t) : MemoryWritten i s t := by
  have write : ∀ {w : Width} {a v : Word} {u z : State}, writeAccess i s = some (w, a) → u = s ∨ u = s.sampleClock →
      memWrite w a v u = .ok () z → MemoryWritten i s z := by
    intro w a v u z ha hu hw
    obtain ⟨-, -, -, -, -, -, -, -, hm, -⟩ := memWrite_ok_kept hw
    rcases hu with rfl | rfl
    · exact hm.imp_right fun ⟨hr, hm⟩ => ⟨w, a, v, ha, hr, hm⟩
    · exact hm.imp_right fun ⟨hr, hm⟩ => ⟨w, a, v, ha, hr, hm.trans (by cases w <;> rfl)⟩
  cases he with
  | raised e tval t h => rcases raiseException_next h with rfl | rfl <;> exact .inl (by simp)
  | wrote | moved | csrPlain | returned => exact .inl (by simp [trapReturn])
  | loaded rd w a v x u _ hr | loadReserved rd a v u _ hr =>
    obtain ⟨-, -, -, -, -, -, hm, -⟩ := memRead_ok_kept hr
    exact .inl (by simp [hm])
  | stored w a v u _ ha hw => simpa [MemoryWritten] using write ha (.inl rfl) hw
  | storeConditional rd a v u _ ha hw => simpa [MemoryWritten] using write ha (.inl rfl) hw
  | amo rd a v x u z _ ha hr hw => simpa [MemoryWritten] using write ha (memRead_ok_state hr) hw
  | halted u why hu => rcases hu with rfl | rfl <;> exact .inl rfl
  | csrMasked rd a v new w _ _ _ hw | csrTook rd a v new w k _ _ _ hw | csrHalted a new w k _ _ hw =>
    rcases hw with rfl | rfl <;> exact .inl (by simp)

/-- A byte that changed lies in that access. -/
theorem MemoryWritten.byte {i : Instr} {s t : State} (h : MemoryWritten i s t) {a : Nat} (hne : t.byte a ≠ s.byte a) :
    ∃ w addr, writeAccess i s = some (w, addr) ∧ RamAccess s w addr ∧ addr.toNat ≤ a ∧ a < addr.toNat + w.bytes := by
  rcases h with hm | ⟨w, addr, v, ha, hr, hm⟩
  · exact absurd (by unfold State.byte; rw [hm]) hne
  · refine ⟨w, addr, ha, hr, not_not.1 fun hout => hne ?_⟩
    have hb : t.byte a = (s.ramWrite w addr.toNat v).byte a := by unfold State.byte; rw [hm]
    rw [hb, byte_ramWrite, if_neg hout]

/-! ### CSRs -/

/-- The CSRs that an operation which is no CSR instruction may write: those of the trap, `mip` and the counters. -/
def rawPathCsrs : List Nat := [0x300, 0x341, 0x342, 0x343, 0x344] ++ counterCsrs

theorem CsrsKept.trans {l : List Nat} {s t u : State} (h : CsrsKept l s t) (h' : CsrsKept l t u) : CsrsKept l s u :=
  fun a ha => (h' a ha).trans (h a ha)

theorem CsrsKept.mono {l m : List Nat} {s t : State} (h : CsrsKept l s t) (hlm : l ⊆ m) : CsrsKept m s t :=
  fun a ha => h a fun hl => ha (hlm hl)

theorem CsrsKept.of_csrs {s t : State} (l : List Nat) (h : t.csrs = s.csrs) : CsrsKept l s t := fun a _ => by
  unfold csr
  rw [h]

theorem counterStep_keeps_rawPath (s : State) : CsrsKept rawPathCsrs s (counterStep s) :=
  (counterStep_cycleEnds s).csrs.mono (by decide)

theorem trap_keeps_rawPath (cause tval : Word) (s : State) : CsrsKept rawPathCsrs s (trap cause tval s) :=
  (trap_entered cause tval s).csrs.mono (by decide)

theorem memWrite_keeps_rawPath {w : Width} {a v : Word} {s u : State} (h : memWrite w a v s = .ok () u) :
    CsrsKept rawPathCsrs s u := by
  obtain ⟨-, -, -, -, -, -, -, -, -, hc | hc⟩ := memWrite_ok_kept h
  · exact .of_csrs _ hc
  · intro b hb
    have hne : b ≠ 0x344 := by rintro rfl; exact hb (by decide)
    exact (CsrsKept.of_csrs [] hc b (by simp)).trans (csr_setCsr_other _ _ hne)

theorem Effect.csrs {i : Instr} {s t : State} (he : Effect i s t) (hi : csrForm i s = none) :
    CsrsKept rawPathCsrs s t := by
  have noCsr : ¬ (csrForm i s).isSome := by simp [hi]
  have retired : ∀ {u v : State}, CsrsKept rawPathCsrs s u → v.csrs = u.csrs → CsrsKept rawPathCsrs s (counterStep v) :=
    fun h hv => (h.trans (.of_csrs _ hv)).trans (counterStep_keeps_rawPath _)
  have same : CsrsKept rawPathCsrs s s := fun _ _ => rfl
  cases he with
  | raised e tval t h =>
    have ht := trap_keeps_rawPath e.code tval s
    rcases raiseException_next h with rfl | rfl
    · exact retired ht rfl
    · exact ht
  | wrote | moved => exact retired same (by simp)
  | loaded rd w a v x u _ hr | loadReserved rd a v u _ hr =>
    obtain ⟨-, -, -, hc, -⟩ := memRead_ok_kept hr
    exact retired same (by simp [hc])
  | stored w a v u _ _ hw | storeConditional rd a v u _ _ hw => exact retired (memWrite_keeps_rawPath hw) (by simp)
  | amo rd a v x u z _ _ hr hw =>
    obtain ⟨-, -, -, hc, -⟩ := memRead_ok_kept hr
    exact retired ((CsrsKept.of_csrs _ hc).trans (memWrite_keeps_rawPath hw)) (by simp)
  | halted u why hu => rcases hu with rfl | rfl <;> exact .of_csrs _ rfl
  | csrPlain _ _ _ _ _ hc | csrMasked _ _ _ _ _ _ hc | csrTook _ _ _ _ _ _ _ hc | csrHalted _ _ _ _ hc =>
    exact absurd hc noCsr
  | returned =>
    have ht : CsrsKept rawPathCsrs s (trapReturn s) := fun a ha => by
      have hne : a ≠ 0x300 := by rintro rfl; exact ha (by decide)
      rw [trapReturn_csr, if_neg hne]
    exact retired ht rfl

/-- Settles O57: of each effect of an instruction, the registers, the bytes and the CSRs that it writes. -/
theorem onlyDestinationsChange : Obligations.OnlyDestinationsChange := by
  unfold Obligations.OnlyDestinationsChange
  intro i s t h
  have he := exec_effect h
  exact ⟨fun r => (he.registers r).resolve_left, fun a => he.memory.byte, he.csrs⟩

/-! ### Every cycle answers (R300, R309) -/

/-- A next state, or the refusal of an access under the other value of `UNMAPPED_MMIO`. -/
def AnswersUnder (c : Config) (o : Out) : Prop :=
  (∃ t, o = .next t) ∨ ((∃ a, o = .refused (.unmappedMmio a)) ∧ c.unmappedMmio = .refuse)

theorem AnswersUnder.next {c : Config} {o : Out} (h : AnswersUnder c o) (hc : c.unmappedMmio = .readZeroWriteIgnored) :
    ∃ t, o = .next t := by
  refine h.resolve_right fun ⟨_, hr⟩ => ?_
  rw [hc] at hr
  cases hr

theorem exec_answersUnder (i : Instr) (s : State) : AnswersUnder s.cfg (exec i s) := by
  rcases exec_answers i s with ⟨t, e, -⟩ | ⟨a, e, hc⟩
  · exact .inl ⟨t, e⟩
  · exact .inr ⟨⟨a, e⟩, hc⟩

theorem raiseException_answersUnder (c : Config) (e : Exception) (tval : Word) (s : State) :
    AnswersUnder c (raiseException e tval s) := by
  obtain ⟨t, h, -⟩ := raiseException_raises e tval s
  exact .inl ⟨t, h⟩

/-- What a front answers: an instruction under the same parameters, or an end of the cycle that is an answer. -/
def FrontAnswers (c : Config) (f : Front) : Prop :=
  (∃ i u, f = .run i u ∧ u.cfg = c) ∨ ∃ o, f = .ended o ∧ AnswersUnder c o

theorem fetchDecode_answers (s : State) : FrontAnswers s.cfg (fetchDecode s) := by
  rcases fetchDecode_cases s with ⟨i, u, e, hu⟩ | ⟨w, u, e, -⟩ | e | e | ⟨e, hc⟩
  · exact .inl ⟨i, u, e, by rcases hu with rfl | rfl <;> rfl⟩
  · exact .inr ⟨_, e, raiseException_answersUnder ..⟩
  · exact .inr ⟨_, e, raiseException_answersUnder ..⟩
  · exact .inr ⟨_, e, .inl ⟨_, rfl⟩⟩
  · exact .inr ⟨_, e, .inr ⟨⟨_, rfl⟩, hc⟩⟩

theorem cycleFront_answers (s : State) : FrontAnswers s.cfg (cycleFront s) := by
  rcases cycleFront_cases s with ⟨-, e⟩ | ⟨-, -, e⟩ | ⟨-, k, -, ⟨-, e⟩ | ⟨-, -, e⟩ | ⟨-, -, e⟩⟩
  · exact .inr ⟨_, e, raiseException_answersUnder ..⟩
  · rw [e, ← timerCheck_cfg s]
    exact fetchDecode_answers _
  · exact .inr ⟨_, e, .inl ⟨_, rfl⟩⟩
  · exact .inr ⟨_, e, .inl ⟨_, rfl⟩⟩
  · rw [e, ← timerCheck_cfg s, ← trap_cfg k.cause 0#32 (timerCheck s)]
    exact fetchDecode_answers _

theorem step_answersUnder {s : State} (hr : s.run = .running) : AnswersUnder s.cfg (step s) := by
  rw [step_running hr]
  rcases cycleFront_answers s with ⟨i, u, e, hc⟩ | ⟨o, e, ho⟩ <;> rw [e]
  · exact hc ▸ exec_answersUnder i u
  · exact ho

theorem step_halted {s : State} {why : HaltReason} (h : s.run = .halted why) : step s = .fault (.halted why) := by
  simp only [step, h]

/-- Settles O14: the run state is the first thing that a step looks at. -/
theorem haltedTakesNoCycle : Obligations.HaltedTakesNoCycle := by
  unfold Obligations.HaltedTakesNoCycle
  exact fun s why => step_halted

/-- Settles O60: a step of a running machine and an instruction answer a next state or the refusal of the other parameter
value (`step_answersUnder`, `exec_answersUnder`); a step of a halted one is its fault. -/
theorem stepAlwaysAnswers : Obligations.StepAlwaysAnswers := by
  unfold Obligations.StepAlwaysAnswers
  refine fun s => ⟨fun hc hr => (step_answersUnder hr).next hc, fun hc i => (exec_answersUnder i s).next hc,
    ?refused, ?fault⟩
  case refused =>
    intro r h
    cases hrun : s.run with
    | halted why => rw [step_halted hrun] at h; cases h
    | running =>
      rcases step_answersUnder hrun with ⟨t, e⟩ | ⟨⟨a, e⟩, hc⟩ <;> rw [e] at h <;> cases h
      exact ⟨hc, a, rfl⟩
  case fault =>
    intro f h
    cases hrun : s.run with
    | halted why =>
      rw [step_halted hrun] at h
      cases h
      exact ⟨why, rfl, rfl⟩
    | running => rcases step_answersUnder hrun with ⟨t, e⟩ | ⟨⟨a, e⟩, -⟩ <;> rw [e] at h <;> cases h

end Sys2Proof.Machine

/-!
PROOFS. The cycle (60_exceptions.md, section 1) and reset (10_state.md R60): the timer check, which interrupt is taken, the
interrupt before the fetch, the fetch, and the state that a machine starts in.
-/

namespace Sys2Proof.Machine

open State

/-! ### The fetch (R304, R305) -/

/-- A fetch that answered an instruction: the cycle runs it, whichever memory or device answered. -/
theorem step_of_read {s f u : State} {w : Word} {i : Instr} (hf : FetchesIn s f) (h : memRead .word f.pc f = .ok w u)
    (hd : decodeWord w = some i) : step s = exec i u := by
  simp only [step_fetchesIn hf, fetchDecode, h, decodeStep_some u hd]

theorem step_of_read_raise {s f : State} {e : Exception} {tval : Word} (hf : FetchesIn s f)
    (h : memRead .word f.pc f = .raise e tval) : ∃ t, step s = .next t ∧ Raises f t e.code tval := by
  simp only [step_fetchesIn hf, fetchDecode, h]
  exact raiseException_raises e tval f

theorem step_of_read_halt {s f u : State} (hf : FetchesIn s f) (h : memRead .word f.pc f = .halt u) :
    step s = .next u := by
  simp only [step_fetchesIn hf, fetchDecode, h]

theorem step_of_read_refuse {s f : State} {r : Refusal} (hf : FetchesIn s f) (h : memRead .word f.pc f = .refuse r) :
    step s = .refused r := by
  simp only [step_fetchesIn hf, fetchDecode, h]

/-- The fetch of an instruction from RAM. -/
theorem step_of_ram {s f : State} {i : Instr} (hf : FetchesIn s f) (h0 : f.pc ≠ 0#32) (hr : RamAccess f .word f.pc)
    (hd : decodeWord (wordAt f f.pc.toNat) = some i) : step s = exec i f :=
  step_of_read hf (memRead_ram hr h0) hd

/-- Settles O13: each answer of the bus to the fetch has its end of the cycle (`step_of_read` and the three after it). -/
theorem fetchFollowsTheBus : Obligations.FetchFollowsTheBus := by
  unfold Obligations.FetchFollowsTheBus
  exact fun s f hf => ⟨fun u w i => step_of_read hf, fun e tval => step_of_read_raise hf, fun u => step_of_read_halt hf,
    fun r => step_of_read_refuse hf⟩

/-- A device address that no row of R86 claims reads 0 under the default parameter (R345). -/
theorem memRead_unclaimed {s : State} {w : Width} {a : Word} (h : DeviceAccess s w a) (h0 : a ≠ 0#32)
    (hd : deviceAt a = none) (hc : s.cfg.unmappedMmio = .readZeroWriteIgnored) : memRead w a s = .ok 0#32 s := by
  rw [memRead_device h h0, devRead, hd]
  simp only [unmappedRead, hc, Eff.andThen]
  cases w <;> rfl

/-- Settles O11: past `END` the bus raises, at 0 it halts, and what an unclaimed address reads as is no instruction. -/
theorem fetchFaults : Obligations.FetchFaults := by
  unfold Obligations.FetchFaults
  refine fun s f hf => ⟨fun hb => step_of_read_raise hf (memRead_beyond hb), fun hb h0 => ?null, fun hd h0 hn hc => ?unclaimed⟩
  case null =>
    have hread : memRead .word f.pc f = .halt (f.halt .nullRead) := by
      rw [h0] at hb ⊢
      exact memRead_null hb
    exact ⟨_, step_of_read_halt hf hread, rfl⟩
  case unclaimed => exact step_illegal hf (memRead_unclaimed hd h0 hn hc) rfl

/-! ### The state in which the cycle fetches (R300) -/

theorem vectorDirect_timerCheck (s : State) : VectorDirect (timerCheck s) ↔ VectorDirect s := by
  rw [VectorDirect, VectorDirect, timerCheck_csr_other s (by decide)]

/-- Memory, where RAM lies and where an access goes are matters of `mem` and `cfg` alone. -/
theorem wordAt_of_mem {s t : State} (h : t.mem = s.mem) (a : Nat) : wordAt t a = wordAt s a := by
  unfold wordAt State.byte
  rw [h]

theorem ramAccess_of_cfg {s t : State} (h : t.cfg = s.cfg) (w : Width) (a : Word) :
    RamAccess t w a ↔ RamAccess s w a := by
  unfold RamAccess
  rw [h]

/-- Four bytes that decode to an instruction are a word that does. -/
theorem decodeWord_of_decode_bytes {s : State} {a : Nat} {i : Instr} {rest : List Byte}
    (h : decode [s.byte a, s.byte (a + 1), s.byte (a + 2), s.byte (a + 3)] = .instr i rest) :
    decodeWord (wordAt s a) = some i := by
  rw [decode_bytes] at h
  cases hd : decodeWord (wordAt s a) <;> rw [hd] at h <;> cases h
  rfl

/-- Settles O6: with nothing to take the cycle fetches after the timer check, which leaves `pc` and memory alone. -/
theorem stepRunsTheDecodedInstruction : Obligations.StepRunsTheDecodedInstruction := by
  unfold Obligations.StepRunsTheDecodedInstruction
  intro s i hrun halign h0 hram hd hn
  have hf : FetchesIn s (timerCheck s) := ⟨hrun, halign, .inl ⟨hn, rfl⟩⟩
  refine step_of_ram hf (by rwa [timerCheck_pc]) ?_ ?_
  · rwa [timerCheck_pc, ramAccess_of_cfg (timerCheck_cfg s)]
  · rw [timerCheck_pc, wordAt_of_mem (timerCheck_mem s)]
    exact decodeWord_of_decode_bytes hd

/-- What the front does with an interrupt to take (R303, D22). -/
theorem step_interrupt {s : State} {k : Interrupt} (hrun : s.run = .running) (halign : s.pc.toNat % 4 = 0)
    (hk : pendingInterrupt (timerCheck s) = some k) :
    (¬ VectorDirect s → step s = .next (trap k.cause 0#32 (timerCheck s))) ∧
    (VectorDirect s → s.cfg.irqEntryEndsCycle = true →
      step s = .next (counterStep (trap k.cause 0#32 (timerCheck s)))) := by
  rw [step_running hrun]
  rcases cycleFront_cases s with ⟨hm, -⟩ | ⟨-, hn, -⟩ | ⟨-, j, hj, hc⟩
  · exact absurd halign hm
  · rw [hk] at hn; cases hn
  · obtain rfl : j = k := Option.some.inj (hj.symm.trans hk)
    rcases hc with ⟨hv, e⟩ | ⟨hv, hi, e⟩ | ⟨hv, hi, e⟩ <;> rw [e]
    · exact ⟨fun _ => rfl, fun hd => absurd hd hv⟩
    · exact ⟨fun hn => absurd hv hn, fun _ _ => rfl⟩
    · exact ⟨fun hn => absurd hv hn, fun _ hi' => by rw [hi] at hi'; cases hi'⟩

/-- Settles O7: the front with an interrupt to take (`step_interrupt`); when the cycle goes on it fetches in the state after
the entry, which changed neither memory nor the parameters. -/
theorem stepTakesTheInterruptFirst : Obligations.StepTakesTheInterruptFirst := by
  unfold Obligations.StepTakesTheInterruptFirst
  rintro s _ k hrun halign hk rfl
  have ht := trap_entered k.cause 0#32 (timerCheck s)
  obtain ⟨hhalt, hend⟩ := step_interrupt hrun halign hk
  refine ⟨ht, hhalt, fun hv hi => ⟨_, hend hv hi, counterStep_cycleEnds _⟩, fun hv hi => ?goesOn⟩
  case goesOn =>
    have hf : FetchesIn s (trap k.cause 0#32 (timerCheck s)) := ⟨hrun, halign, .inr ⟨k, hk, hv, hi, rfl⟩⟩
    have hpc : (trap k.cause 0#32 (timerCheck s)).pc = s.csr 0x305 :=
      ((ht.vectored ((vectorDirect_timerCheck s).2 hv)).1).trans (timerCheck_csr_other s (by decide))
    refine ⟨hf, hpc, ?_⟩
    rintro i _ rfl h0 hram hd
    refine step_of_ram hf ?_ ?_ ?_ <;> rw [hpc]
    · exact fun h => h0 (by rw [h]; rfl)
    · exact (ramAccess_of_cfg ((trap_cfg ..).trans (timerCheck_cfg s)) _ _).2 hram
    · rw [wordAt_of_mem ((trap_mem ..).trans (timerCheck_mem s))]
      exact decodeWord_of_decode_bytes hd

/-! ### Which interrupt is taken (R311, R320) -/

/-- The interrupt selected, in Machine mode with MIE set: the first of MEI, MSI, MTI that is pending and enabled. The test
`mip = 0` needs no case: nothing is pending then. -/
theorem pendingInterrupt_eq (s : State) :
    pendingInterrupt s =
      if s.priv = .machine ∧ (s.csr 0x300).getLsbD 3 = true then selectInterrupt (s.csr 0x344 &&& s.csr 0x304) else none := by
  unfold pendingInterrupt mieBit
  by_cases hmip : s.csr 0x344 = 0#32
  · simp [hmip, selectInterrupt]
  · cases hmie : (s.csr 0x300).getLsbD 3
    · simp
    · by_cases hp : s.priv = .machine <;> simp [hmip, hp]

theorem pendingInterrupt_eq_some_iff (s : State) (k : Interrupt) :
    pendingInterrupt s = some k ↔
      (s.priv = .machine ∧ (s.csr 0x300).getLsbD 3 = true) ∧ selectInterrupt (s.csr 0x344 &&& s.csr 0x304) = some k := by
  rw [pendingInterrupt_eq]
  split <;> simp_all

theorem selectInterrupt_eq_external_iff (p : Word) : selectInterrupt p = some .external ↔ p.getLsbD 11 = true := by
  unfold selectInterrupt
  split_ifs <;> simp_all

theorem selectInterrupt_eq_software_iff (p : Word) :
    selectInterrupt p = some .software ↔ ¬ p.getLsbD 11 = true ∧ p.getLsbD 3 = true := by
  unfold selectInterrupt
  split_ifs <;> simp_all

theorem selectInterrupt_eq_timer_iff (p : Word) :
    selectInterrupt p = some .timer ↔ ¬ p.getLsbD 11 = true ∧ ¬ p.getLsbD 3 = true ∧ p.getLsbD 7 = true := by
  unfold selectInterrupt
  split_ifs <;> simp_all

/-- Settles O8: `selectInterrupt` tests bits 11, 3 and 7 of `mip & mie` in this order. -/
theorem interruptPriority : Obligations.InterruptPriority := by
  unfold Obligations.InterruptPriority
  intro s enabled both he hb
  have bit : ∀ k, (s.csr 0x344 &&& s.csr 0x304).getLsbD k = true ↔ both k := fun k => by
    rw [BitVec.getLsbD_and, Bool.and_eq_true, hb k]
  simp only [pendingInterrupt_eq_some_iff, ← he, selectInterrupt_eq_external_iff, selectInterrupt_eq_software_iff,
    selectInterrupt_eq_timer_iff, bit, iff_self, Interrupt.cause, and_self]

/-! ### The timer check (R302, R28) -/

theorem Clock.sample_of_future {c : Clock} {next : Dword} {rest : List Dword} (h : c.future = next :: rest)
    (hle : c.mtime ≤ next) : c.sample = ⟨next, rest⟩ := by
  simp only [Clock.sample, h, laterOf, if_pos hle]

theorem Clock.sample_of_exhausted {c : Clock} (h : c.future = []) : c.sample = c := by
  simp only [Clock.sample, h]

/-- Settles O9: the check is one sample of the clock, and at most bit 7 of `mip` set (`timerCheck_mip_bit`). -/
theorem timerCheckSetsMtip : Obligations.TimerCheckSetsMtip := by
  unfold Obligations.TimerCheckSetsMtip
  rintro s _ rfl
  simp only [timerCheck_clock]
  refine ⟨s.clock.mtime_le_sample, fun next rest hf hle => ?sample, Clock.sample_of_exhausted, ?mtip, fun k hk => ?otherBits,
    fun a ha => timerCheck_csr_other s (by simpa using ha), fun r _ => timerCheck_x s r, timerCheck_byte s,
    ⟨timerCheck_priv s, timerCheck_run s, timerCheck_cfg s⟩, timerCheck_pc s, timerCheck_reservation s,
    timerCheck_mtimecmp s, timerCheck_uartOut s⟩
  case sample => simp [Clock.sample_of_future hf hle]
  case mtip =>
    rw [timerCheck_mip_bit]
    by_cases h : s.mtimecmp.toNat ≤ s.clock.sample.mtime.toNat <;> simp [h]
  case otherBits => simp [timerCheck_mip_bit, hk]

/-! ### Reset (R60, R371) -/

section

variable (c : Config) (ram : List Host.Cell) (clock : Clock)

theorem resetWith_x (r : RegNum) : (State.resetWith c ram clock).x r = if r = 11 then c.dtbAddr else 0#32 := by
  have hset : (resetRegs c)[r.val] = if r.val = 11 then c.dtbAddr else 0#32 := by
    simp [resetRegs, Vector.getElem_set, eq_comm]
  have h11 : r = 11 ↔ r.val = 11 := Fin.ext_iff
  show (if r = 0 then 0#32 else (resetRegs c)[r.val]) = _
  by_cases h0 : r = 0
  · subst h0
    rfl
  · simp only [h0, if_false, hset, h11]

theorem resetWith_csr (a : Nat) :
    (State.resetWith c ram clock).csr a =
      if a = 0x300 then 0x00001888#32 else if a = 0x301 then 0x40401101#32 else 0#32 := rfl

theorem resetWith_csr_other {a : Nat} (h0 : a ≠ 0x300) (h1 : a ≠ 0x301) : (State.resetWith c ram clock).csr a = 0#32 := by
  rw [resetWith_csr, if_neg h0, if_neg h1]

theorem resetWith_inv (hc : c.wf = true) (hm : Memory.wf ram = true)
    (hw : Sparse.within c.pageOffset.toNat c.ramEnd ram = true) : Inv (State.resetWith c ram clock) where
  memoryCanonical := hm
  memoryInRam := hw
  csrsCanonical := rfl
  csrsInRange := rfl
  zeroRegister := by simp [State.resetWith, resetRegs]
  machineMode := rfl
  mstatusFields := by rw [resetWith_csr]; decide
  misaConstant := by rw [resetWith_csr]; decide
  midelegZero := resetWith_csr_other _ _ _ (by decide) (by decide)
  mieFields := by rw [resetWith_csr]; decide
  mipFields := by rw [resetWith_csr]; decide
  pmpZero a ha := by
    have h := (isPmp_iff a).1 ha
    exact resetWith_csr_other _ _ _ (by omega) (by omega)
  readOnlyZero a ha := by
    have h := mt (csrWritable_iff a).2 (by simp [ha])
    exact resetWith_csr_other _ _ _ (by omega) (by omega)
  instretIsCycle := by rw [resetWith_csr, resetWith_csr]; decide
  instrethIsCycleh := by rw [resetWith_csr, resetWith_csr]; decide
  parameters := hc

end

/-- Settles O15: the two entries of the CSR file, the one register that is set, and the fields as they are written. -/
theorem resetStateValues : Obligations.ResetStateValues := by
  unfold Obligations.ResetStateValues
  refine ⟨?_, rfl⟩
  rintro c ram clock _ rfl
  exact ⟨rfl, resetWith_x c ram clock, rfl, rfl, rfl, fun a => resetWith_csr_other c ram clock, rfl, rfl, rfl, rfl, rfl, rfl,
    rfl⟩

/-- Settles O16: `State.reset` is such a reset, with parameters that meet R7's constraint and nothing in memory. -/
theorem resetHasInvariant : Obligations.ResetHasInvariant := by
  unfold Obligations.ResetHasInvariant
  exact ⟨resetWith_inv _ _ _ (by decide) (by decide) (by decide), resetWith_inv⟩

/-- Settles O5, by evaluation of the decoder on the fourteen words. -/
theorem specWordsDecode : Obligations.SpecWordsDecode := by
  unfold Obligations.SpecWordsDecode
  decide

end Sys2Proof.Machine

/-!
PROOFS. The rest of RV32I computation and the M extension (40_rv32i_compute.md, 43_m_muldiv.md): shifts by a register, the
bitwise and the comparing instructions, products, signed divisions, and the laws that tie the results together (R229).
-/

namespace Sys2Proof.Machine

/-! ### What an instruction writes (R154 to R158, R164 to R171)

As for the sums: each arm of `exec` is `writeResult` of a bit-vector value, stated as the statements state it. -/

section

variable (s : State) (rd rs1 rs2 : RegNum) (imm : BitVec 12)

theorem exec_sll :
    exec (.sll rd rs1 rs2) s = writeResult rd (BitVec.ofNat 32 ((s.x rs1).toNat * 2 ^ ((s.x rs2).toNat % 32))) s :=
  congrArg (writeResult rd · s) (shiftLeft_eq_ofNat (s.x rs1) _)

theorem exec_srl :
    exec (.srl rd rs1 rs2) s = writeResult rd (BitVec.ofNat 32 ((s.x rs1).toNat / 2 ^ ((s.x rs2).toNat % 32))) s :=
  congrArg (writeResult rd · s) (shiftRight_eq_ofNat (s.x rs1) _)

theorem exec_sra :
    exec (.sra rd rs1 rs2) s = writeResult rd (BitVec.ofInt 32 ((s.x rs1).toInt / 2 ^ ((s.x rs2).toNat % 32))) s :=
  congrArg (writeResult rd · s) (sshiftRight_eq_ofInt (s.x rs1) _)

theorem exec_xori : exec (.xori rd rs1 imm) s = writeResult rd (s.x rs1 ^^^ signExtended12 imm) s :=
  congrArg (fun v => writeResult rd (s.x rs1 ^^^ v) s) (imm12_eq_signExtended12 imm)

theorem exec_ori : exec (.ori rd rs1 imm) s = writeResult rd (s.x rs1 ||| signExtended12 imm) s :=
  congrArg (fun v => writeResult rd (s.x rs1 ||| v) s) (imm12_eq_signExtended12 imm)

theorem exec_andi : exec (.andi rd rs1 imm) s = writeResult rd (s.x rs1 &&& signExtended12 imm) s :=
  congrArg (fun v => writeResult rd (s.x rs1 &&& v) s) (imm12_eq_signExtended12 imm)

theorem exec_xor : exec (.xor rd rs1 rs2) s = writeResult rd (s.x rs1 ^^^ s.x rs2) s := rfl

theorem exec_or : exec (.or rd rs1 rs2) s = writeResult rd (s.x rs1 ||| s.x rs2) s := rfl

theorem exec_and : exec (.and rd rs1 rs2) s = writeResult rd (s.x rs1 &&& s.x rs2) s := rfl

theorem boolWord_lessSigned (a b : Word) : boolWord (lessSigned a b) = if a.toInt < b.toInt then 1#32 else 0#32 :=
  boolWord_decide _

theorem boolWord_lessUnsigned (a b : Word) : boolWord (lessUnsigned a b) = if a.toNat < b.toNat then 1#32 else 0#32 :=
  boolWord_decide _

theorem exec_slti :
    exec (.slti rd rs1 imm) s = writeResult rd (if (s.x rs1).toInt < imm.toInt then 1#32 else 0#32) s := by
  rw [← toInt_imm12 imm]
  exact congrArg (writeResult rd · s) (boolWord_lessSigned _ _)

theorem exec_sltiu :
    exec (.sltiu rd rs1 imm) s =
      writeResult rd (if (s.x rs1).toNat < (signExtended12 imm).toNat then 1#32 else 0#32) s := by
  rw [← imm12_eq_signExtended12 imm]
  exact congrArg (writeResult rd · s) (boolWord_lessUnsigned _ _)

theorem exec_slt :
    exec (.slt rd rs1 rs2) s = writeResult rd (if (s.x rs1).toInt < (s.x rs2).toInt then 1#32 else 0#32) s :=
  congrArg (writeResult rd · s) (boolWord_lessSigned _ _)

theorem exec_sltu :
    exec (.sltu rd rs1 rs2) s = writeResult rd (if (s.x rs1).toNat < (s.x rs2).toNat then 1#32 else 0#32) s :=
  congrArg (writeResult rd · s) (boolWord_lessUnsigned _ _)

end

/-- Settles O20: the shifts end by `writeResult` with a product or a quotient by two to the low five bits of `x[rs2]`. -/
theorem registerShifts : Obligations.RegisterShifts := by
  unfold Obligations.RegisterShifts
  rintro s rd rs1 rs2 _ rfl
  refine ⟨?sll, ?srl, ?sra⟩
  case sll => exact completes_of_exec_eq_writeResult (exec_sll s rd rs1 rs2)
  case srl => exact completes_of_exec_eq_writeResult (exec_srl s rd rs1 rs2)
  case sra => exact completes_of_exec_eq_writeResult (exec_sra s rd rs1 rs2)

/-- Settles O21: the six end by `writeResult` with their operation, the immediate extended as R10 says. -/
theorem bitwiseLogic : Obligations.BitwiseLogic := by
  unfold Obligations.BitwiseLogic
  refine fun s rd rs1 rs2 imm => ⟨?xori, ?ori, ?andi, ?xor, ?or, ?and⟩
  case xori => exact completes_of_exec_eq_writeResult (exec_xori s rd rs1 imm)
  case ori => exact completes_of_exec_eq_writeResult (exec_ori s rd rs1 imm)
  case andi => exact completes_of_exec_eq_writeResult (exec_andi s rd rs1 imm)
  case xor => exact completes_of_exec_eq_writeResult (exec_xor s rd rs1 rs2)
  case or => exact completes_of_exec_eq_writeResult (exec_or s rd rs1 rs2)
  case and => exact completes_of_exec_eq_writeResult (exec_and s rd rs1 rs2)

/-- Settles O22: the four end by `writeResult` with the word of their comparison. -/
theorem setLessThan : Obligations.SetLessThan := by
  unfold Obligations.SetLessThan
  refine fun s rd rs1 rs2 imm => ⟨?slti, ?sltiu, ?slt, ?sltu⟩
  case slti => exact completes_of_exec_eq_writeResult (exec_slti s rd rs1 imm)
  case sltiu => exact completes_of_exec_eq_writeResult (exec_sltiu s rd rs1 imm)
  case slt => exact completes_of_exec_eq_writeResult (exec_slt s rd rs1 rs2)
  case sltu => exact completes_of_exec_eq_writeResult (exec_sltu s rd rs1 rs2)

/-! ### Products and signed divisions (R221 to R225, R227) -/

/-- An unsigned product is below `2^64`. -/
theorem toNat_mul_toNat_lt (a b : Word) : a.toNat * b.toNat < 2 ^ 64 :=
  show a.toNat * b.toNat < 2 ^ 32 * 2 ^ 32 from Nat.mul_lt_mul'' a.isLt b.isLt

/-- The high word of an unsigned product. -/
theorem highWord_unsigned (a b : Word) :
    highWord ((a.toNat : Int) * (b.toNat : Int)) = BitVec.ofNat 32 (a.toNat * b.toNat / 2 ^ 32) := by
  have h := toNat_mul_toNat_lt a b
  rw [highWord_eq_ofInt, ← Int.natCast_mul, ← BitVec.ofInt_natCast]
  congr 1
  omega

section

variable (s : State) (rd rs1 rs2 : RegNum)

theorem exec_mul :
    exec (.mul rd rs1 rs2) s = writeResult rd (BitVec.ofNat 32 ((s.x rs1).toNat * (s.x rs2).toNat)) s :=
  congrArg (writeResult rd · s) (mul_eq_ofNat _ _)

theorem exec_mulh :
    exec (.mulh rd rs1 rs2) s =
      writeResult rd (BitVec.ofInt 32 (((s.x rs1).toInt * (s.x rs2).toInt) % 2 ^ 64 / 2 ^ 32)) s :=
  congrArg (writeResult rd · s) (highWord_eq_ofInt _)

theorem exec_mulhsu :
    exec (.mulhsu rd rs1 rs2) s =
      writeResult rd (BitVec.ofInt 32 (((s.x rs1).toInt * (s.x rs2).toNat) % 2 ^ 64 / 2 ^ 32)) s :=
  congrArg (writeResult rd · s) (highWord_eq_ofInt _)

theorem exec_mulhu :
    exec (.mulhu rd rs1 rs2) s = writeResult rd (BitVec.ofNat 32 ((s.x rs1).toNat * (s.x rs2).toNat / 2 ^ 32)) s :=
  congrArg (writeResult rd · s) (highWord_unsigned _ _)

theorem exec_div :
    exec (.div rd rs1 rs2) s = writeResult rd (if s.x rs2 = 0#32 then 0xFFFFFFFF#32
      else if s.x rs1 = 0x80000000#32 ∧ s.x rs2 = 0xFFFFFFFF#32 then 0x80000000#32
      else BitVec.ofInt 32 ((s.x rs1).toInt.tdiv (s.x rs2).toInt)) s :=
  congrArg (writeResult rd · s) (divSigned_eq _ _)

theorem exec_rem :
    exec (.rem rd rs1 rs2) s = writeResult rd (if s.x rs2 = 0#32 then s.x rs1
      else if s.x rs1 = 0x80000000#32 ∧ s.x rs2 = 0xFFFFFFFF#32 then 0#32
      else BitVec.ofInt 32 ((s.x rs1).toInt.tmod (s.x rs2).toInt)) s :=
  congrArg (writeResult rd · s) (remSigned_eq _ _)

end

/-- Settles O23: the four end by `writeResult` with the low word, or the high word of the exact product. -/
theorem multiplyResults : Obligations.MultiplyResults := by
  unfold Obligations.MultiplyResults
  rintro s rd rs1 rs2 _ _ rfl rfl
  refine ⟨?mul, ?mulh, ?mulhsu, ?mulhu⟩
  case mul => exact completes_of_exec_eq_writeResult (exec_mul s rd rs1 rs2)
  case mulh => exact completes_of_exec_eq_writeResult (exec_mulh s rd rs1 rs2)
  case mulhsu => exact completes_of_exec_eq_writeResult (exec_mulhsu s rd rs1 rs2)
  case mulhu => exact completes_of_exec_eq_writeResult (exec_mulhu s rd rs1 rs2)

/-- Settles O25: DIV and REM end by `writeResult` with the value of `divSigned_eq` and `remSigned_eq`. -/
theorem signedDivision : Obligations.SignedDivision := by
  unfold Obligations.SignedDivision
  rintro s rd rs1 rs2 _ _ rfl rfl
  exact ⟨completes_of_exec_eq_writeResult (exec_div s rd rs1 rs2),
    completes_of_exec_eq_writeResult (exec_rem s rd rs1 rs2)⟩

/-! ### The laws of R229 -/

/-- A word as a signed integer. -/
theorem toInt_range (a : Word) : -2147483648 ≤ a.toInt ∧ a.toInt < 2147483648 :=
  ⟨BitVec.le_toInt a, BitVec.toInt_lt⟩

theorem toInt_ofInt_of_range {n : Int} (h : -2147483648 ≤ n ∧ n < 2147483648) : (BitVec.ofInt 32 n).toInt = n :=
  BitVec.toInt_ofInt_eq_self (by decide) h.1 h.2

/-- The rounded quotient is a word unless it is the overflow of R225. -/
theorem tdiv_range {a b : Int} (ha : -2147483648 ≤ a ∧ a < 2147483648) (hb : b ≠ 0)
    (h : ¬ (a = -2147483648 ∧ b = -1)) : -2147483648 ≤ a.tdiv b ∧ a.tdiv b < 2147483648 := by
  have hq : (a.tdiv b).natAbs = a.natAbs / b.natAbs := Int.natAbs_tdiv a b
  by_cases h1 : b.natAbs = 1
  · rcases Int.natAbs_eq b with e | e <;> rw [h1] at e <;> subst e
    · simp only [Nat.cast_one, Int.tdiv_one]
      exact ha
    · simp only [Nat.cast_one, Int.tdiv_neg, Int.tdiv_one]
      omega
  · have hle : a.natAbs / b.natAbs ≤ a.natAbs / 2 := Nat.div_le_div_left (by omega) (by decide)
    omega

/-- The remainder is below the divisor. -/
theorem natAbs_tmod_lt (a : Int) {b : Int} (hb : b ≠ 0) : (a.tmod b).natAbs < b.natAbs := by
  rw [Int.natAbs_tmod]
  exact Nat.mod_lt _ (by omega)

theorem tmod_sign (a b : Int) : a.tmod b = 0 ∨ (0 < a.tmod b ↔ 0 < a) := by
  rcases Int.lt_or_le a 0 with h | h
  · have hneg : 0 ≤ -(a.tmod b) := by
      rw [← Int.neg_tmod]
      exact Int.tmod_nonneg b (by omega)
    omega
  · have hpos := Int.tmod_nonneg b h
    rcases Int.lt_or_eq_of_le h with hlt | rfl
    · omega
    · exact .inl (Int.zero_tmod b)

/-- Law 1: where no special case applies. -/
theorem signed_division_law {a b : Word} (hb : b ≠ 0#32) (h : ¬ (a = 0x80000000#32 ∧ b = 0xFFFFFFFF#32)) :
    (divSigned a b).toInt = a.toInt.tdiv b.toInt ∧ (remSigned a b).toInt = a.toInt.tmod b.toInt := by
  have hb0 : b.toInt ≠ 0 := mt (toInt_eq_zero_iff b).1 hb
  have hr := natAbs_tmod_lt a.toInt hb0
  have hbr := toInt_range b
  rw [divSigned_eq, remSigned_eq, if_neg hb, if_neg hb, if_neg h, if_neg h]
  refine ⟨toInt_ofInt_of_range (tdiv_range (toInt_range a) hb0 ?_), toInt_ofInt_of_range (by omega)⟩
  rwa [toInt_eq_min_iff, toInt_eq_neg_one_iff]

/-- Law 2. -/
theorem unsigned_division_law {a b : Word} (hb : b ≠ 0#32) :
    (divUnsigned a b).toNat = a.toNat / b.toNat ∧ (remUnsigned a b).toNat = a.toNat % b.toNat := by
  have hb0 : b.toNat ≠ 0 := fun h => hb (BitVec.eq_of_toNat_eq h)
  have hq : a.toNat / b.toNat < 2 ^ 32 := Nat.lt_of_le_of_lt (Nat.div_le_self _ _) a.isLt
  have hr : a.toNat % b.toNat < 2 ^ 32 := Nat.lt_of_le_of_lt (Nat.mod_le _ _) a.isLt
  simp only [divUnsigned, remUnsigned, if_neg hb0, BitVec.toNat_ofNat]
  exact ⟨Nat.mod_eq_of_lt hq, Nat.mod_eq_of_lt hr⟩

/-- Law 4, the high word read as signed: of an exact product that fits in 64 bits signed. -/
theorem highWord_signed_law {p : Int} (h : -2 ^ 63 ≤ p ∧ p < 2 ^ 63) :
    (highWord p).toInt * 2 ^ 32 + p % 2 ^ 32 = p := by
  have hh := highWord_toNat p
  rw [BitVec.toInt_eq_toNat_cond]
  split <;> omega

/-- The low word of a product, whichever integers the operands stand for. -/
theorem mul_toNat_of_ofInt {a b : Word} {m n : Int} (ha : BitVec.ofInt 32 m = a) (hb : BitVec.ofInt 32 n = b) :
    ((a * b).toNat : Int) = (m * n) % 2 ^ 32 := by
  have h : 0 ≤ (m * n) % 2 ^ 32 := Int.emod_nonneg _ (by decide)
  rw [← ha, ← hb, ← BitVec.ofInt_mul, BitVec.toNat_ofInt]
  exact Int.toNat_of_nonneg h

theorem mul_range {m n : Int} (hm : m.natAbs ≤ 2 ^ 31) (hn : n.natAbs < 2 ^ 32) : -2 ^ 63 ≤ m * n ∧ m * n < 2 ^ 63 := by
  have h : m.natAbs * n.natAbs ≤ 2 ^ 31 * (2 ^ 32 - 1) := Nat.mul_le_mul hm (by omega)
  rw [← Int.natAbs_mul] at h
  omega

/-- Settles O26: the results are the quotient and the remainder of the integers, and the two words of the exact product. -/
theorem mulDivLaws : Obligations.MulDivLaws := by
  unfold Obligations.MulDivLaws
  intro a b
  have hra := toInt_range a
  have hrb := toInt_range b
  refine ⟨fun hb h => ?signed, fun hb => ?unsigned, fun h => ?special, ?mulhu, ?mulh, ?mulhsu⟩
  case signed =>
    obtain ⟨hq, hr⟩ := signed_division_law hb h
    rw [hq, hr]
    exact ⟨Int.tdiv_mul_add_tmod _ _, natAbs_tmod_lt _ (mt (toInt_eq_zero_iff b).1 hb), tmod_sign _ _⟩
  case unsigned =>
    obtain ⟨hq, hr⟩ := unsigned_division_law (a := a) hb
    rw [hq, hr]
    exact ⟨Nat.div_add_mod' _ _, Nat.mod_lt _ (Nat.pos_of_ne_zero fun h => hb (BitVec.eq_of_toNat_eq h))⟩
  case special =>
    rw [divSigned_eq, remSigned_eq]
    rcases h with rfl | ⟨rfl, rfl⟩
    · simp
    · decide
  case mulhu =>
    have hlt := toNat_mul_toNat_lt a b
    rw [highWord_unsigned, BitVec.toNat_ofNat, BitVec.toNat_mul, Nat.mod_eq_of_lt (by omega)]
    omega
  case mulh =>
    rw [mul_toNat_of_ofInt (BitVec.ofInt_toInt (x := a)) (BitVec.ofInt_toInt (x := b))]
    exact highWord_signed_law (mul_range (by omega) (by omega))
  case mulhsu =>
    have hb := b.isLt
    rw [mul_toNat_of_ofInt (BitVec.ofInt_toInt (x := a)) (ofInt_toNat b)]
    exact highWord_signed_law (mul_range (by omega) (by omega))

end Sys2Proof.Machine

/-!
PROOFS. Control transfer, environment calls and the trap return (41_rv32i_control.md, 46_system.md): jumps and branches with
the alignment test of R180, and an MRET as the way back from a trap entry (R315).
-/

namespace Sys2Proof.Machine

open State

/-! ### Jumps (R180 to R182) -/

/-- A jump that links: the target is tested before anything is written. -/
theorem link_and_jump {o : Out} {s : State} {rd : RegNum} {target : Word}
    (h : o = if aligned4 target then retire ((s.setX rd (s.pc + 4#32)).setPc target)
      else raiseException .instructionAddressMisaligned target s) :
    (target.toNat % 4 = 0 → ∃ t, o = .next t ∧ Completes s t rd (s.pc + 4#32) target) ∧
    (target.toNat % 4 ≠ 0 → ∃ t, o = .next t ∧ Raises s t 0#32 target) := by
  rw [← aligned4_iff, ne_eq, ← aligned4_iff]
  refine ⟨fun ha => ?aligned, fun ha => ?misaligned⟩
  case aligned =>
    rw [h, if_pos ha]
    exact ⟨_, rfl, completes_retired s rd _ _⟩
  case misaligned =>
    rw [h, if_neg ha]
    exact raiseException_raises .instructionAddressMisaligned target s

/-- Settles O27: JAL is `link_and_jump` to `pc` plus its offset. -/
theorem jalLinksAndJumps : Obligations.JalLinksAndJumps := by
  unfold Obligations.JalLinksAndJumps
  rintro s rd offset _ rfl
  rw [← jalTarget_eq]
  exact link_and_jump rfl

/-- Settles O28: JALR is `link_and_jump` to the sum with bit 0 cleared, the base read before the link is written. -/
theorem jalrLinksAndJumps : Obligations.JalrLinksAndJumps := by
  unfold Obligations.JalrLinksAndJumps
  rintro s rd rs1 imm _ _ rfl rfl
  rw [← jalrTarget_eq]
  exact link_and_jump rfl

/-! ### Branches (R183 to R189) -/

/-- A meaning that is `branch` on a condition follows the common rule. -/
theorem branchRule_of_branch {run : State → Out} {cond : State → Bool} {taken : State → Prop} {offset : BitVec 13}
    (hrun : ∀ s, run s = branch (cond s) offset s) (hcond : ∀ s, cond s = true ↔ taken s) :
    BranchRule run taken offset := by
  rintro s _ rfl
  rw [hrun, ← hcond, ← branchTarget_eq, ne_eq, ← aligned4_iff, branch]
  refine ⟨fun hc => ?notTaken, fun hc ha => ?aligned, fun hc ha => ?misaligned⟩
  case notTaken =>
    rw [if_neg hc]
    exact ⟨_, rfl, advances_retired s _⟩
  case aligned =>
    rw [if_pos hc, if_pos ha]
    exact ⟨_, rfl, advances_retired s _⟩
  case misaligned =>
    rw [if_pos hc, if_neg ha]
    exact raiseException_raises .instructionAddressMisaligned _ s

theorem not_lessSigned_iff (a b : Word) : (!lessSigned a b) = true ↔ b.toInt ≤ a.toInt := by
  simp [lessSigned]

theorem not_lessUnsigned_iff (a b : Word) : (!lessUnsigned a b) = true ↔ b.toNat ≤ a.toNat := by
  simp [lessUnsigned]

/-- Settles O29: each branch is `branch` on its own comparison. -/
theorem branchesFollowTheirCondition : Obligations.BranchesFollowTheirCondition := by
  unfold Obligations.BranchesFollowTheirCondition
  refine fun rs1 rs2 offset => ⟨?beq, ?bne, ?blt, ?bge, ?bltu, ?bgeu⟩
  case beq => exact branchRule_of_branch (fun _ => rfl) fun _ => beq_iff_eq
  case bne => exact branchRule_of_branch (fun _ => rfl) fun _ => bne_iff_ne
  case blt => exact branchRule_of_branch (fun _ => rfl) fun _ => lessSigned_iff _ _
  case bge => exact branchRule_of_branch (fun _ => rfl) fun _ => not_lessSigned_iff _ _
  case bltu => exact branchRule_of_branch (fun _ => rfl) fun _ => lessUnsigned_iff _ _
  case bgeu => exact branchRule_of_branch (fun _ => rfl) fun _ => not_lessUnsigned_iff _ _

/-! ### Environment calls and the trap return (R281, R282, R284) -/

/-- Settles O53: both are a raise with `mtval` 0, each of its own exception. -/
theorem environmentCallAndBreakpoint : Obligations.EnvironmentCallAndBreakpoint := by
  unfold Obligations.EnvironmentCallAndBreakpoint
  exact fun s rs1 rd => ⟨raiseException_raises .machineModeEnvCall 0#32 s, raiseException_raises .breakpoint 0#32 s⟩

/-- `mstatus` after an MRET, bit by bit; above bit 31 there is nothing. -/
theorem mstatusOnMret_other_bit (m : Word) {k : Nat} (h : k ∉ [3, 7, 11, 12]) :
    (mstatusOnMret m).getLsbD k = m.getLsbD k := by
  simp only [List.mem_cons, List.not_mem_nil, or_false, not_or] at h
  by_cases hk : k < 32
  · simp [mstatusOnMret_bit m k hk, h]
  · rw [BitVec.getLsbD_of_ge _ _ (by omega), BitVec.getLsbD_of_ge _ _ (by omega)]

/-- An operation that leaves the four counters alone, then the counter step. -/
theorem countedOnce_of_kept {s u : State} (h : ∀ a ∈ counterCsrs, u.csr a = s.csr a) : CountedOnce s (counterStep u) := by
  obtain ⟨hcycle, hlow, hhigh⟩ := counterStep_counts u
  refine ⟨hcycle.trans ?_, hlow, hhigh⟩
  rw [cycleCount, cycleCount, h 0xB80 (by decide), h 0xB00 (by decide)]

/-- Settles O54: the trap return, with `mstatus` bit by bit, and then the counter step. -/
theorem mretRestoresTheStatus : Obligations.MretRestoresTheStatus := by
  unfold Obligations.MretRestoresTheStatus
  intro s rs2 rs1 rd
  have hstatus : (counterStep (trapReturn s)).csr 0x300 = mstatusOnMret (s.csr 0x300) := by
    rw [counterStep_csr_other _ (by decide), trapReturn_csr, if_pos rfl]
  have hother : ∀ a, a ≠ 0x300 → (trapReturn s).csr a = s.csr a := fun a ha => by rw [trapReturn_csr, if_neg ha]
  have bit := fun k hk => mstatusOnMret_bit (s.csr 0x300) k hk
  have e := counterStep_cycleEnds (trapReturn s)
  refine ⟨counterStep (trapReturn s), rfl, e.pc, e.mode.priv, ?_⟩
  rw [hstatus]
  refine ⟨bit 3 (by decide), bit 7 (by decide), bit 11 (by decide), bit 12 (by decide), fun k => mstatusOnMret_other_bit _,
    ?csrs, ?counted, e.regs, e.memory, e.reservation, ⟨e.devices.mtimecmp, e.devices.uartOut, e.devices.clock⟩,
    e.mode.run, e.mode.cfg⟩
  case csrs =>
    intro a ha
    simp only [List.mem_cons, not_or] at ha
    rw [counterStep_csr_other _ ha.2, hother a ha.1]
  case counted =>
    exact countedOnce_of_kept fun a ha => hother a (by rintro rfl; exact absurd ha (by decide))

theorem CsrsKept.trans_append {l m : List Nat} {s t u : State} (h : CsrsKept l s t) (h' : CsrsKept m t u) :
    CsrsKept (l ++ m) s u :=
  (h.mono (List.subset_append_left l m)).trans (h'.mono (List.subset_append_right l m))

/-- Settles O55: what MRET does (O54) to the state that the trap entry (`trap_entered`) left. -/
theorem mretUndoesATrap : Obligations.MretUndoesATrap := by
  unfold Obligations.MretUndoesATrap
  rintro s _ cause tval rs2 rs1 rd hpriv hv rfl
  have e := trap_entered cause tval s
  obtain ⟨t, hx, hpc, htpriv, h3, -, -, -, hrest, hcsrs, -, hregs, hmem, hres, hdev, hrun, hcfg⟩ :=
    mretRestoresTheStatus (trap cause tval s) rs2 rs1 rd
  have hmie : (t.csr 0x300).getLsbD 3 = (s.csr 0x300).getLsbD 3 := h3.trans e.mpie
  refine ⟨t, hx, hpc.trans e.mepc, hmie, fun k hk => ?mstatus, ?csrs, fun r hr => (hregs r hr).trans (e.regs r hr),
    fun a => (hmem a).trans (e.memory a), hres.trans e.reservation,
    ⟨hdev.mtimecmp.trans e.devices.mtimecmp, hdev.uartOut.trans e.devices.uartOut, hdev.clock.trans e.devices.clock⟩,
    ⟨htpriv.trans hpriv.symm, hrun.trans (e.vectored hv).2, hcfg.trans e.cfg⟩⟩
  case mstatus =>
    simp only [List.mem_cons, List.not_mem_nil, or_false, not_or] at hk
    obtain ⟨hk7, hk11, hk12⟩ := hk
    by_cases hk3 : k = 3
    · rwa [hk3]
    by_cases hk32 : k < 32
    · exact (hrest k (by simp; omega)).trans (e.mstatusRest k hk32 hk3 hk7 hk11 hk12)
    · rw [BitVec.getLsbD_of_ge _ _ (by omega), BitVec.getLsbD_of_ge _ _ (by omega)]
  case csrs => exact (e.csrs.trans_append hcsrs).mono (by decide)

end Sys2Proof.Machine

/-!
PROOFS. Loads, stores and atomics (42_rv32i_loadstore_fence.md, 44_a_atomic.md, 20_memory.md). An instruction that accesses
memory is its access and what it does with a value (`exec_reads`, `exec_stores`, `exec_atomicAt`); every other answer of the
bus is the end of the instruction (`EndsWith`).
-/

namespace Sys2Proof.Machine

open State

/-! ### An access that gives no value (R200, R309) -/

/-- The instruction begun in `s` ends as an access that gave no value: raised, halted or refused. -/
structure EndsWith {α : Type} (s : State) (access : Eff α) (o : Out) : Prop where
  raise : ∀ e tval, access = .raise e tval → ∃ t, o = .next t ∧ Raises s t e.code tval
  halt : ∀ u, access = .halt u → o = .next u
  refuse : ∀ r, access = .refuse r → o = .refused r

theorem endsWith_finish {α : Type} (s : State) (access : Eff α) (k : α → State → Eff Unit) :
    EndsWith s access (finish s (access.andThen k)) where
  raise e tval h := by
    rw [h]
    exact finish_raise s e tval
  halt u h := by
    rw [h]
    rfl
  refuse r h := by
    rw [h]
    rfl

/-! ### Which access an instruction makes (R91, R240) -/

section

variable {i : Instr} {s : State} {w : Width} {a : Word}

theorem atomicAddress_of_amoForm {f : AmoForm} (hf : amoForm i = some f) : atomicAddress i s = some (s.x f.rs1) := by
  cases i <;> simp only [amoForm, reduceCtorEq, Option.some.injEq] at hf <;> subst hf <;> rfl

theorem readAccess_of_amoForm {f : AmoForm} (hf : amoForm i = some f) : readAccess i s = some (.word, s.x f.rs1) := by
  cases i <;> simp only [amoForm, reduceCtorEq, Option.some.injEq] at hf <;> subst hf <;> rfl

/-- Every atomic tests its address first (R240). -/
theorem exec_atomicAt (h : atomicAddress i s = some a) : ∃ e, exec i s = atomicAt a s e := by
  cases hf : amoForm i with
  | some f =>
    obtain rfl := Option.some.inj ((atomicAddress_of_amoForm hf).symm.trans h)
    rw [exec_amo hf]
    exact ⟨_, rfl⟩
  | none =>
    cases i <;> simp only [atomicAddress, hf, Option.map_none, reduceCtorEq, Option.some.injEq] at h
    case lrW => exact h ▸ ⟨_, rfl⟩
    case scW => exact h ▸ ⟨_, rfl⟩

/-- A load, LR.W or AMO begins with its read, an atomic once its address is aligned. -/
theorem exec_reads (h : readAccess i s = some (w, a)) (ha : ∀ b, atomicAddress i s = some b → b.toNat % 4 = 0) :
    ∃ k, exec i s = finish s ((memRead w a s).andThen k) := by
  cases hf : amoForm i with
  | some f =>
    obtain ⟨rfl, rfl⟩ := Prod.mk.inj (Option.some.inj ((readAccess_of_amoForm hf).symm.trans h))
    rw [exec_amo hf, amo, atomicAt_aligned _ _ (ha _ (atomicAddress_of_amoForm hf))]
    exact ⟨_, rfl⟩
  | none =>
    cases i <;>
      simp only [readAccess, hf, Option.map_none, reduceCtorEq, Option.some.injEq, Prod.mk.injEq] at h <;>
      obtain ⟨rfl, rfl⟩ := h
    case lrW rd rs1 rs2 aq rl =>
      rw [exec, execLrW, atomicAt_aligned _ _ (ha _ rfl)]
      exact ⟨_, rfl⟩
    case lb | lbu | lh | lhu | lw => exact ⟨_, rfl⟩

/-- SC.W with the reservation held begins with its write. -/
theorem exec_scW_of_held {rd rs1 rs2 : RegNum} {aq rl : Bool} (ha : (s.x rs1).toNat % 4 = 0) (hr : s.reservation = true) :
    ∃ k, exec (.scW rd rs1 rs2 aq rl) s = finish s ((memWrite .word (s.x rs1) (s.x rs2) s).andThen k) := by
  rw [exec, execScW, atomicAt_aligned _ _ ha, if_pos hr]
  exact ⟨_, rfl⟩

/-- A store, or an SC.W with the reservation held, begins with its write, the latter once its address is aligned. -/
theorem exec_stores (h : storeAccess i s = some (w, a)) (ha : ∀ b, atomicAddress i s = some b → b.toNat % 4 = 0) :
    ∃ v k, exec i s = finish s ((memWrite w a v s).andThen k) := by
  cases i <;> simp only [storeAccess, reduceCtorEq, Option.some.injEq, Prod.mk.injEq] at h
  case sb | sh | sw =>
    obtain ⟨rfl, rfl⟩ := h
    exact ⟨_, _, rfl⟩
  case scW rd rs1 rs2 aq rl =>
    split at h
    · next hr =>
      obtain ⟨rfl, rfl⟩ := Prod.mk.inj (Option.some.inj h)
      exact ⟨_, exec_scW_of_held (ha _ rfl) hr⟩
    · cases h

end

/-! ### Faults and null reads (R81, R84, R240, R314) -/

/-- Settles O32: the read comes first, past `END` it raises and at 0 it halts. -/
theorem readFaultsAndNullReads : Obligations.ReadFaultsAndNullReads := by
  unfold Obligations.ReadFaultsAndNullReads
  intro i s w a h ha
  obtain ⟨k, hx⟩ := exec_reads h ha
  have ends := endsWith_finish s (memRead w a s) k
  rw [hx]
  refine ⟨fun hb => ends.raise _ _ (memRead_beyond hb), ?null⟩
  case null =>
    rintro hb rfl
    exact ⟨_, ends.halt _ (memRead_null hb), rfl⟩

/-- Settles O35: the write comes first, and past `END` it raises. -/
theorem storeFaults : Obligations.StoreFaults := by
  unfold Obligations.StoreFaults
  intro i s w a h ha hb
  obtain ⟨v, k, hx⟩ := exec_stores h ha
  rw [hx]
  exact (endsWith_finish s (memWrite w a v s) k).raise _ _ (memWrite_beyond v hb)

/-- Settles O47: the alignment test comes before everything else. -/
theorem misalignedAtomics : Obligations.MisalignedAtomics := by
  unfold Obligations.MisalignedAtomics
  intro i s a h ha
  obtain ⟨e, hx⟩ := exec_atomicAt h
  rw [hx]
  exact atomicAt_misaligned s e ha

/-! ### Loads (R201 to R205) -/

/-- Settles O31: a value read is extended as `sext8_eq` and the lemmas beside it say; the other answers are `EndsWith`. -/
theorem loadsFollowTheBus : Obligations.LoadsFollowTheBus := by
  unfold Obligations.LoadsFollowTheBus
  rintro s u rd rs1 imm _ v rfl
  refine ⟨fun h => sext8_eq v ▸ load_ok h, fun h => sext16_eq v ▸ load_ok h, fun h => load_ok h,
    fun h => zext8_eq v ▸ load_ok h, fun h => zext16_eq v ▸ load_ok h, fun i w addr h hn => ?others⟩
  case others =>
    obtain ⟨k, hx⟩ := exec_reads h (fun b hb => by rw [hn] at hb; cases hb)
    have ends := endsWith_finish s (memRead w addr s) k
    rw [hx]
    exact ⟨ends.raise, ends.halt u, ends.refuse⟩

/-- The signed value of two bytes (R83, R202). -/
theorem toInt_two_bytes (b0 b1 : Byte) :
    (BitVec.ofNat 16 (b1.toNat * 2 ^ 8 + b0.toNat)).toInt = b1.toInt * 2 ^ 8 + b0.toNat := by
  have h0 := b0.isLt
  have h1 := b1.isLt
  rw [BitVec.toInt_eq_toNat_cond, BitVec.toInt_eq_toNat_cond b1, BitVec.toNat_ofNat, Nat.mod_eq_of_lt (by omega)]
  split <;> split <;> omega

section

variable (s : State) (a : Nat)

theorem sext8_ramRead : sext8 (s.ramRead .byte a) = BitVec.ofInt 32 (s.byte a).toInt := by
  rw [sext8_eq, ramRead_byte_toNat, BitVec.ofNat_toNat, BitVec.setWidth_eq]

theorem zext8_ramRead : zext8 (s.ramRead .byte a) = BitVec.ofNat 32 (s.byte a).toNat := by
  rw [zext8_eq, ramRead_byte_toNat, Nat.mod_eq_of_lt (s.byte a).isLt]

theorem sext16_ramRead :
    sext16 (s.ramRead .half a) = BitVec.ofInt 32 ((s.byte (a + 1)).toInt * 2 ^ 8 + (s.byte a).toNat) := by
  rw [sext16_eq, ramRead_half_toNat, toInt_two_bytes]

theorem zext16_ramRead :
    zext16 (s.ramRead .half a) = BitVec.ofNat 32 ((s.byte (a + 1)).toNat * 2 ^ 8 + (s.byte a).toNat) := by
  have h0 := (s.byte a).isLt
  have h1 := (s.byte (a + 1)).isLt
  rw [zext16_eq, ramRead_half_toNat, Nat.mod_eq_of_lt (by omega)]

end

/-- Settles O30: the bus gives the bytes of RAM, and a load extends them. -/
theorem ramLoads : Obligations.RamLoads := by
  unfold Obligations.RamLoads
  rintro s rd rs1 imm _ _ _ rfl h0 rfl rfl
  refine ⟨fun h => ?lb, fun h => ?lbu, fun h => ?lh, fun h => ?lhu, fun h => ?lw⟩
  case lb => exact sext8_ramRead s _ ▸ load_ok (memRead_ram h h0)
  case lbu => exact zext8_ramRead s _ ▸ load_ok (memRead_ram h h0)
  case lh => exact sext16_ramRead s _ ▸ load_ok (memRead_ram h h0)
  case lhu => exact zext16_ramRead s _ ▸ load_ok (memRead_ram h h0)
  case lw => exact load_ok (memRead_ram h h0)

/-! ### Stores (R206 to R208) -/

/-- Settles O33: each is a store of its width to RAM. -/
theorem ramStores : Obligations.RamStores := by
  unfold Obligations.RamStores
  rintro s rs2 rs1 imm _ rfl
  exact ⟨store_ram, store_ram, store_ram⟩

/-- Settles O34: a write that answered leaves only `pc` and the counters; the other answers are `EndsWith`. -/
theorem storesFollowTheBus : Obligations.StoresFollowTheBus := by
  unfold Obligations.StoresFollowTheBus
  intro s u rs2 rs1 imm i w hi
  have hx : exec i s = store w rs2 rs1 imm s := by
    simp only [List.mem_cons, List.not_mem_nil, or_false, Prod.mk.injEq] at hi
    rcases hi with ⟨rfl, rfl⟩ | ⟨rfl, rfl⟩ | ⟨rfl, rfl⟩ <;> rfl
  have ends := endsWith_finish s (memWrite w (effectiveAddress (s.x rs1) imm) (s.x rs2) s) fun _ t => .ok () t.advancePc
  rw [hx]
  exact ⟨fun h => ⟨_, store_ok h, advances_retired u _⟩, ends.raise, ends.halt u, ends.refuse⟩

/-! ### Atomics (R240 to R252) -/

theorem lrW_ok {s u : State} {rd rs1 rs2 : RegNum} {aq rl : Bool} {v : Word} (ha : (s.x rs1).toNat % 4 = 0)
    (h : memRead .word (s.x rs1) s = .ok v u) :
    exec (.lrW rd rs1 rs2 aq rl) s =
      .next (counterStep (((u.setX rd v).setReservation true).setPc (s.pc + 4#32))) := by
  obtain ⟨-, hp, -⟩ := memRead_ok_kept h
  simp [exec, execLrW, atomicAt_aligned _ _ ha, h, Eff.andThen, finish, retire, hp]

theorem scW_ok {s z : State} {rd rs1 rs2 : RegNum} {aq rl : Bool} (ha : (s.x rs1).toNat % 4 = 0)
    (hr : s.reservation = true) (h : memWrite .word (s.x rs1) (s.x rs2) s = .ok () z) :
    exec (.scW rd rs1 rs2 aq rl) s =
      .next (counterStep (((z.setX rd 0#32).setReservation false).setPc (s.pc + 4#32))) := by
  obtain ⟨-, hp, -⟩ := memWrite_ok_kept h
  simp [exec, execScW, atomicAt_aligned _ _ ha, hr, h, Eff.andThen, finish, retire, hp]

/-- SC.W without the reservation makes no access (R242). -/
theorem scW_not_held {s : State} {rd rs1 rs2 : RegNum} {aq rl : Bool} (ha : (s.x rs1).toNat % 4 = 0)
    (hr : s.reservation = false) :
    exec (.scW rd rs1 rs2 aq rl) s = .next (counterStep ((s.setX rd 1#32).setPc (s.pc + 4#32))) := by
  simp [exec, execScW, atomicAt_aligned _ _ ha, hr, finish, retire]

/-- Settles O43: the read of an aligned nonzero word of RAM answers the word, in the same state. -/
theorem loadReserved : Obligations.LoadReserved := by
  unfold Obligations.LoadReserved
  rintro s rd rs1 rs2 aq rl _ rfl ha h0 hr
  exact ⟨_, lrW_ok ha (memRead_ram hr h0), completes_reserving s rd _ _ true⟩

/-- Settles O44: with the reservation the write to RAM answers, without it there is no access. -/
theorem storeConditional : Obligations.StoreConditional := by
  unfold Obligations.StoreConditional
  rintro s rd rs1 rs2 aq rl _ rfl ha
  exact ⟨fun hres hr => ⟨_, scW_ok ha hres (memWrite_ram _ hr), atomicStores_reserving s rd _ _ _ _ false⟩,
    fun hres => ⟨_, scW_not_held ha hres, completes_retired s rd _ _⟩⟩

theorem setReservation_self {s : State} {b : Bool} (h : s.reservation = b) : s.setReservation b = s := by
  subst h
  rfl

/-- Settles O45: the read answers the old word, the write to RAM answers too, and the reservation stays as it was. -/
theorem amosInRam : Obligations.AmosInRam := by
  unfold Obligations.AmosInRam
  rintro i f s _ hf rfl ha h0 hr
  have h := atomicStores_reserving s f.rd (wordAt s (s.x f.rs1).toNat) (f.op (wordAt s (s.x f.rs1).toNat) (s.x f.rs2))
    (s.pc + 4#32) (s.x f.rs1).toNat s.reservation
  rw [setReservation_self (by simp)] at h
  exact ⟨_, (exec_amo hf s).trans (amo_ok ha (memRead_ram hr h0) (memWrite_ram _ hr)), h⟩

/-- An AMO whose read answered goes on with its write (R243). -/
theorem exec_amo_of_read {i : Instr} {f : AmoForm} {s u : State} {v : Word} (hf : amoForm i = some f)
    (ha : (s.x f.rs1).toNat % 4 = 0) (h : memRead .word (s.x f.rs1) s = .ok v u) :
    ∃ k, exec i s = finish s ((memWrite .word (s.x f.rs1) (f.op v (s.x f.rs2)) u).andThen k) := by
  rw [exec_amo hf, amo, atomicAt_aligned _ _ ha, h]
  exact ⟨_, rfl⟩

/-- Settles O46: the accesses that answer, of LR.W, of SC.W and of an AMO; every other answer is `EndsWith`. -/
theorem atomicsFollowTheBus : Obligations.AtomicsFollowTheBus := by
  unfold Obligations.AtomicsFollowTheBus
  intro s a ha
  refine ⟨?lrW, ?scW, ?amo⟩
  case lrW =>
    rintro rd rs1 rs2 aq rl rfl
    have read : readAccess (.lrW rd rs1 rs2 aq rl) s = some (.word, s.x rs1) := rfl
    obtain ⟨k, hx⟩ := exec_reads read (fun b hb => Option.some.inj hb ▸ ha)
    have ends := endsWith_finish s (memRead .word (s.x rs1) s) k
    refine ⟨fun v u h => ⟨_, lrW_ok ha h, completes_reserving u rd v _ true⟩, ?_⟩
    rw [hx]
    exact ⟨ends.raise, ends.halt, ends.refuse⟩
  case scW =>
    rintro rd rs1 rs2 aq rl rfl hres
    obtain ⟨k, hx⟩ := exec_scW_of_held ha hres
    have ends := endsWith_finish s (memWrite .word (s.x rs1) (s.x rs2) s) k
    refine ⟨fun z h => ⟨_, scW_ok ha hres h, completes_reserving z rd _ _ false⟩, ?_⟩
    rw [hx]
    exact ⟨ends.raise, ends.halt, ends.refuse⟩
  case amo =>
    rintro i f hf rfl
    obtain ⟨k, hx⟩ := exec_reads (readAccess_of_amoForm hf) fun b hb =>
      Option.some.inj ((atomicAddress_of_amoForm hf).symm.trans hb) ▸ ha
    have ends := endsWith_finish s (memRead .word (s.x f.rs1) s) k
    rw [← hx] at ends
    refine ⟨fun v u h => ?write, ends.raise, ends.halt, ends.refuse⟩
    case write =>
      obtain ⟨k', hx'⟩ := exec_amo_of_read hf ha h
      have ends' := endsWith_finish s (memWrite .word (s.x f.rs1) (f.op v (s.x f.rs2)) u) k'
      rw [← hx'] at ends'
      exact ⟨fun z hw => ⟨_, (exec_amo hf s).trans (amo_ok ha h hw), completes_retired z f.rd v _⟩, ends'.halt,
        ends'.refuse⟩

end Sys2Proof.Machine

/-!
PROOFS. What RAM holds after a store (20_memory.md R83, R100): a narrow read of part of a stored word, and the fetch of one.
-/

namespace Sys2Proof.Machine

open State

/-! ### Narrow reads (R83) -/

/-- Byte `j` of a value as an integer. -/
theorem extract_byte_toNat (v : Word) (j : Nat) : (v.extractLsb' (8 * j) 8).toNat = v.toNat / 2 ^ (8 * j) % 2 ^ 8 := by
  rw [BitVec.extractLsb'_toNat, Nat.shiftRight_eq_div_pow]

/-- Bytes that spell an integer, read together, are its low `8n` bits. -/
theorem ramRead_toNat_of_bytes {s : State} {w : Width} {b n : Nat}
    (h : ∀ j, j < w.bytes → (s.byte (b + j)).toNat = n / 2 ^ (8 * j) % 2 ^ 8) :
    (s.ramRead w b).toNat = lowBytes w n := by
  have h0 := h 0
  have h1 := h 1
  have h2 := h 2
  have h3 := h 3
  cases w <;> simp only [Width.bytes, lowBytes, Nat.reduceMul, Nat.reducePow, Nat.add_zero] at *
  case byte =>
    rw [ramRead_byte_toNat]
    omega
  case half =>
    rw [ramRead_half_toNat]
    omega
  case word =>
    rw [ramRead_word_toNat]
    omega

/-- An address inside an access that ends within the address space (R7). -/
theorem add_offset_toNat {a : Word} {k : Nat} (h : a.toNat + k < 2 ^ 32) : (a + BitVec.ofNat 32 k).toNat = a.toNat + k := by
  rw [BitVec.toNat_add, BitVec.toNat_ofNat]
  omega

/-- Settles O36: the store put byte `j` of the value at `a + j` (`byte_ramWrite`), and the read puts the bytes from `a + k`
together again. -/
theorem narrowReadsOfAStoredWord : Obligations.NarrowReadsOfAStoredWord := by
  unfold Obligations.NarrowReadsOfAStoredWord
  intro s u a v w k hwf hram hk h0 hw
  have hbytes : 1 ≤ w.bytes := by cases w <;> decide
  rw [memWrite_ram v hram] at hw
  cases hw
  obtain ⟨hlo, hhi⟩ := hram
  simp only [Width.bytes] at hhi
  have hend : s.cfg.ramEnd ≤ 2 ^ 32 := by
    simp only [Config.wf, Bool.and_eq_true, decide_eq_true_eq] at hwf
    exact hwf.1
  have hadd := add_offset_toNat (a := a) (k := k) (by omega)
  have hread : RamAccess (s.ramWrite .word a.toNat v) w (a + BitVec.ofNat 32 k) := by
    rw [ramAccess_of_cfg (ramWrite_cfg ..), RamAccess, hadd]
    omega
  rw [memRead_ram hread h0, hadd]
  congr 1
  apply BitVec.eq_of_toNat_eq
  rw [ramRead_toNat_of_bytes (n := v.toNat / 2 ^ (8 * k))]
  · have hlt : lowBytes w (v.toNat / 2 ^ (8 * k)) < 2 ^ 32 :=
      Nat.lt_of_le_of_lt (Nat.le_trans (Nat.mod_le _ _) (Nat.div_le_self _ _)) v.isLt
    rw [BitVec.toNat_ofNat, Nat.mod_eq_of_lt hlt]
  · intro j hj
    have hin : a.toNat ≤ a.toNat + k + j ∧ a.toNat + k + j < a.toNat + Width.word.bytes := by
      rw [show Width.word.bytes = 4 from rfl]
      omega
    rw [byte_ramWrite, if_pos hin, Nat.add_assoc, Nat.add_sub_cancel_left, extract_byte_toNat, Nat.mul_add, Nat.pow_add,
      Nat.div_div_eq_div_mul]

/-! ### A stored word is fetched (R100) -/

/-- Four bytes that hold a word, put together. -/
theorem wordAt_of_holds {s : State} {a : Nat} {v : Word} (h : Holds s a 4 v) : wordAt s a = v := by
  apply BitVec.eq_of_toNat_eq
  rw [← ramRead_word, ramRead_toNat_of_bytes (n := v.toNat)]
  · exact Nat.mod_eq_of_lt v.isLt
  · intro j hj
    rw [h j hj, extract_byte_toNat]

/-- Settles O37: after the store the four bytes at the address hold the word, so a cycle that starts there runs what it
decodes to (O6); no fence has a part in it. -/
theorem storedWordIsFetched : Obligations.StoredWordIsFetched := by
  unfold Obligations.StoredWordIsFetched
  rintro s t _ rs2 rs1 imm i _ rfl hram h0 ha hrun hx hd rfl hn
  obtain ⟨t', hx', st⟩ := store_ram (rs2 := rs2) hram
  obtain rfl : t' = t := Host.Outcome.next.inj (hx'.symm.trans hx)
  refine stepRunsTheDecodedInstruction _ i (st.mode.run.trans hrun) ha h0 ?ram ?word hn
  case ram => exact (ramAccess_of_cfg st.mode.cfg _ _).2 hram
  case word =>
    have hword : wordAt t' (effectiveAddress (s.x rs1) imm).toNat = s.x rs2 := wordAt_of_holds st.stored
    show decode [t'.byte _, t'.byte _, t'.byte _, t'.byte _] = _
    rw [decode_bytes]
    simp only [setPc_pc, hword, hd]

end Sys2Proof.Machine

/-!
PROOFS. The devices (20_memory.md R86, R87; 60_exceptions.md R340 to R346): the UART, the CLINT, SYSCON, and the addresses
that nothing claims.
-/

namespace Sys2Proof.Machine

open State

/-! ### A device behind the bus (R84 to R87, D4) -/

theorem truncate_eq_ofNat (w : Width) (v : Word) : w.truncate v = BitVec.ofNat 32 (lowBytes w v.toNat) := by
  rw [← truncate_toNat, BitVec.ofNat_toNat, BitVec.setWidth_eq]

/-- A value that a device gives reaches the bus cut to the width. -/
theorem memRead_of_devRead {s u : State} {w : Width} {a v : Word} (h : DeviceAccess s w a) (h0 : a ≠ 0#32)
    (hd : devRead a s = .ok v u) : memRead w a s = .ok (BitVec.ofNat 32 (lowBytes w v.toNat)) u := by
  rw [memRead_device h h0, hd, ← truncate_eq_ofNat]
  rfl

section

variable (s : State) (v : Word)

theorem devRead_uartData : devRead 0x10000000#32 s = .ok 0#32 s := rfl

theorem devRead_uartLsr : devRead 0x10000005#32 s = .ok 0x60#32 s := rfl

theorem devRead_msip : devRead 0x11000000#32 s = .ok 0#32 s := rfl

theorem devRead_mtimecmpLow : devRead 0x11004000#32 s = .ok (s.mtimecmp.extractLsb' 0 32) s := rfl

theorem devRead_mtimecmpHigh : devRead 0x11004004#32 s = .ok (s.mtimecmp.extractLsb' 32 32) s := rfl

theorem devRead_mtimeLow :
    devRead 0x1100BFF8#32 s = .ok (s.clock.sample.mtime.extractLsb' 0 32) s.sampleClock := rfl

theorem devRead_mtimeHigh :
    devRead 0x1100BFFC#32 s = .ok (s.clock.sample.mtime.extractLsb' 32 32) s.sampleClock := rfl

theorem devWrite_uartData : devWrite 0x10000000#32 v s = .ok () (s.uartPut (v.extractLsb' 0 8)) := rfl

theorem devWrite_msip : devWrite 0x11000000#32 v s = .ok () s := rfl

theorem devWrite_mtimecmpLow :
    devWrite 0x11004000#32 v s = .ok () (mtipClearTest (s.setMtimecmp (s.mtimecmp.extractLsb' 32 32 ++ v))) := rfl

theorem devWrite_mtimecmpHigh :
    devWrite 0x11004004#32 v s = .ok () (mtipClearTest (s.setMtimecmp (v ++ s.mtimecmp.extractLsb' 0 32))) := rfl

theorem devWrite_syscon : devWrite 0x11100000#32 v s = sysconWrite v s := rfl

end

/-! ### The UART and MSIP (R340, R341) -/

/-- The low byte of a value does not depend on the width of the access. -/
theorem low_byte_of_truncate (w : Width) (v : Word) :
    (w.truncate v).extractLsb' 0 8 = BitVec.ofNat 8 (v.toNat % 2 ^ 8) := by
  apply BitVec.eq_of_toNat_eq
  rw [BitVec.extractLsb'_toNat, truncate_toNat, BitVec.toNat_ofNat, Nat.shiftRight_zero]
  cases w <;> simp only [lowBytes, Width.bytes, Nat.reduceMul, Nat.reducePow] <;> omega

/-- Settles O39: what the device map gives for the three registers, cut to the width. -/
theorem uartAndMsip : Obligations.UartAndMsip := by
  unfold Obligations.UartAndMsip
  intro s w v
  have low_zero : lowBytes w (0#32).toNat = 0 := by cases w <;> rfl
  have low_lsr : lowBytes w (0x60#32).toNat = 0x60 := by cases w <;> rfl
  refine ⟨fun h => ⟨?uartRead, ?uartWrite⟩, fun h => ?lineStatus, fun h => ⟨?msipRead, ?msipWrite⟩, by simp [deviceAt]⟩
  case uartRead => rw [memRead_of_devRead h (by decide) (devRead_uartData s), low_zero]
  case uartWrite => rw [memWrite_device v h, devWrite_uartData, low_byte_of_truncate]; rfl
  case lineStatus => rw [memRead_of_devRead h (by decide) (devRead_uartLsr s), low_lsr]
  case msipRead => rw [memRead_of_devRead h (by decide) (devRead_msip s), low_zero]
  case msipWrite => rw [memWrite_device v h, devWrite_msip]

/-! ### The CLINT timer registers (R342 to R344) -/

theorem low_half_toNat (t : Dword) : (t.extractLsb' 0 32).toNat = t.toNat % 2 ^ 32 := by
  rw [BitVec.extractLsb'_toNat, Nat.shiftRight_zero]

theorem high_half_toNat (t : Dword) : (t.extractLsb' 32 32).toNat = t.toNat / 2 ^ 32 := by
  have := t.isLt
  rw [BitVec.extractLsb'_toNat, Nat.shiftRight_eq_div_pow]
  omega

/-- MTIP after the clear test (R343): cleared when the comparator is above the clock as sampled, else as it was. -/
theorem mtipClearTest_mip_bit (s : State) (k : Nat) :
    ((mtipClearTest s).csr 0x344).getLsbD k =
      if k = 7 ∧ s.clock.sample.mtime.toNat < s.mtimecmp.toNat then false else (s.csr 0x344).getLsbD k := by
  have mask : ∀ k, k < 32 → (0xFFFFFF7F#32).getLsbD k = decide (k ≠ 7) := by decide
  have hlt : s.sampleClock.clock.mtime < s.sampleClock.mtimecmp ↔ s.clock.sample.mtime.toNat < s.mtimecmp.toNat :=
    BitVec.lt_def
  unfold mtipClearTest
  by_cases h : s.clock.sample.mtime.toNat < s.mtimecmp.toNat
  · rw [if_pos (hlt.2 h), csr_setCsr_same, sampleClock_csr, BitVec.getLsbD_and]
    by_cases hk : k < 32
    · rw [mask k hk]
      by_cases h7 : k = 7 <;> simp [h7, h]
    · rw [BitVec.getLsbD_of_ge _ _ (by omega), Bool.false_and, ite_self]
  · rw [if_neg (mt hlt.1 h), if_neg fun hc => h hc.2, sampleClock_csr]

/-- What the clear test leaves: everything but the clock and `mip`. -/
structure MtipTested (s u : State) : Prop where
  clock : u.clock = s.clock.sample
  csrs : CsrsKept [0x344] s u
  regs : RegsKept [] s u
  memory : MemoryKept s u
  mode : ModeKept s u
  pc : u.pc = s.pc
  reservation : u.reservation = s.reservation
  mtimecmp : u.mtimecmp = s.mtimecmp
  uartOut : u.uartOut = s.uartOut

theorem mtipClearTest_tested (s : State) : MtipTested s (mtipClearTest s) := by
  rcases mtipClearTest_eq s with e | e <;> rw [e]
  · exact ⟨rfl, fun _ _ => rfl, fun _ _ => rfl, fun _ => rfl, ⟨rfl, rfl, rfl⟩, rfl, rfl, rfl, rfl⟩
  · exact ⟨rfl, fun a ha => csr_setCsr_other _ _ (by simpa using ha), fun _ _ => rfl, fun _ => rfl, ⟨rfl, rfl, rfl⟩, rfl, rfl,
      rfl, rfl⟩

/-- Writing a half of `mtimecmp` puts the value, cut to the width, in that half. -/
theorem memWrite_mtimecmp {s : State} {w : Width} {a v : Word} {new : Nat}
    (h : (a = 0x11004000#32 ∧ new = s.mtimecmp.toNat / 2 ^ 32 * 2 ^ 32 + lowBytes w v.toNat) ∨
      (a = 0x11004004#32 ∧ new = lowBytes w v.toNat * 2 ^ 32 + s.mtimecmp.toNat % 2 ^ 32)) (hd : DeviceAccess s w a) :
    ∃ t : Dword, t.toNat = new ∧ memWrite w a v s = .ok () (mtipClearTest (s.setMtimecmp t)) := by
  rw [memWrite_device v hd]
  rcases h with ⟨rfl, rfl⟩ | ⟨rfl, rfl⟩
  · refine ⟨s.mtimecmp.extractLsb' 32 32 ++ w.truncate v, ?_, devWrite_mtimecmpLow s _⟩
    rw [append_toNat, high_half_toNat, truncate_toNat]
  · refine ⟨w.truncate v ++ s.mtimecmp.extractLsb' 0 32, ?_, devWrite_mtimecmpHigh s _⟩
    rw [append_toNat, low_half_toNat, truncate_toNat]

/-- Settles O40: the halves as the device map gives them, and a write as `memWrite_mtimecmp` and the clear test. -/
theorem clintTimerRegisters : Obligations.ClintTimerRegisters := by
  unfold Obligations.ClintTimerRegisters
  rintro s w v _ rfl
  refine ⟨fun h => ?timeLow, fun h => ?timeHigh, fun h => ?cmpLow, fun h => ?cmpHigh, fun a new hnew h => ?write⟩
  case timeLow => rw [memRead_of_devRead h (by decide) (devRead_mtimeLow s), low_half_toNat]; rfl
  case timeHigh => rw [memRead_of_devRead h (by decide) (devRead_mtimeHigh s), high_half_toNat]; rfl
  case cmpLow => rw [memRead_of_devRead h (by decide) (devRead_mtimecmpLow s), low_half_toNat]
  case cmpHigh => rw [memRead_of_devRead h (by decide) (devRead_mtimecmpHigh s), high_half_toNat]
  case write =>
    obtain ⟨t, ht, hw⟩ := memWrite_mtimecmp hnew h
    have m := mtipClearTest_tested (s.setMtimecmp t)
    have bit := mtipClearTest_mip_bit (s.setMtimecmp t)
    refine ⟨_, hw, (congrArg BitVec.toNat m.mtimecmp).trans ht, m.clock, ?mtip, fun k hk => ?otherBits, m.csrs, m.regs,
      m.memory, ⟨m.mode.priv, m.mode.run, m.mode.cfg⟩, m.pc, m.reservation, m.uartOut⟩
    case mtip =>
      rw [bit, ← ht, setMtimecmp_clock, setMtimecmp_csr, show (s.setMtimecmp t).mtimecmp = t from rfl]
      by_cases hlt : s.clock.sample.mtime.toNat < t.toNat <;> simp [hlt]
    case otherBits => rw [bit, if_neg fun hc => hk hc.1, setMtimecmp_csr]

/-! ### SYSCON (R346) -/

theorem truncate_eq_iff (w : Width) (v m : Word) : w.truncate v = m ↔ lowBytes w v.toNat = m.toNat := by
  rw [← BitVec.toNat_inj, truncate_toNat]

/-- Settles O41: SYSCON compares the value cut to the width with the two magic values. -/
theorem sysconHaltsOnMagicValues : Obligations.SysconHaltsOnMagicValues := by
  unfold Obligations.SysconHaltsOnMagicValues
  intro s w v h
  have poweroff := truncate_eq_iff w v 0x5555#32
  have reboot := truncate_eq_iff w v 0x7777#32
  rw [memWrite_device v h, devWrite_syscon, sysconWrite]
  refine ⟨fun hv => ?poweroff, fun hv => ?reboot, fun h5 h7 => ?other⟩
  case poweroff =>
    rw [if_pos (poweroff.2 hv)]
    exact ⟨_, rfl, rfl⟩
  case reboot =>
    have hne : w.truncate v ≠ 0x5555#32 := by
      rw [reboot.2 hv]
      decide
    rw [if_neg hne, if_pos (reboot.2 hv)]
    exact ⟨_, rfl, rfl⟩
  case other => rw [if_neg (mt poweroff.1 h5), if_neg (mt reboot.1 h7)]

/-! ### Addresses that nothing claims (R345) -/

/-- A read that no row of R86 claims. -/
theorem devRead_unclaimed {s : State} {a : Word}
    (h : a ∉ [0x10000000#32, 0x10000005#32, 0x11000000#32, 0x11004000#32, 0x11004004#32, 0x1100BFF8#32, 0x1100BFFC#32]) :
    devRead a s = unmappedRead a s := by
  simp only [List.mem_cons, List.not_mem_nil, or_false, not_or] at h
  have hd : deviceAt a = some .syscon ∨ deviceAt a = none := by
    simp only [deviceAt, h, if_false]
    split
    · exact .inl rfl
    · exact .inr rfl
  rcases hd with hd | hd <;> rw [devRead, hd]

/-- A write that no row of R87 claims. -/
theorem devWrite_unclaimed {s : State} {a v : Word}
    (h : a ∉ [0x10000000#32, 0x11000000#32, 0x11004000#32, 0x11004004#32, 0x11100000#32]) :
    devWrite a v s = unmappedWrite a s := by
  simp only [List.mem_cons, List.not_mem_nil, or_false, not_or] at h
  have hd : deviceAt a = some .uartLsr ∨ deviceAt a = some .mtimeLow ∨ deviceAt a = some .mtimeHigh ∨ deviceAt a = none := by
    simp only [deviceAt, h, if_false]
    split_ifs <;> simp
  rcases hd with hd | hd | hd | hd <;> rw [devWrite, hd]

/-- Settles O42: an unclaimed access is the parameter's, whichever its width. -/
theorem unclaimedDeviceAddresses : Obligations.UnclaimedDeviceAddresses := by
  unfold Obligations.UnclaimedDeviceAddresses
  refine fun s w a v h => ⟨fun h0 ha => ?read, fun ha => ?write⟩
  case read =>
    rw [memRead_device h h0, devRead_unclaimed ha, unmappedRead]
    refine ⟨fun hc => ?_, fun hc => ?_⟩ <;> rw [hc]
    · cases w <;> rfl
    · rfl
  case write =>
    rw [memWrite_device v h, devWrite_unclaimed ha, unmappedWrite]
    exact ⟨fun hc => by rw [hc], fun hc => by rw [hc]⟩

end Sys2Proof.Machine

/-!
PROOFS. The CSR instructions (45_zicsr.md, 10_state.md section 8): the six as one, by what their write step does (R260, R271):
nothing, a plain store, or a masked store and the re-check of the interrupts.
-/

namespace Sys2Proof.Machine

open State

/-! ### A CSR instruction is its write step, then `rd` (R260, R261) -/

/-- Permitted by the mode, it ends as its write step does, `rd` getting the value read before. -/
theorem exec_csr_permitted {i : Instr} {s : State} {f : CsrForm} (h : csrForm i s = some f)
    (hp : ¬ s.priv.bits.toNat < f.number.toNat / 256 % 4) :
    exec i s = finish s ((csrWriteStep f.number f.new f.requested s.advancePc).andThen fun _ t =>
      .ok () (t.setX f.rd (csrGet f.number s))) := by
  rw [exec_csr h, csrInstr_permitted hp]
  rfl

theorem exec_csr_refused {i : Instr} {s : State} {f : CsrForm} (h : csrForm i s = some f)
    (hp : s.priv.bits.toNat < f.number.toNat / 256 % 4) :
    exec i s = finish s (.raise .illegalInstruction (encode i)) := by
  rw [exec_csr h, csrInstr, if_pos ((csrMinPriv_lt_iff s.priv f.number).2 hp)]

/-- Settles O52: the test comes first, and Machine mode has the highest number. -/
theorem csrPrivilege : Obligations.CsrPrivilege := by
  unfold Obligations.CsrPrivilege
  refine fun i s f h => ⟨fun hp => ?refused, fun hm => ?machine⟩
  case refused =>
    rw [exec_csr_refused h hp]
    exact finish_raise s .illegalInstruction (encode i)
  case machine =>
    rw [hm, show (Priv.machine.bits).toNat = 3 from rfl]
    omega

/-! ### No write, and the plain write (R263 to R269) -/

theorem not_fixed_of_rechecked {a : CsrNum} (h : RecheckedCsr a) : ¬ FixedCsr a := by
  simp only [RecheckedCsr, FixedCsr, counterCsrs, List.mem_cons, List.not_mem_nil, or_false] at *
  omega

theorem csrWriteStep_kept {a : CsrNum} {req : Bool} (new : Word) (s : State) (h : req = false ∨ FixedCsr a) :
    csrWriteStep a new req s = .ok () s := by
  rcases csrWriteStep_cases a new req s with ⟨-, e⟩ | ⟨hreq, hf, -⟩ | ⟨hreq, hr, -⟩
  · exact e
  · exact absurd h (by simp [hreq, hf])
  · exact absurd h (by simp [hreq, not_fixed_of_rechecked hr])

theorem csrWriteStep_plain {a : CsrNum} (new : Word) (s : State) (hf : ¬ FixedCsr a) (hr : ¬ RecheckedCsr a) :
    csrWriteStep a new true s = .ok () (s.setCsr a.toNat new) := by
  rcases csrWriteStep_cases a new true s with ⟨hk, -⟩ | ⟨-, -, -, e⟩ | ⟨-, hr', -⟩
  · exact absurd hk (by simp [hf])
  · exact e
  · exact absurd hr' hr

/-- Settles O48: with the write step doing nothing only `rd`, `pc` and the counters are left; `csrGet_eq` is the reads. -/
theorem csrReads : Obligations.CsrReads := by
  unfold Obligations.CsrReads
  refine ⟨fun i s f h hp hk => ?reads, csrGet_eq⟩
  case reads =>
    rw [exec_csr_permitted h hp, csrWriteStep_kept _ _ hk]
    refine ⟨_, rfl, ?_⟩
    rw [advancePc_eq, setX_setPc]
    exact completes_retired s f.rd _ _

/-- Settles O49: the write step stores the new value, before `rd` is written. -/
theorem csrPlainWrites : Obligations.CsrPlainWrites := by
  unfold Obligations.CsrPlainWrites
  intro i s f h hp hreq hf hr
  rw [exec_csr_permitted h hp, hreq, csrWriteStep_plain _ _ hf hr]
  exact ⟨_, rfl, csrWrites_retired s f.rd _ _ _ fun hc => hf (.inr (.inr (.inr (.inl hc))))⟩

/-! ### The masked write and its re-check (R35 to R39, R262, R270) -/

/-- The same state but for the form of the CSR file, which reads the same. -/
def ReadsAs (w s : State) : Prop := ∃ c, w = { s with csrs := c } ∧ ∀ a, w.csr a = s.csr a

namespace ReadsAs

variable {w s : State} (h : ReadsAs w s)

theorem refl (s : State) : ReadsAs s s := ⟨s.csrs, rfl, fun _ => rfl⟩

/-- Storing what is stored. -/
theorem setCsr_self (s : State) (a : Nat) : ReadsAs s (s.setCsr a (s.csr a)) := by
  refine ⟨s.csrs, rfl, fun b => ?_⟩
  rw [csr_setCsr]
  split
  · next e => rw [e]
  · rfl

include h

theorem vectorDirect_iff : VectorDirect w ↔ VectorDirect s := by
  obtain ⟨_, -, hcsr⟩ := h
  rw [VectorDirect, VectorDirect, hcsr]

theorem pendingInterrupt_eq : pendingInterrupt w = pendingInterrupt s := by
  obtain ⟨_, rfl, hcsr⟩ := h
  exact pendingInterrupt_congr rfl hcsr

theorem completes {t : State} {rd : RegNum} {v target : Word} (hc : Completes w t rd v target) :
    Completes s t rd v target := by
  obtain ⟨_, rfl, hcsr⟩ := h
  exact {
    result := hc.result
    zero := hc.zero
    regs := hc.regs
    pc := hc.pc
    counted := ⟨hc.counted.cycle.trans (by simp only [cycleCount, hcsr]), hc.counted.instretLow, hc.counted.instretHigh⟩
    csrs := fun a ha => (hc.csrs a ha).trans (hcsr a)
    memory := hc.memory
    reservation := hc.reservation
    devices := ⟨hc.devices.mtimecmp, hc.devices.uartOut, hc.devices.clock⟩
    mode := ⟨hc.mode.priv, hc.mode.run, hc.mode.cfg⟩ }

theorem trapEntered {u : State} {cause tval : Word} (ht : TrapEntered w u cause tval) : TrapEntered s u cause tval := by
  have hv := h.vectorDirect_iff
  obtain ⟨_, rfl, hcsr⟩ := h
  exact {
    mcause := ht.mcause
    mtval := ht.mtval
    mepc := ht.mepc
    mpp := ht.mpp
    mpie := ht.mpie.trans (by rw [hcsr])
    mie := ht.mie
    mstatusRest := fun k hk h3 h7 h11 h12 => (ht.mstatusRest k hk h3 h7 h11 h12).trans (by rw [hcsr])
    vectored := fun hd => ⟨(ht.vectored (hv.2 hd)).1.trans (hcsr _), (ht.vectored (hv.2 hd)).2⟩
    unvectored := fun hd => ht.unvectored (mt hv.1 hd)
    regs := ht.regs
    csrs := fun a ha => (ht.csrs a ha).trans (hcsr a)
    memory := ht.memory
    priv := ht.priv
    reservation := ht.reservation
    devices := ⟨ht.devices.mtimecmp, ht.devices.uartOut, ht.devices.clock⟩
    cfg := ht.cfg }

end ReadsAs

/-- The state after the masked store, `pc` already advanced: the one that the re-check looks at. -/
def maskedWritten (s : State) (f : CsrForm) : State :=
  (s.setCsr f.number.toNat (maskedStore f.number f.new s)).setPc (s.pc + 4#32)

/-- The write step of a masked number is the re-check in that state; for `mideleg`, which keeps its storage, in one that
reads the same. -/
theorem csrWriteStep_rechecked {s : State} {f : CsrForm} (hr : RecheckedCsr f.number) :
    ∃ w, csrWriteStep f.number f.new true s.advancePc = recheck w ∧ ReadsAs w (maskedWritten s f) := by
  rcases csrWriteStep_cases f.number f.new true s.advancePc with ⟨hk, -⟩ | ⟨-, -, hn, -⟩ | ⟨-, -, e | ⟨h303, e⟩⟩
  · exact absurd hk (by simp [not_fixed_of_rechecked hr])
  · exact absurd hr hn
  · exact ⟨_, e, .refl _⟩
  · have hstored : maskedStore f.number f.new s = s.csr 0x303 := by simp [maskedStore, h303]
    refine ⟨_, e, ?_⟩
    rw [maskedWritten, hstored, h303]
    exact .setCsr_self s.advancePc 0x303

/-- A CSR instruction that ended in `t` from the state after its store wrote that CSR, `rd` and nothing else. -/
theorem csrWrites_of_completes {s t : State} {rd : RegNum} {a : Nat} {v stored pc target : Word} (ha : a ∉ counterCsrs)
    (h : Completes ((s.setCsr a stored).setPc pc) t rd v target) : CsrWrites s t rd v a stored target where
  result := h.result
  zero := h.zero
  regs := h.regs
  written := (h.csrs a ha).trans (csr_setCsr_same s a stored)
  csrs b hb := by
    simp only [List.mem_cons, not_or] at hb
    exact (h.csrs b hb.2).trans (csr_setCsr_other s stored hb.1)
  counted := by
    have keep : ∀ b ∈ counterCsrs, (s.setCsr a stored).csr b = s.csr b := fun b hb =>
      csr_setCsr_other s stored (by rintro rfl; exact ha hb)
    refine ⟨h.counted.cycle.trans ?_, h.counted.instretLow, h.counted.instretHigh⟩
    rw [cycleCount, setPc_csr, setPc_csr, keep 0xB80 (by decide), keep 0xB00 (by decide), cycleCount]
  pc := h.pc
  memory := h.memory
  reservation := h.reservation
  devices := ⟨h.devices.mtimecmp, h.devices.uartOut, h.devices.clock⟩
  mode := ⟨h.mode.priv, h.mode.run, h.mode.cfg⟩

theorem setPc_self {s : State} {p : Word} (h : s.pc = p) : s.setPc p = s := by
  subst h
  rfl

/-- A completed instruction that left `pc` where it was. -/
theorem completes_retired_in_place (s : State) (rd : RegNum) (v : Word) :
    Completes s (counterStep (s.setX rd v)) rd v s.pc := by
  have h := completes_retired s rd v s.pc
  rwa [setPc_self (setX_pc s rd v)] at h

/-- Settles O50: the re-check finds nothing, so the instruction ends in the state after its store with `rd` written. -/
theorem csrMaskedWrites : Obligations.CsrMaskedWrites := by
  unfold Obligations.CsrMaskedWrites
  rintro i s f _ h hp hreq hr rfl hn
  obtain ⟨w, e, hw⟩ := csrWriteStep_rechecked (s := s) hr
  have hnone : pendingInterrupt w = none := hw.pendingInterrupt_eq.trans hn
  have hpc : w.pc = s.pc + 4#32 := by
    obtain ⟨_, rfl, -⟩ := hw
    rfl
  have ha : f.number.toNat ∉ counterCsrs := fun hc => not_fixed_of_rechecked hr (.inr (.inr (.inr (.inl hc))))
  rw [exec_csr_permitted h hp, hreq, e]
  rcases recheck_cases w with ⟨-, e⟩ | ⟨k, hk, -⟩ | ⟨k, hk, -⟩
  · rw [e]
    refine ⟨_, rfl, csrWrites_of_completes (pc := s.pc + 4#32) ha (hw.completes ?_)⟩
    rw [← hpc]
    exact completes_retired_in_place w f.rd _
  · rw [hnone] at hk; cases hk
  · rw [hnone] at hk; cases hk

/-- Settles O51: the re-check is the trap entry in the state after the store; `rd` is written after it. -/
theorem csrWriteTakesTheInterrupt : Obligations.CsrWriteTakesTheInterrupt := by
  unfold Obligations.CsrWriteTakesTheInterrupt
  rintro i s f k _ h hp hreq hr rfl hk
  obtain ⟨w, e, hw⟩ := csrWriteStep_rechecked (s := s) hr
  have hmtvec : (maskedWritten s f).csr 0x305 = s.csr 0x305 := by
    refine csr_setCsr_other s _ fun hc => ?_
    rw [RecheckedCsr, ← hc] at hr
    exact absurd hr (by decide)
  have hv : VectorDirect w ↔ VectorDirect s := by
    rw [hw.vectorDirect_iff, VectorDirect, hmtvec, VectorDirect]
  have hkw : pendingInterrupt w = some k := hw.pendingInterrupt_eq.trans hk
  have entered := hw.trapEntered (trap_entered k.cause 0#32 w)
  rw [exec_csr_permitted h hp, hreq, e]
  rcases recheck_cases w with ⟨hn, -⟩ | ⟨j, hj, hd, e⟩ | ⟨j, hj, hd, e⟩
  · rw [hkw] at hn; cases hn
  · obtain rfl : k = j := Option.some.inj (hkw.symm.trans hj)
    refine ⟨fun hd' => ⟨trap k.cause 0#32 w, _, entered, by rw [e]; rfl, ?_⟩, fun hd' => absurd (hv.1 hd) hd'⟩
    have hpc : (trap k.cause 0#32 w).pc = s.csr 0x305 :=
      (entered.vectored (hw.vectorDirect_iff.1 hd)).1.trans hmtvec
    rw [← hpc]
    exact completes_retired_in_place _ f.rd _
  · obtain rfl : k = j := Option.some.inj (hkw.symm.trans hj)
    exact ⟨fun hd' => absurd (hv.2 hd') hd, fun _ => ⟨_, by rw [e]; rfl, (entered.unvectored (mt hw.vectorDirect_iff.2 hd)).2⟩⟩

end Sys2Proof.Machine
